-- ==== Sys2Proof/Word.lean ====
section
/-! DEFINITION. The word types. Timestamps, intervals and transaction words are naturals, as 00_scope.md R7 takes every
number: their widths `TW` and `TW + 4` are parameters (00_scope.md R4), so the bounds are checks (`Instr.wf`, `decode`)
and an invariant (`State.WithinWidths`), not part of a type (log 3). -/

namespace Sys2Proof

/-- A data byte, and every 8-bit register (10_state.md R19, R21–R24). -/
abbrev Byte := BitVec 8

end Sys2Proof
end

