-- ==== Sys2Proof/Syntax.lean ====
section
/-! DEFINITION. The transactions (30_encoding.md R48), who issues them, and why a word decodes to none. -/

namespace Sys2Proof

/-- One constructor per row of spec/opcode_table.json. -/
inductive Instr where
  /-- IDLE (44_packet_handoff.md R110). -/
  | idle
  /-- EDGE.F `t`: a falling edge with timestamp `t` (40_bit_timing_classifier.md R62). -/
  | edgeF (t : Nat)
  /-- EDGE.R `t`: a rising edge with timestamp `t` (40_bit_timing_classifier.md R61). -/
  | edgeR (t : Nat)
  /-- POLL (44_packet_handoff.md R109). -/
  | poll
  /-- RESET (70_reset_and_hazards.md R133). -/
  | reset
  deriving DecidableEq, Repr

/-- The two agents that issue transactions (00_scope.md R3). -/
inductive Agent where
  /-- The edge source: the hardware edge detector with the microsecond clock. -/
  | edgeSource
  /-- The host: the foreground context. -/
  | host
  deriving DecidableEq, Repr

/-- Why a number spells no transaction (30_encoding.md R51). -/
inductive DecodeError where
  /-- It has more than `TW + 4` bits, so it is no transaction word (30_encoding.md R47; log 8). -/
  | tooWide
  /-- The bit `RSV` is 1. -/
  | rsvSet
  /-- `OP` is IDLE, POLL or RESET and one of the bits `[TW:0]` is 1. -/
  | operandNonzero
  deriving DecidableEq, Repr

/-- The fields of a transaction word (30_encoding.md R47). -/
structure TxnFields where
  op : BitVec 2
  rsv : Bool
  d : Bool
  t : Nat
  deriving DecidableEq, Repr

end Sys2Proof
end

