-- ==== Sys2Proof/WellFormed.lean ====
section
/-! DEFINITION. Which syntax terms are instructions: an operand fits its field. -/

namespace Sys2Proof

/-- The operand `T` of an EDGE transaction is a `TW`-bit natural (30_encoding.md R50, R57). The other transactions
have no operand. -/
def Instr.wf (tw : Nat) : Instr → Bool
  | .idle => true
  | .edgeF t => decide (t < 2 ^ tw)
  | .edgeR t => decide (t < 2 ^ tw)
  | .poll => true
  | .reset => true

end Sys2Proof
end

