-- ==== Sys2Proof/Decode.lean ====
section
/-! DEFINITION. The decoder of transaction words, total on every number, and the encoder (30_encoding.md R47–R52). -/

namespace Sys2Proof

/-- The fields of 30_encoding.md R47: `OP` at `[tw+3:tw+2]`, `RSV` at `[tw+1]`, `D` at `[tw]`, `T` at `[tw-1:0]`. -/
def txnFields (tw : Nat) (w : Nat) : TxnFields :=
  { op := BitVec.ofNat 2 (w / 2 ^ (tw + 2))
    rsv := (w / 2 ^ (tw + 1)) % 2 == 1
    d := (w / 2 ^ tw) % 2 == 1
    t := w % 2 ^ tw }

/-- IDLE, POLL and RESET have every bit of `[TW:0]` zero; otherwise the word is reserved (30_encoding.md R51). -/
def decodeBare (i : Instr) (f : TxnFields) : Except DecodeError Instr :=
  if f.d || f.t != 0 then .error .operandNonzero else .ok i

/-- The transaction the fields spell: `OP` alone tells the operation (30_encoding.md R47, R48), `D` the direction of
an edge (R49), and `RSV = 1` reserves the word (R51). -/
def decodeFields (f : TxnFields) : Except DecodeError Instr :=
  if f.rsv then .error .rsvSet
  else if f.op = 0b00#2 then decodeBare .idle f
  else if f.op = 0b01#2 then .ok (if f.d then .edgeR f.t else .edgeF f.t)
  else if f.op = 0b10#2 then decodeBare .poll f
  else decodeBare .reset f

/-- Decoding of a word of `tw + 4` bits, total and rejecting by name (30_encoding.md R51, R52). -/
def decode (tw : Nat) (w : Nat) : Except DecodeError Instr :=
  if w < 2 ^ (tw + 4) then decodeFields (txnFields tw w) else .error .tooWide

/-- The word of a transaction, written from the field table of 30_encoding.md R47: `{OP, RSV, D, T}`. -/
def encodeFields (tw : Nat) (op : BitVec 2) (d : Bool) (t : Nat) : Nat :=
  op.toNat * 2 ^ (tw + 2) + d.toNat * 2 ^ tw + t

/-- The word of each transaction (30_encoding.md R48, R52, R57). -/
def encode (tw : Nat) : Instr → Nat
  | .idle => encodeFields tw 0b00#2 false 0
  | .edgeF t => encodeFields tw 0b01#2 false t
  | .edgeR t => encodeFields tw 0b01#2 true t
  | .poll => encodeFields tw 0b10#2 false 0
  | .reset => encodeFields tw 0b11#2 false 0

/-- The instruction the decoder reads from a word numbered as spec/opcode_table.json numbers it. The table is that of
`TW = 32` (30_encoding.md R52): one word of 36 bits. -/
def decodeTableWord (nbits w : Nat) : Option Instr :=
  match decode 32 (w % 2 ^ nbits) with
  | .ok i => some i
  | .error _ => none

end Sys2Proof
end

