-- ==== Sys2Proof/Config.lean ====
section
/-! DEFINITION. The implementation parameters of 00_scope.md R4: what an instance fixes when it is built. -/

namespace Sys2Proof

/-- A threshold pair: the values `SetThr` puts into `bitMin` and `bitMax` (10_state.md R14). -/
structure ThrPair where
  lo : Nat
  hi : Nat
  deriving DecidableEq, Repr

/-- The open parameters of 00_scope.md R4. `tw` is `TW`, `pre`, `half` and `full` are the pairs
`(T_PRE_MIN, T_PRE_MAX)`, `(T_HALF_MIN, T_HALF_MAX)` and `(T_FULL_MIN, T_FULL_MAX)`; a toggle is `true` for 1. -/
structure Config where
  tw : Nat
  pre : ThrPair
  half : ThrPair
  full : ThrPair
  maxBitDiff : Nat
  syncAlways : Bool
  zbsCheck : Bool
  diag : Bool
  deriving DecidableEq, Repr

/-- `MAXLEN`, fixed at 6: the largest message, its checksum byte included (00_scope.md R4). -/
abbrev Config.maxLen : Nat := 6

/-- `PRE_LIMIT`, fixed at 10: the count the preamble must exceed (00_scope.md R4). -/
def Config.preLimit : Nat := 10

/-- Both thresholds of a pair fit in `tw` bits. -/
def ThrPair.fits (tw : Nat) (p : ThrPair) : Bool :=
  decide (p.lo < 2 ^ tw) && decide (p.hi < 2 ^ tw)

/-- The ranges of 00_scope.md R4. `lo ≤ hi` is NOT required (R5); outside these ranges a configuration has no
meaning and is refused (R5, 92_eei_decisions.md D39). -/
def Config.inRange (c : Config) : Bool :=
  decide (1 ≤ c.tw) && c.pre.fits c.tw && c.half.fits c.tw && c.full.fits c.tw && decide (c.maxBitDiff < 2 ^ c.tw)

/-- The reference configuration REF of 00_scope.md R6. PRESUMED (log 2): the spec marks its seven figures as general
knowledge, so they are parameters and no fact of the hardware. -/
def Config.ref : Config :=
  { tw := 32, pre := { lo := 82, hi := 146 }, half := { lo := 35, hi := 82 }, full := { lo := 82, hi := 146 },
    maxBitDiff := 24, syncAlways := true, zbsCheck := false, diag := true }

end Sys2Proof
end

