-- ==== Sys2Proof/Machine/State.lean ====
section
/-! DEFINITION. The state of one instance as plain data, the reasons a step can stop, and the power-on state.
The grouping follows the ownership table of 10_state.md R27: the receiver registers, the mailbox, the diagnostic
counters, the outputs of the transaction just executed, and the words the agents have issued. -/

namespace Sys2Proof.Machine

open Sys2Proof

/-- The receive state, register `state` (10_state.md R12). The 3-bit codes are `RxState.code`; codes 5–7 are never
written (R12, R29) and have no constructor (log 12). -/
inductive RxState where
  /-- Hunting for the preamble. -/
  | waitPreamble
  /-- After a preamble, half-bit synchronisation active. -/
  | waitStartBit
  /-- After a preamble with `SYNC_ALWAYS = 0` and `checksum = 0`. -/
  | waitStartBitFull
  /-- Receiving the 8 bits of a data byte. -/
  | waitData
  /-- Expecting the bit after a data byte. -/
  | waitEndBit
  deriving DecidableEq, Repr

/-- The EdgeSynchronizer's substate, register `halfBit` (10_state.md R13). The 3-bit codes are `HalfBit.code`; codes
2 and 5–7 are never written (R13, R29) and have no constructor (log 12). -/
inductive HalfBit where
  /-- No half-bit of the current pair seen yet. -/
  | h0
  /-- The first half-bit of the pair was a one. -/
  | h1
  /-- The first half-bit was a one and the second a zero. -/
  | h3
  /-- The first half-bit of the pair was a zero. -/
  | h4
  deriving DecidableEq, Repr

/-- The three threshold phases `SetThr` knows (10_state.md R14). -/
inductive ThrPhase where
  | pre
  | half
  | full
  deriving DecidableEq, Repr

/-- The four classes of 40_bit_timing_classifier.md R71. -/
inductive EdgeClass where
  | glitch
  | outOfRange
  | one
  | zero
  deriving DecidableEq, Repr

/-- The event bits of 30_encoding.md R54, in the order of their bit numbers (`Event.index`). -/
inductive Event where
  | filtered
  | glitch
  | zbsReset
  | bit
  | bitVal
  | syncFail
  | flip
  | start
  | byte
  | overflow
  | csumErr
  | commit
  | overwrite
  | preamble
  deriving DecidableEq, Repr

/-- A message record: `size`, `preambleBits` and `MAXLEN` data bytes (10_state.md R23, R24). -/
structure Message where
  size : BitVec 3
  preambleBits : Byte
  data : Vector Byte Config.maxLen
  deriving DecidableEq, Repr

/-- The registers only EDGE and RESET write (10_state.md R12–R23, R27). `working` is the working message
(`wSize`, `wPreambleBits`, `wData`). -/
structure Receiver where
  state : RxState
  halfBit : HalfBit
  bitMin : Nat
  bitMax : Nat
  /-- `true` is 1, RISING (R16). -/
  edgePolarity : Bool
  lastTs : Nat
  bit1 : Nat
  bit2 : Nat
  preambleBitCount : Byte
  bitCount : BitVec 4
  tempByte : Byte
  checksum : Byte
  working : Message
  deriving DecidableEq, Repr

/-- The single-slot mailbox: the handoff message (`hSize`, `hPreambleBits`, `hData`) and `dataReady`
(10_state.md R24, R25). -/
structure Mailbox where
  handoff : Message
  dataReady : Bool
  deriving DecidableEq, Repr

/-- The diagnostic counters of 10_state.md R26. With `DIAG = 0` they do not exist: no rule reads or writes these
fields and the counter outputs are absent (log 11). -/
structure Diag where
  glitchCnt : BitVec 16
  overflowCnt : BitVec 16
  csumErrCnt : BitVec 16
  deriving DecidableEq, Repr

/-- The outputs of the transaction just executed: `ev` (30_encoding.md R54), the POLL response if it was a POLL
(R53), and whether `notify` pulsed (44_packet_handoff.md R108). The model's own fields (log 4). -/
structure Outputs where
  ev : BitVec 16
  resp : Option (BitVec 64)
  notify : Bool
  deriving DecidableEq, Repr

/-- What the agents have issued and the block has not executed yet, each agent's words in issue order, and the order
in which the block serves the agents (20_memory.md R41, R42). The model's own fields (log 5). -/
structure Inputs where
  edgePending : List Nat
  hostPending : List Nat
  turns : List Agent
  deriving DecidableEq, Repr

/-- One instance: its parameters (fixed, 20_memory.md R45; log 1) and everything 10_state.md gives it (R31). -/
structure State where
  cfg : Config
  rx : Receiver
  box : Mailbox
  diag : Diag
  out : Outputs
  inp : Inputs
  deriving DecidableEq, Repr

/-- The reasons a step could stop with a fault: none. "No transaction raises an exception, and no condition of the
block stops, stalls or faults it" (60_exceptions.md R115; 93_implementation_defined.md part 1; log 10). -/
inductive Fault where
  deriving DecidableEq, Repr

/-- The transactions the model gives no meaning. -/
inductive Refusal where
  /-- Raised by `exec` for an instruction without a meaning. Safe: nothing is claimed of it. -/
  | notModelled (mnemonic : String)
  /-- Raised by `step` for a reserved word (30_encoding.md R51, 60_exceptions.md R117). Safe: a claim about the run is
  unprovable. -/
  | reservedEncoding
  /-- Raised by every meaning under a configuration outside the ranges of 00_scope.md R4 (R5). Safe, as above. -/
  | configOutOfRange
  /-- Raised by `step` when an agent issues the other agent's transaction (60_exceptions.md R124,
  93_implementation_defined.md I13). Safe, as above. -/
  | foreignTransaction
  deriving DecidableEq, Repr

/-- A message with every part 0 (70_reset_and_hazards.md R134). -/
def Message.zero : Message :=
  { size := 0, preambleBits := 0, data := Vector.replicate Config.maxLen 0 }

/-- The receiver registers at power-on (70_reset_and_hazards.md R134, R135). -/
def Receiver.powerOn (c : Config) : Receiver :=
  { state := .waitPreamble, halfBit := .h0, bitMin := c.pre.lo, bitMax := c.pre.hi, edgePolarity := true,
    lastTs := 0, bit1 := 0, bit2 := 0, preambleBitCount := 0, bitCount := 0, tempByte := 0, checksum := 0,
    working := Message.zero }

/-- The counters at power-on (70_reset_and_hazards.md R134). -/
def Diag.zero : Diag := { glitchCnt := 0, overflowCnt := 0, csumErrCnt := 0 }

/-- No event, no response, no pulse. DESIGN CHOICE at power-on, where no transaction has been executed (log 4). -/
def Outputs.quiet : Outputs := { ev := 0, resp := none, notify := false }

/-- No agent has issued anything. DESIGN CHOICE at power-on (log 5). -/
def Inputs.empty : Inputs := { edgePending := [], hostPending := [], turns := [] }

/-- An instance at power-on, for any parameters (70_reset_and_hazards.md R135). -/
def State.powerOn (c : Config) : State :=
  { cfg := c, rx := Receiver.powerOn c, box := { handoff := Message.zero, dataReady := false },
    diag := Diag.zero, out := Outputs.quiet, inp := Inputs.empty }

/-- The machine right after reset, an instance of the reference configuration. DESIGN CHOICE (log 1): the spec leaves
the parameters open and fixes REF for its vectors (00_scope.md R6). -/
def State.reset : State := State.powerOn Config.ref

end Sys2Proof.Machine
end

