-- ==== Sys2Proof/Machine/Operands.lean ====
section
/-! DEFINITION. The operand forms: the timestamp operand and the elapsed time taken from it, and the codes of the two
enumerated registers. -/

namespace Sys2Proof.Machine

open Sys2Proof

/-- The timestamp operand as a `tw`-bit natural: used unchanged (30_encoding.md R50); a wider number, which no word
decodes to, keeps its low bits (00_scope.md R7; DEDUCED, log 14). -/
def timeOperand (tw : Nat) (t : Nat) : Nat := t % 2 ^ tw

/-- Subtraction modulo `2 ^ tw`, written `-_TW` in the spec (00_scope.md R7). -/
def subMod (tw : Nat) (a b : Nat) : Nat := (a + (2 ^ tw - b % 2 ^ tw)) % 2 ^ tw

/-- The elapsed time of an edge with timestamp `t` (40_bit_timing_classifier.md R65). -/
def elapsed (c : Config) (r : Receiver) (t : Nat) : Nat := subMod c.tw t r.lastTs

/-- `|a - b|` of the exact integer difference (00_scope.md R7). -/
def absDiff (a b : Nat) : Nat := (a - b) + (b - a)

/-- The 3-bit code of register `state` (10_state.md R12). -/
def RxState.code : RxState → BitVec 3
  | .waitPreamble => 0
  | .waitStartBit => 1
  | .waitStartBitFull => 2
  | .waitData => 3
  | .waitEndBit => 4

/-- The 3-bit code of register `halfBit` (10_state.md R13). -/
def HalfBit.code : HalfBit → BitVec 3
  | .h0 => 0
  | .h1 => 1
  | .h3 => 3
  | .h4 => 4

/-- The threshold pair of a phase (10_state.md R14). -/
def thrPair (c : Config) : ThrPhase → ThrPair
  | .pre => c.pre
  | .half => c.half
  | .full => c.full

end Sys2Proof.Machine
end

