-- ==== Sys2Proof/Machine/Flags.lean ====
section
/-! DEFINITION. Event bits, level outputs and the POLL response word: everything the block drives outward
(10_state.md R28, 30_encoding.md R53–R55). -/

namespace Sys2Proof.Machine

open Sys2Proof

/-- The bit of `ev` an event sets (30_encoding.md R54). -/
def Event.index : Event → Nat
  | .filtered => 0
  | .glitch => 1
  | .zbsReset => 2
  | .bit => 3
  | .bitVal => 4
  | .syncFail => 5
  | .flip => 6
  | .start => 7
  | .byte => 8
  | .overflow => 9
  | .csumErr => 10
  | .commit => 11
  | .overwrite => 12
  | .preamble => 13

/-- The event vector with only this event's bit set. -/
def Event.mask (e : Event) : BitVec 16 := BitVec.twoPow 16 e.index

/-- Whether the event's bit is set in an event vector. -/
def Event.isIn (e : Event) (ev : BitVec 16) : Bool := ev.getLsbD e.index

/-- The output `trigMode`: BOTH in WAIT_START_BIT, otherwise the single edge of `edgePolarity`
(41_edge_synchronizer.md R73, 30_encoding.md R55). -/
def trigMode (r : Receiver) : BitVec 2 :=
  if r.state = .waitStartBit then 0b11 else if r.edgePolarity then 0b10 else 0b01

/-- An edge of direction `d` is accepted when `trigMode[D] = 1` (30_encoding.md R55). -/
def trigAccepts (r : Receiver) (d : Bool) : Bool := (trigMode r).getLsbD d.toNat

/-- The POLL response when a message was available: `{1, 0000, SIZE, PREBITS, DATA_5, …, DATA_0}`
(30_encoding.md R53, 44_packet_handoff.md R109). -/
def respWord (m : Message) : BitVec 64 :=
  1#1 ++ 0#4 ++ m.size ++ m.preambleBits ++ m.data[5] ++ m.data[4] ++ m.data[3] ++ m.data[2] ++ m.data[1] ++ m.data[0]

/-- The output `trigMode` of an instance (10_state.md R28). -/
def State.trigModeOut (s : State) : BitVec 2 := trigMode s.rx

/-- The output `dataReadyOut` (10_state.md R28). -/
def State.dataReadyOut (s : State) : Bool := s.box.dataReady

/-- A counter output, present only if `DIAG = 1` (10_state.md R26, R28). -/
def counterOut (c : Config) (v : BitVec 16) : Option (BitVec 16) := if c.diag then some v else none

/-- The output `glitchCnt` (10_state.md R28). -/
def State.glitchCntOut (s : State) : Option (BitVec 16) := counterOut s.cfg s.diag.glitchCnt

/-- The output `overflowCnt` (10_state.md R28). -/
def State.overflowCntOut (s : State) : Option (BitVec 16) := counterOut s.cfg s.diag.overflowCnt

/-- The output `csumErrCnt` (10_state.md R28). -/
def State.csumErrCntOut (s : State) : Option (BitVec 16) := counterOut s.cfg s.diag.csumErrCnt

end Sys2Proof.Machine
end

