-- ==== Sys2Proof/Machine/Ops.lean ====
section
/-! DEFINITION. The named operations shared by the meanings. There is no operation that takes an exception and none
that returns from one: "The block has no trap entry" and "no trap return" (60_exceptions.md R122, R123). -/

namespace Sys2Proof.Machine

open Sys2Proof

/-- What every transaction starts with: `ev <- 0`, no response, no pulse (40_bit_timing_classifier.md R63,
44_packet_handoff.md R108–R110, 70_reset_and_hazards.md R133). -/
def State.begin (s : State) : State := { s with out := Outputs.quiet }

/-- `emit EV_X`: sets the event's bit of `ev` (00_scope.md R8). -/
def State.emit (e : Event) (s : State) : State := { s with out := { s.out with ev := s.out.ev ||| e.mask } }

/-- One atomic transaction: its whole effect, under a configuration that has a meaning (00_scope.md R2, R5). -/
def perform (f : State → State) (s : State) : Host.Outcome State Fault Refusal :=
  if s.cfg.inRange then .next (f s) else .refused .configOutOfRange

/-- `sat8(v + 1)` of an 8-bit counter (00_scope.md R7, 10_state.md R19). -/
def satSucc (v : Byte) : Byte := BitVec.ofNat 8 (min (v.toNat + 1) 255)

/-- `SetThr(P)` (10_state.md R14). -/
def setThr (p : ThrPhase) (c : Config) (r : Receiver) : Receiver :=
  { r with bitMin := (thrPair c p).lo, bitMax := (thrPair c p).hi }

/-- `GoPreamble()`: the ordinary return to preamble hunting (42_packet_assembler.md R90). -/
def goPreamble (c : Config) (r : Receiver) : Receiver :=
  { setThr .pre c r with state := .waitPreamble, bitCount := 0 }

/-- `HuntReset()`: the hard return to preamble hunting (42_packet_assembler.md R91). -/
def huntReset (c : Config) (r : Receiver) : Receiver :=
  { goPreamble c r with preambleBitCount := 0, halfBit := .h0 }

/-- One more on a diagnostic counter, which exists only when `DIAG = 1` and wraps modulo 2^16 (10_state.md R26). -/
def countUp (c : Config) (v : BitVec 16) : BitVec 16 := if c.diag then v + 1 else v

/-- The tally of glitches (40_bit_timing_classifier.md R66). -/
def State.countGlitch (s : State) : State :=
  { s with diag := { s.diag with glitchCnt := countUp s.cfg s.diag.glitchCnt } }

/-- The tally of overflows (42_packet_assembler.md R93, R94). -/
def State.countOverflow (s : State) : State :=
  { s with diag := { s.diag with overflowCnt := countUp s.cfg s.diag.overflowCnt } }

/-- The tally of checksum errors (43_checksum_validator.md R103). -/
def State.countCsumErr (s : State) : State :=
  { s with diag := { s.diag with csumErrCnt := countUp s.cfg s.diag.csumErrCnt } }

/-- Whether an agent may issue a transaction: the edge source EDGE and IDLE, the host POLL, RESET and IDLE
(00_scope.md R3, 60_exceptions.md R124). -/
def mayIssue : Agent → Instr → Bool
  | _, .idle => true
  | .edgeSource, .edgeF _ => true
  | .edgeSource, .edgeR _ => true
  | .host, .poll => true
  | .host, .reset => true
  | .edgeSource, .poll => false
  | .edgeSource, .reset => false
  | .host, .edgeF _ => false
  | .host, .edgeR _ => false

/-- The words an agent has issued and the block has not executed yet. -/
def Inputs.pendingOf (a : Agent) (q : Inputs) : List Nat :=
  match a with
  | .edgeSource => q.edgePending
  | .host => q.hostPending

/-- The inputs with an agent's pending words replaced. -/
def Inputs.setPending (a : Agent) (ws : List Nat) (q : Inputs) : Inputs :=
  match a with
  | .edgeSource => { q with edgePending := ws }
  | .host => { q with hostPending := ws }

/-- The next transaction of the total order: the agent whose turn it is, its oldest word, and the inputs without them.
Each agent's words keep their issue order; the turns decide the interleaving (20_memory.md R41, R42). `none` for the
word is a cycle in which no agent acts (44_packet_handoff.md R110; log 5). -/
def Inputs.take (q : Inputs) : Option (Agent × Nat) × Inputs :=
  match q.turns with
  | [] => (none, q)
  | a :: rest =>
    match q.pendingOf a with
    | [] => (none, { q with turns := rest })
    | w :: ws => (some (a, w), Inputs.setPending a ws { q with turns := rest })

/-- The agent that issues a word of a given encoding: EDGE words come from the edge source, the others from the host
(00_scope.md R3; IDLE may come from either, log 6). -/
def agentOfWord (tw : Nat) (w : Nat) : Agent :=
  if (txnFields tw w).op = 0b01#2 then .edgeSource else .host

/-- The inputs with one more word that the block serves before everything else. -/
def Inputs.push (a : Agent) (w : Nat) (q : Inputs) : Inputs :=
  Inputs.setPending a (w :: q.pendingOf a) { q with turns := a :: q.turns }

end Sys2Proof.Machine
end

