-- ==== Sys2Proof/Machine/Handoff.lean ====
section
/-! DEFINITION. The PacketHandoff mailbox: Commit, POLL and IDLE (44_packet_handoff.md). -/

namespace Sys2Proof.Machine

open Sys2Proof

/-- `notify`: one pulse of the output in this transaction (44_packet_handoff.md R108). -/
def State.pulse (s : State) : State := { s with out := { s.out with notify := true } }

/-- `Commit()`: the whole working message replaces the handoff message, read or not (44_packet_handoff.md R106, R107;
90_conflicts.md C1). -/
def commit (s : State) : State :=
  let s := if s.box.dataReady then s.emit .overwrite else s
  let s := { s with box := { handoff := s.rx.working, dataReady := true } }
  s.pulse.emit .commit

/-- The effect of POLL: the atomic read-and-clear of the mailbox (44_packet_handoff.md R109, 20_memory.md R38). -/
def pollMailbox (s : State) : State :=
  let s := s.begin
  if s.box.dataReady then
    { s with out := { s.out with resp := some (respWord s.box.handoff) }, box := { s.box with dataReady := false } }
  else { s with out := { s.out with resp := some 0 } }

/-- POLL (44_packet_handoff.md R109). -/
def execPoll (s : State) : Host.Outcome State Fault Refusal := perform pollMailbox s

/-- IDLE: `ev <- 0` and nothing else (44_packet_handoff.md R110). -/
def execIdle (s : State) : Host.Outcome State Fault Refusal := perform State.begin s

end Sys2Proof.Machine
end

