-- ==== Sys2Proof/Machine/Checksum.lean ====
section
/-! DEFINITION. The checksum validator: the running XOR and its end-of-packet test (43_checksum_validator.md). -/

namespace Sys2Proof.Machine

open Sys2Proof

/-- `ChecksumClear()` (43_checksum_validator.md R100). -/
def checksumClear (r : Receiver) : Receiver := { r with checksum := 0 }

/-- `ChecksumAccumulate(x)` (43_checksum_validator.md R101). -/
def checksumAccumulate (x : Byte) (r : Receiver) : Receiver := { r with checksum := r.checksum ^^^ x }

/-- `ChecksumValid()` (43_checksum_validator.md R102). -/
def checksumValid (r : Receiver) : Bool := r.checksum == 0

/-- `ChecksumReject()`: the completed packet is discarded (43_checksum_validator.md R103). -/
def checksumReject (s : State) : State := (s.emit .csumErr).countCsumErr

end Sys2Proof.Machine
end

