-- ==== Sys2Proof/Machine/Synchronizer.lean ====
section
/-! DEFINITION. The EdgeSynchronizer: entering the start-bit states, half-bit synchronisation, and the full-bit wait
for the start bit (41_edge_synchronizer.md). -/

namespace Sys2Proof.Machine

open Sys2Proof

/-- `EnterSync()` (41_edge_synchronizer.md R75). -/
def enterSync (c : Config) (r : Receiver) : Receiver :=
  setThr .half c { r with state := .waitStartBit, halfBit := .h0 }

/-- `EnterFull()` (41_edge_synchronizer.md R76). -/
def enterFull (c : Config) (r : Receiver) : Receiver :=
  setThr .pre c { r with state := .waitStartBitFull }

/-- The register writes of `AcceptStart(flip)`: the polarity toggles on `flip`, and a new packet is opened
(41_edge_synchronizer.md R86). `wData` is not cleared (90_conflicts.md C2). -/
def openPacket (flip : Bool) (c : Config) (r : Receiver) : Receiver :=
  checksumClear
    { setThr .full c r with
      edgePolarity := if flip then !r.edgePolarity else r.edgePolarity
      state := .waitData
      halfBit := .h0
      working := { r.working with size := 0, preambleBits := r.preambleBitCount }
      bitCount := 0
      tempByte := 0 }

/-- `AcceptStart(flip)` (41_edge_synchronizer.md R86). -/
def acceptStart (flip : Bool) (s : State) : State :=
  let s := if flip then s.emit .flip else s
  State.emit .start { s with rx := openPacket flip s.cfg s.rx }

/-- `SyncFail()` (41_edge_synchronizer.md R87). -/
def syncFail (s : State) : State := State.emit .syncFail { s with rx := huntReset s.cfg s.rx }

/-- A second one half-bit after a first: the pair is a preamble bit in phase if the two differ by at most
`MAX_BITDIFF` (41_edge_synchronizer.md R80). -/
def pairOfOnes (e : Nat) (s : State) : State :=
  let s := { s with rx := { s.rx with bit2 := e } }
  if s.cfg.maxBitDiff < absDiff s.rx.bit2 s.rx.bit1 then syncFail s
  else { s with rx := { s.rx with halfBit := .h0 } }

/-- `HalfBitStep(b, e)`, the per-state step of WAIT_START_BIT: the table of 41_edge_synchronizer.md R77, rows
R78–R85. -/
def halfBitStep (b : Bool) (e : Nat) (s : State) : State :=
  match s.rx.halfBit, b with
  | .h0, true => { s with rx := { s.rx with halfBit := .h1, bit1 := e } }
  | .h0, false => { s with rx := { s.rx with halfBit := .h4 } }
  | .h1, true => pairOfOnes e s
  | .h1, false => { s with rx := { s.rx with halfBit := .h3 } }
  | .h3, true => syncFail s
  | .h3, false => acceptStart true s
  | .h4, true => syncFail s
  | .h4, false => acceptStart false s

/-- `FullStartStep(b)`, the per-state step of WAIT_START_BIT_FULL (41_edge_synchronizer.md R88). -/
def fullStartStep (b : Bool) (s : State) : State := if b then s else acceptStart false s

end Sys2Proof.Machine
end

