-- ==== Sys2Proof/Machine/PacketAssembler.lean ====
section
/-! DEFINITION. The PacketAssembler: the per-state steps of WAIT_PREAMBLE, WAIT_DATA and WAIT_END_BIT, and the global
post-bit check (42_packet_assembler.md). -/

namespace Sys2Proof.Machine

open Sys2Proof

/-- The oversized packet is dropped (42_packet_assembler.md R93, R94). -/
def dropOversized (s : State) : State :=
  (State.emit .overflow { s with rx := goPreamble s.cfg s.rx }).countOverflow

/-- `PreambleStep()`, the per-state step of WAIT_PREAMBLE: nothing (42_packet_assembler.md R92). -/
def preambleStep (s : State) : State := s

/-- Data bit `b` is shifted into `tempByte` from the least significant end and counted
(42_packet_assembler.md R93, 20_memory.md R35). -/
def shiftIn (b : Bool) (r : Receiver) : Receiver :=
  { r with bitCount := r.bitCount + 1, tempByte := (r.tempByte <<< 1) ||| BitVec.ofNat 8 b.toNat }

/-- The finished byte is appended to the working message and accumulated (42_packet_assembler.md R93). `wSize` is at
most `MAXLEN` (10_state.md R23), so the byte has a place; a `wSize` above it, which no rule writes, has none and no
byte is written (log 13). -/
def appendByte (r : Receiver) : Receiver :=
  let r' := { r with
    working := { r.working with
      data := r.working.data.setIfInBounds r.working.size.toNat r.tempByte
      size := r.working.size + 1 } }
  { checksumAccumulate r'.tempByte r' with state := .waitEndBit }

/-- `DataStep(b)`, the per-state step of WAIT_DATA (42_packet_assembler.md R93). -/
def dataStep (b : Bool) (s : State) : State :=
  let s := { s with rx := shiftIn b s.rx }
  if s.rx.bitCount = 8 then
    if s.rx.working.size.toNat = Config.maxLen then dropOversized s
    else State.emit .byte { s with rx := appendByte s.rx }
  else s

/-- `EndBitStep(b)`, the per-state step of WAIT_END_BIT (42_packet_assembler.md R94). -/
def endBitStep (b : Bool) (s : State) : State :=
  if b then
    let s := { s with rx := goPreamble s.cfg s.rx }
    if checksumValid s.rx then commit s else checksumReject s
  else if s.rx.working.size.toNat = Config.maxLen then dropOversized s
  else { s with rx := { s.rx with state := .waitData, bitCount := 0, tempByte := 0 } }

/-- More than `PRE_LIMIT` ones: which start-bit state is entered (42_packet_assembler.md R95, 90_conflicts.md C4). -/
def enterStart (s : State) : State :=
  State.emit .preamble
    { s with rx := if s.cfg.syncAlways || s.rx.checksum != 0 then enterSync s.cfg s.rx else enterFull s.cfg s.rx }

/-- `PostBitCheck(b)`, on the state after the per-state step (42_packet_assembler.md R95, R96). -/
def postBitCheck (b : Bool) (s : State) : State :=
  if s.rx.state = .waitStartBit then s
  else if b then
    let s := { s with rx := { s.rx with preambleBitCount := satSucc s.rx.preambleBitCount } }
    if Config.preLimit < s.rx.preambleBitCount.toNat then enterStart s else s
  else { s with rx := { s.rx with preambleBitCount := 0 } }

end Sys2Proof.Machine
end

