-- ==== Sys2Proof/Machine/Edge.lean ====
section
/-! DEFINITION. The BitTimingClassifier and the EDGE transactions (40_bit_timing_classifier.md). -/

namespace Sys2Proof.Machine

open Sys2Proof

/-- `Classify`: a pure function of the elapsed time, the thresholds and `ZBS_CHECK` (40_bit_timing_classifier.md R71).
`2 * bitMax` is exact (R68). -/
def classify (zbsCheck : Bool) (e bitMin bitMax : Nat) : EdgeClass :=
  if e < bitMin then .glitch
  else if zbsCheck && decide (2 * bitMax < e) then .outOfRange
  else if e < bitMax then .one
  else .zero

/-- The per-state step, selected by `state` before it runs (40_bit_timing_classifier.md R63, R70). -/
def perStateStep (b : Bool) (e : Nat) (s : State) : State :=
  match s.rx.state with
  | .waitPreamble => preambleStep s
  | .waitStartBit => halfBitStep b e s
  | .waitStartBitFull => fullStartStep b s
  | .waitData => dataStep b s
  | .waitEndBit => endBitStep b s

/-- The stages of a classified bit: its events, the per-state step, the post-bit check
(40_bit_timing_classifier.md R63, R69, R70). -/
def classifiedBit (b : Bool) (e : Nat) (s : State) : State :=
  let s := s.emit .bit
  let s := if b then s.emit .bitVal else s
  postBitCheck b (perStateStep b e s)

/-- An edge that is neither filtered nor a glitch moves the time reference (40_bit_timing_classifier.md R67). -/
def State.setLastTs (t : Nat) (s : State) : State := { s with rx := { s.rx with lastTs := t } }

/-- An out-of-range interval (40_bit_timing_classifier.md R68, 90_conflicts.md C6). -/
def rejectOutOfRange (s : State) : State := State.emit .zbsReset { s with rx := huntReset s.cfg s.rx }

/-- `EdgeStep(D, T)` for an edge the trigger filter accepts (40_bit_timing_classifier.md R63, R65–R70). -/
def acceptedEdge (t : Nat) (s : State) : State :=
  let e := elapsed s.cfg s.rx t
  match classify s.cfg.zbsCheck e s.rx.bitMin s.rx.bitMax with
  | .glitch => (s.emit .glitch).countGlitch
  | .outOfRange => rejectOutOfRange (s.setLastTs t)
  | .one => classifiedBit true e (s.setLastTs t)
  | .zero => classifiedBit false e (s.setLastTs t)

/-- `EdgeStep(D, T)`: the filter, with the `trigMode` of the state before this edge, and then the stages of an accepted
edge (40_bit_timing_classifier.md R63, R64; 41_edge_synchronizer.md R74). -/
def edgeStep (d : Bool) (t : Nat) (s : State) : State :=
  let s := s.begin
  if trigAccepts s.rx d then acceptedEdge (timeOperand s.cfg.tw t) s else s.emit .filtered

/-- EDGE.F (40_bit_timing_classifier.md R62). -/
def execEdgeF (t : Nat) (s : State) : Host.Outcome State Fault Refusal := perform (edgeStep false t) s

/-- EDGE.R (40_bit_timing_classifier.md R61). -/
def execEdgeR (t : Nat) (s : State) : Host.Outcome State Fault Refusal := perform (edgeStep true t) s

end Sys2Proof.Machine
end

