-- ==== Sys2Proof/Machine/Reset.lean ====
section
/-! DEFINITION. The RESET transaction (70_reset_and_hazards.md R133–R136). -/

namespace Sys2Proof.Machine

open Sys2Proof

/-- The message registers after RESET: every part 0 (70_reset_and_hazards.md R133). -/
def clearedMessage : Message := { size := 0, preambleBits := 0, data := Vector.replicate Config.maxLen 0 }

/-- The receiver registers after RESET, in the order of the pseudocode (70_reset_and_hazards.md R133). -/
def resetReceiver (c : Config) (r : Receiver) : Receiver :=
  { setThr .pre c { r with state := .waitPreamble, halfBit := .h0 } with
    edgePolarity := true
    lastTs := 0
    bit1 := 0
    bit2 := 0
    preambleBitCount := 0
    bitCount := 0
    tempByte := 0
    checksum := 0
    working := clearedMessage }

/-- The counters after RESET: cleared where they exist (70_reset_and_hazards.md R133). -/
def resetDiag (c : Config) (d : Diag) : Diag :=
  if c.diag then { glitchCnt := 0, overflowCnt := 0, csumErrCnt := 0 } else d

/-- The effect of RESET. It emits nothing and pulses nothing (70_reset_and_hazards.md R136), and it does not touch
what the agents have issued. -/
def resetBlock (s : State) : State :=
  { s.begin with
    rx := resetReceiver s.cfg s.rx
    box := { handoff := clearedMessage, dataReady := false }
    diag := resetDiag s.cfg s.diag }

/-- RESET (70_reset_and_hazards.md R133). -/
def execReset (s : State) : Host.Outcome State Fault Refusal := perform resetBlock s

end Sys2Proof.Machine
end

