-- ==== Sys2Proof/Machine/Step.lean ====
section
/-! DEFINITION. One step: the next transaction of the agents' total order is decoded and executed. -/

namespace Sys2Proof.Machine

open Sys2Proof

/-- The word an agent issued, decoded and executed. A reserved word is refused (30_encoding.md R51), and so is a
transaction of the other agent (60_exceptions.md R124). -/
def issue (a : Agent) (w : Nat) (s : State) : Host.Outcome State Fault Refusal :=
  match decode s.cfg.tw w with
  | .error _ => .refused .reservedEncoding
  | .ok i => if mayIssue a i then exec i s else .refused .foreignTransaction

/-- One step takes the next transaction of the total order out of the inputs and executes it atomically
(00_scope.md R2, 20_memory.md R41). Where no agent acts, the cycle is an IDLE (44_packet_handoff.md R110). -/
def step (s : State) : Host.Outcome State Fault Refusal :=
  match s.inp.take with
  | (none, q) => exec .idle { s with inp := q }
  | (some (a, w), q) => issue a w { s with inp := q }

/-- The state whose very next step takes the word `w` of a `nbits`-bit table row: the agent that issues such words has
issued it, ahead of everything pending, and has the turn (log 6). -/
def State.withFetchWord (s : State) (nbits w : Nat) : State :=
  { s with inp := s.inp.push (agentOfWord s.cfg.tw (w % 2 ^ nbits)) (w % 2 ^ nbits) }

end Sys2Proof.Machine
end

