-- ==== Sys2Proof/Machine/Listing.lean ====
section
/-! DEFINITION. Transaction listings: the statements, their expansion into words, their text and the printer
(30_encoding.md R57–R60). Text is a list of characters. What the rules leave open is in log 16. -/

namespace Sys2Proof.Machine

open Sys2Proof

/-- A time operand: a number, or `$`, the assembler's running time (30_encoding.md R57). -/
inductive Operand where
  | num (t : Nat)
  | running
  deriving DecidableEq, Repr

/-- The statements of 30_encoding.md R57–R59; `rising` and `p` are `true` for R. -/
inductive Stmt where
  | idle
  | edge (rising : Bool) (t : Operand)
  | poll
  | reset
  | wave (p : Bool) (t0 : Operand) (bits : List Bool) (h1 h0 : Nat)
  | packet (p : Bool) (t0 : Operand) (n : Nat) (bytes : List Byte)
  | packetC (p : Bool) (t0 : Operand) (n : Nat) (bytes : List Byte)
  deriving DecidableEq, Repr

/-- Why a listing does not assemble. -/
inductive AsmError where
  /-- A time operand of `2 ^ TW` or more (30_encoding.md R57). -/
  | operandRange
  /-- `$` before any WAVE has set the running time (log 16). -/
  | noRunningTime
  /-- A line that is no statement of 30_encoding.md R57–R59. -/
  | badStatement
  deriving DecidableEq, Repr

/-! ### Expansion -/

/-- The edge of a direction at a time. -/
def edgeInstr (rising : Bool) (t : Nat) : Instr := if rising then .edgeR t else .edgeF t

/-- The edges of a bit stream and the time after it: a boundary edge and a mid-bit edge for each bit, and no final
boundary edge (30_encoding.md R58). -/
def waveEdges (tw : Nat) (p : Bool) (h1 h0 : Nat) : Nat → List Bool → List Instr × Nat
  | t, [] => ([], t)
  | t, c :: cs =>
    let h := if c then h1 else h0
    let rest := waveEdges tw p h1 h0 ((t + 2 * h) % 2 ^ tw) cs
    (edgeInstr p t :: edgeInstr (!p) ((t + h) % 2 ^ tw) :: rest.1, rest.2)

/-- The default half-bit durations of a one and of a zero (30_encoding.md R58). -/
def defaultHalfOne : Nat := 58

/-- See `defaultHalfOne`. -/
def defaultHalfZero : Nat := 100

/-- The bits of a byte, most significant first (20_memory.md R35). -/
def byteBits (b : Byte) : List Bool := (List.range 8).map fun i => b.getLsbD (7 - i)

/-- The data bytes of a packet, each followed by its end bit: 0 while more follow, 1 after the last
(30_encoding.md R59). -/
def bytesBits : List Byte → List Bool
  | [] => []
  | [b] => byteBits b ++ [true]
  | b :: c :: rest => byteBits b ++ false :: bytesBits (c :: rest)

/-- The bits of PACKET: `n` ones, the start bit 0, the bytes (30_encoding.md R59). -/
def packetBits (n : Nat) (bytes : List Byte) : List Bool := List.replicate n true ++ false :: bytesBits bytes

/-- The bytes of PACKETC: the checksum byte appended (30_encoding.md R59). -/
def withChecksum (bytes : List Byte) : List Byte := bytes ++ [bytes.foldl (· ^^^ ·) 0]

/-- The value of a time operand, given the running time if there is one (30_encoding.md R57, R58). -/
def operandValue (tw : Nat) (running : Option Nat) : Operand → Except AsmError Nat
  | .num t => if t < 2 ^ tw then .ok t else .error .operandRange
  | .running =>
    match running with
    | some t => .ok t
    | none => .error .noRunningTime

/-- WAVE at an operand: the edges, and the new running time (30_encoding.md R58). -/
def assembleWave (tw : Nat) (running : Option Nat) (p : Bool) (t0 : Operand) (bits : List Bool) (h1 h0 : Nat) :
    Except AsmError (List Instr × Option Nat) :=
  match operandValue tw running t0 with
  | .error e => .error e
  | .ok t => .ok ((waveEdges tw p h1 h0 t bits).1, some (waveEdges tw p h1 h0 t bits).2)

/-- One statement: its transactions and the running time after it. PACKET and PACKETC need at least one byte on the
wire (30_encoding.md R57–R59). -/
def assembleStmt (tw : Nat) (running : Option Nat) : Stmt → Except AsmError (List Instr × Option Nat)
  | .idle => .ok ([.idle], running)
  | .poll => .ok ([.poll], running)
  | .reset => .ok ([.reset], running)
  | .edge rising t =>
    match operandValue tw running t with
    | .error e => .error e
    | .ok v => .ok ([edgeInstr rising v], running)
  | .wave p t0 bits h1 h0 => assembleWave tw running p t0 bits h1 h0
  | .packet p t0 n bytes =>
    if bytes.isEmpty then .error .badStatement
    else assembleWave tw running p t0 (packetBits n bytes) defaultHalfOne defaultHalfZero
  | .packetC p t0 n bytes =>
    assembleWave tw running p t0 (packetBits n (withChecksum bytes)) defaultHalfOne defaultHalfZero

/-- The transactions of a list of statements. -/
def assemble (tw : Nat) (running : Option Nat) : List Stmt → Except AsmError (List Instr)
  | [] => .ok []
  | s :: rest =>
    match assembleStmt tw running s with
    | .error e => .error e
    | .ok (is, r) =>
      match assemble tw r rest with
      | .error e => .error e
      | .ok js => .ok (is ++ js)

/-! ### Text -/

/-- The pieces of a text between the occurrences of a character. -/
def splitChar (c : Char) : List Char → List (List Char)
  | [] => [[]]
  | x :: xs =>
    match splitChar c xs with
    | [] => [[x]]
    | y :: ys => if x = c then [] :: y :: ys else (x :: y) :: ys

/-- White space of a listing line (log 16). -/
def isBlank (c : Char) : Bool := c == ' ' || c == '\t' || c == '\r'

/-- A text without the white space at its two ends. -/
def trimText (s : List Char) : List Char := ((s.dropWhile isBlank).reverse.dropWhile isBlank).reverse

/-- The value of a digit in a base up to 16. -/
def digitValue (base : Nat) (c : Char) : Option Nat :=
  let n := c.toNat
  let v :=
    if 48 ≤ n ∧ n ≤ 57 then n - 48
    else if 65 ≤ n ∧ n ≤ 70 then n - 55
    else if 97 ≤ n ∧ n ≤ 102 then n - 87
    else base
  if v < base then some v else none

/-- The value of digits read from the left, after `acc`. -/
def digitsValue (base : Nat) : Nat → List Char → Option Nat
  | acc, [] => some acc
  | acc, c :: cs =>
    match digitValue base c with
    | some v => digitsValue base (acc * base + v) cs
    | none => none

/-- A decimal number, or a hexadecimal number after `0x` (30_encoding.md R57). DESIGN CHOICE (log 16): leading zeros and
hexadecimal digits of either case are allowed, `0X` and a number without a digit are not. -/
def parseNumber : List Char → Option Nat
  | [] => none
  | ['0', 'x'] => none
  | '0' :: 'x' :: cs => digitsValue 16 0 cs
  | cs => digitsValue 10 0 cs

/-- A time operand (30_encoding.md R57). -/
def parseOperand (s : List Char) : Option Operand :=
  if s = ['$'] then some .running else (parseNumber s).map .num

/-- The direction `R` or `F` of a pseudo-instruction (30_encoding.md R58). -/
def parseDirection (s : List Char) : Option Bool :=
  if s = ['R'] then some true else if s = ['F'] then some false else none

/-- A string of `0` and `1` (30_encoding.md R58). DESIGN CHOICE (log 16): the string may be empty; such a WAVE emits no
edge and sets the running time to `t0`. R58 does not say whether it may. -/
def parseBits : List Char → Option (List Bool)
  | [] => some []
  | c :: cs =>
    if c = '1' then (parseBits cs).map (true :: ·)
    else if c = '0' then (parseBits cs).map (false :: ·)
    else none

/-- Data bytes: numbers below 256. DESIGN CHOICE (log 16): 30_encoding.md R59 gives no written form for them; they are
written as R57 writes a number, decimal or `0x`. -/
def parseBytes : List (List Char) → Option (List Byte)
  | [] => some []
  | s :: rest =>
    match parseNumber s, parseBytes rest with
    | some v, some bs => if v < 256 then some (BitVec.ofNat 8 v :: bs) else none
    | _, _ => none

/-- `p, t0, n, B0, …` of PACKET and PACKETC (30_encoding.md R59). DESIGN CHOICE (log 16): `n` is a decimal or `0x`
number and never `$`, R57 giving these forms for the time operand only, and it may be 0. -/
def parsePacket (make : Bool → Operand → Nat → List Byte → Stmt) : List (List Char) → Option Stmt
  | p :: t0 :: n :: bs =>
    match parseDirection p, parseOperand t0, parseNumber n, parseBytes bs with
    | some p, some t0, some n, some bs => some (make p t0 n bs)
    | _, _, _, _ => none
  | _ => none

/-- `p, t0, bits [, h1, h0]` of WAVE (30_encoding.md R58). DESIGN CHOICE (log 16): `h1` and `h0` are decimal or `0x`
numbers and never `$`; R57 gives these forms for the time operand only. -/
def parseWave : List (List Char) → Option Stmt
  | [p, t0, bits] =>
    match parseDirection p, parseOperand t0, parseBits bits with
    | some p, some t0, some bits => some (.wave p t0 bits defaultHalfOne defaultHalfZero)
    | _, _, _ => none
  | [p, t0, bits, h1, h0] =>
    match parseDirection p, parseOperand t0, parseBits bits, parseNumber h1, parseNumber h0 with
    | some p, some t0, some bits, some h1, some h0 => some (.wave p t0 bits h1 h0)
    | _, _, _, _, _ => none
  | _ => none

/-- The spellings of the mnemonics, upper case (30_encoding.md R57). -/
def textIdle : List Char := ['I', 'D', 'L', 'E']
/-- See `textIdle`. -/
def textEdgeF : List Char := ['E', 'D', 'G', 'E', '.', 'F']
/-- See `textIdle`. -/
def textEdgeR : List Char := ['E', 'D', 'G', 'E', '.', 'R']
/-- See `textIdle`. -/
def textPoll : List Char := ['P', 'O', 'L', 'L']
/-- See `textIdle`. -/
def textReset : List Char := ['R', 'E', 'S', 'E', 'T']
/-- See `textIdle`. -/
def textWave : List Char := ['W', 'A', 'V', 'E']
/-- See `textIdle`. -/
def textPacket : List Char := ['P', 'A', 'C', 'K', 'E', 'T']
/-- See `textIdle`. -/
def textPacketC : List Char := ['P', 'A', 'C', 'K', 'E', 'T', 'C']

/-- A statement from its mnemonic and its operands (30_encoding.md R57–R59). -/
def parseOperation (mnemonic : List Char) (args : List (List Char)) : Option Stmt :=
  if mnemonic = textIdle ∧ args = [] then some .idle
  else if mnemonic = textPoll ∧ args = [] then some .poll
  else if mnemonic = textReset ∧ args = [] then some .reset
  else if mnemonic = textEdgeR ∧ args.length = 1 then (parseOperand (args.headD [])).map (.edge true)
  else if mnemonic = textEdgeF ∧ args.length = 1 then (parseOperand (args.headD [])).map (.edge false)
  else if mnemonic = textWave then parseWave args
  else if mnemonic = textPacket then parsePacket .packet args
  else if mnemonic = textPacketC then parsePacket .packetC args
  else none

/-- The operands after a mnemonic: none, or texts between commas. -/
def splitArgs (s : List Char) : List (List Char) :=
  if trimText s = [] then [] else (splitChar ',' s).map trimText

/-- A statement without label and comment. -/
def parseStmt (s : List Char) : Option Stmt :=
  let t := trimText s
  parseOperation (t.takeWhile fun c => !isBlank c) (splitArgs (t.dropWhile fun c => !isBlank c))

/-- A line `[label:] stmt [; comment]` (30_encoding.md R57); a line without a statement yields `none` (log 16). -/
def parseLine (line : List Char) : Except AsmError (Option Stmt) :=
  let code := line.takeWhile (· != ';')
  let body := if code.contains ':' then (code.dropWhile (· != ':')).drop 1 else code
  if trimText body = [] then .ok none
  else
    match parseStmt body with
    | some s => .ok (some s)
    | none => .error .badStatement

/-- The statements of the lines of a listing. -/
def parseLines : List (List Char) → Except AsmError (List Stmt)
  | [] => .ok []
  | l :: rest =>
    match parseLine l, parseLines rest with
    | .ok (some s), .ok ss => .ok (s :: ss)
    | .ok none, .ok ss => .ok ss
    | .error e, _ => .error e
    | _, .error e => .error e

/-- A listing text to its transaction words (30_encoding.md R57–R59). DESIGN CHOICE (log 16): one error anywhere leaves no
word. -/
def assembleText (tw : Nat) (text : List Char) : Except AsmError (List Nat) :=
  match parseLines (splitChar '\n' text) with
  | .error e => .error e
  | .ok stmts =>
    match assemble tw none stmts with
    | .error e => .error e
    | .ok is => .ok (is.map (encode tw))

/-! ### Printing -/

/-- A digit of a base up to 16, upper case. -/
def digitChar (v : Nat) : Char := Char.ofNat (if v < 10 then 48 + v else 55 + v)

/-- The `k` low hexadecimal digits of a number, most significant first. -/
def hexDigits : Nat → Nat → List Char
  | 0, _ => []
  | k + 1, w => hexDigits k (w / 16) ++ [digitChar (w % 16)]

/-- A number in decimal, with at most `fuel + 1` digits. -/
def decDigits : Nat → Nat → List Char
  | 0, n => [digitChar (n % 10)]
  | fuel + 1, n => if n < 10 then [digitChar n] else decDigits fuel (n / 10) ++ [digitChar (n % 10)]

/-- A `TW`-bit number in decimal: it has at most `TW` digits beside the first. -/
def printTime (tw : Nat) (t : Nat) : List Char := decDigits tw t

/-- A transaction as 30_encoding.md R57 spells it. -/
def printInstr (tw : Nat) : Instr → List Char
  | .idle => textIdle
  | .edgeF t => textEdgeF ++ ' ' :: printTime tw t
  | .edgeR t => textEdgeR ++ ' ' :: printTime tw t
  | .poll => textPoll
  | .reset => textReset

/-- A word in hexadecimal: 9 digits for `TW = 32` (30_encoding.md R60), and as many as `TW + 4` bits take in general. -/
def printHex (tw : Nat) (w : Nat) : List Char := '0' :: 'x' :: hexDigits ((tw + 7) / 4) w

/-- A line of a listing: the word and its mnemonic beside it, or `.word … ; reserved` (30_encoding.md R60). DESIGN CHOICE
(log 16): the mnemonic follows the word after one space. -/
def printWord (tw : Nat) (w : Nat) : List Char :=
  match decode tw w with
  | .ok i => printHex tw w ++ ' ' :: printInstr tw i
  | .error _ =>
    ['.', 'w', 'o', 'r', 'd', ' '] ++ printHex tw w ++ [' ', ';', ' ', 'r', 'e', 's', 'e', 'r', 'v', 'e', 'd']

end Sys2Proof.Machine
end

