-- ==== Sys2Proof/Safety.lean ====
section
/-! DEFINITION. The terms the claims use: the invariants of 10_state.md R29, what an edge carries, and runs. -/

namespace Sys2Proof.Machine

open Sys2Proof

/-! ### Invariants -/

/-- The threshold phase of a receive state (10_state.md R29, invariant 3). -/
def phaseOf : RxState → ThrPhase
  | .waitPreamble => .pre
  | .waitStartBitFull => .pre
  | .waitStartBit => .half
  | .waitData => .full
  | .waitEndBit => .full

/-- The XOR of the first `n` bytes of a message buffer. -/
def xorFirst (n : Nat) (d : Vector Byte Config.maxLen) : Byte := (d.toList.take n).foldl (· ^^^ ·) 0

/-- The XOR of a list of bytes. -/
def xorBytes (bs : List Byte) : Byte := bs.foldl (· ^^^ ·) 0

/-- Whether a data byte is being received or has just been. -/
abbrev inPacket (r : Receiver) : Prop := r.state = .waitData ∨ r.state = .waitEndBit

/-- Invariant 4 of 10_state.md R29. -/
abbrev bitCountLegal (r : Receiver) : Prop :=
  (r.state = .waitData → r.bitCount.toNat ≤ 7 ∧ r.working.size.toNat ≤ Config.maxLen - 1) ∧
  (r.state = .waitEndBit → r.bitCount = 8 ∧ 1 ≤ r.working.size.toNat ∧ r.working.size.toNat ≤ Config.maxLen) ∧
  (¬ inPacket r → r.bitCount = 0)

/-- The seven invariants of 10_state.md R29, in its order. -/
structure LegalState (c : Config) (r : Receiver) : Prop where
  codes : r.state.code.toNat ≤ 4 ∧ r.halfBit.code ∈ [0#3, 1#3, 3#3, 4#3]
  halfBitOnlyInSync : r.halfBit ≠ .h0 → r.state = .waitStartBit
  thresholds : r.bitMin = (thrPair c (phaseOf r.state)).lo ∧ r.bitMax = (thrPair c (phaseOf r.state)).hi
  bitCounts : bitCountLegal r
  runningXor : inPacket r → r.checksum = xorFirst r.working.size.toNat r.working.data
  onesInByte : inPacket r → r.preambleBitCount.toNat ≤ r.bitCount.toNat ∧ r.bitCount.toNat ≤ 8
  syncAlways : c.syncAlways = true → r.state ≠ .waitStartBitFull

/-- The state of an instance satisfies 10_state.md R29. -/
abbrev State.Legal (s : State) : Prop := LegalState s.cfg s.rx

/-- Every register stays inside its width: the time registers are `TW`-bit numbers and no message holds more than
`MAXLEN` bytes (10_state.md R14, R17, R18, R23, R24). -/
abbrev State.WithinWidths (s : State) : Prop :=
  s.rx.bitMin < 2 ^ s.cfg.tw ∧ s.rx.bitMax < 2 ^ s.cfg.tw ∧ s.rx.lastTs < 2 ^ s.cfg.tw ∧ s.rx.bit1 < 2 ^ s.cfg.tw ∧
  s.rx.bit2 < 2 ^ s.cfg.tw ∧ s.rx.working.size.toNat ≤ Config.maxLen ∧ s.box.handoff.size.toNat ≤ Config.maxLen

/-- The mailbox holds only validated messages (43_checksum_validator.md R105): the XOR of the first `hSize` bytes is 0,
and an unread message has 1 to `MAXLEN` bytes. -/
abbrev State.MailboxValid (s : State) : Prop :=
  xorFirst s.box.handoff.size.toNat s.box.handoff.data = 0 ∧ s.box.handoff.size.toNat ≤ Config.maxLen ∧
  (s.box.dataReady = true → 1 ≤ s.box.handoff.size.toNat)

/-- What the preamble counter and the checksum are while no packet is received (42_packet_assembler.md R95,
92_eei_decisions.md D18): at most `PRE_LIMIT` while hunting, exactly one more while synchronising, more than
`PRE_LIMIT` with checksum 0 in the full-bit wait. -/
abbrev State.PreambleCounted (s : State) : Prop :=
  (s.rx.state = .waitPreamble → s.rx.preambleBitCount.toNat ≤ Config.preLimit) ∧
  (s.rx.state = .waitStartBit → s.rx.preambleBitCount.toNat = Config.preLimit + 1) ∧
  (s.rx.state = .waitStartBitFull →
    Config.preLimit < s.rx.preambleBitCount.toNat ∧ s.rx.checksum = 0 ∧ s.cfg.syncAlways = false)

/-- A state some run of the machine reaches: from power-on, with any parameters in range and any words issued in any
interleaving (70_reset_and_hazards.md R135, 20_memory.md R41). -/
def State.Reachable (s : State) : Prop :=
  ∃ (c : Config) (q : Inputs) (n : Nat),
    c.inRange = true ∧ Host.Core.run core n { State.powerOn c with inp := q } = .next s

/-! ### What an edge carries -/

/-- The elapsed time of an edge, written as 40_bit_timing_classifier.md R65 has it: `(T - lastTs) mod 2^TW` of the exact
integers. -/
def State.elapsedAt (s : State) (t : Nat) : Nat := (((t : Int) - (s.rx.lastTs : Int)) % ((2 : Int) ^ s.cfg.tw)).toNat

/-- The edge passes the trigger filter (40_bit_timing_classifier.md R64, 41_edge_synchronizer.md R73). -/
abbrev State.Accepts (s : State) (d : Bool) : Prop := s.rx.state = .waitStartBit ∨ s.rx.edgePolarity = d

/-- The edge of direction `d` at time `t` is a well-formed transaction of an instance whose parameters are in range,
and is classified as the bit `b` (40_bit_timing_classifier.md R64–R69). -/
abbrev State.CarriesBit (s : State) (d : Bool) (t : Nat) (b : Bool) : Prop :=
  s.cfg.inRange = true ∧ t < 2 ^ s.cfg.tw ∧ s.Accepts d ∧ s.rx.bitMin ≤ s.elapsedAt t ∧
  ¬ (s.cfg.zbsCheck = true ∧ 2 * s.rx.bitMax < s.elapsedAt t) ∧ (b = true ↔ s.elapsedAt t < s.rx.bitMax)

/-- The state with the outputs of a transaction that gives these events, no response and no pulse. -/
def State.withEvents (s : State) (ev : BitVec 16) : State := { s with out := { ev := ev, resp := none, notify := false } }

/-- The event was set by the transaction just executed. -/
abbrev State.emitted (s : State) (e : Event) : Prop := Event.isIn e s.out.ev = true

/-! ### Runs -/

/-- The transactions are executed one after the other and each has a meaning. -/
def ExecRun : List Instr → State → State → Prop
  | [], s, t => t = s
  | i :: is, s, t => ∃ s', exec i s = .next s' ∧ ExecRun is s' t

/-- As `ExecRun`, and exactly `n` of the transactions classified a bit. -/
def CountedRun : Nat → List Instr → State → State → Prop
  | n, [], s, t => n = 0 ∧ t = s
  | n, i :: is, s, t =>
    ∃ s' m, exec i s = .next s' ∧ n = m + (Event.isIn .bit s'.out.ev).toNat ∧ CountedRun m is s' t

/-- As `ExecRun`, with no POLL, no RESET and no commit. -/
def UndisturbedRun : List Instr → State → State → Prop
  | [], s, t => t = s
  | i :: is, s, t =>
    i ≠ .poll ∧ i ≠ .reset ∧ ∃ s', exec i s = .next s' ∧ Event.isIn .commit s'.out.ev = false ∧ UndisturbedRun is s' t

/-- The edge of direction `d` at time `t` is a well-formed transaction that the trigger filter drops
(40_bit_timing_classifier.md R64). -/
abbrev State.Filters (s : State) (d : Bool) (t : Nat) : Prop := t < 2 ^ s.cfg.tw ∧ ¬ s.Accepts d

/-- The edge of direction `d` at time `t` is a well-formed transaction and a glitch (40_bit_timing_classifier.md R66). -/
abbrev State.Glitches (s : State) (d : Bool) (t : Nat) : Prop :=
  t < 2 ^ s.cfg.tw ∧ s.Accepts d ∧ s.elapsedAt t < s.rx.bitMin

/-- The bits arrive one after the other, each carried by an accepted edge. Before each of these edges there may be any
number of IDLEs, POLLs, filtered edges and glitches; the two numbers count the POLLs and the glitches. The run ends
with the edge of its last bit. -/
inductive BitsFed : List Bool → Nat → Nat → State → State → Prop
  | done (s : State) : BitsFed [] 0 0 s s
  | bit {b : Bool} {bs : List Bool} {polls glitches : Nat} {d : Bool} {τ : Nat} {s u t : State} :
      s.CarriesBit d τ b → exec (edgeInstr d τ) s = .next u → BitsFed bs polls glitches u t →
      BitsFed (b :: bs) polls glitches s t
  | idle {b : Bool} {bs : List Bool} {polls glitches : Nat} {s u t : State} :
      exec .idle s = .next u → BitsFed (b :: bs) polls glitches u t → BitsFed (b :: bs) polls glitches s t
  | poll {b : Bool} {bs : List Bool} {polls glitches : Nat} {s u t : State} :
      exec .poll s = .next u → BitsFed (b :: bs) polls glitches u t → BitsFed (b :: bs) (polls + 1) glitches s t
  | filtered {b : Bool} {bs : List Bool} {polls glitches : Nat} {d : Bool} {τ : Nat} {s u t : State} :
      s.Filters d τ → exec (edgeInstr d τ) s = .next u → BitsFed (b :: bs) polls glitches u t →
      BitsFed (b :: bs) polls glitches s t
  | glitch {b : Bool} {bs : List Bool} {polls glitches : Nat} {d : Bool} {τ : Nat} {s u t : State} :
      s.Glitches d τ → exec (edgeInstr d τ) s = .next u → BitsFed (b :: bs) polls glitches u t →
      BitsFed (b :: bs) polls (glitches + 1) s t

/-- `k` pairs of one half-bits arrive, the two of each pair differing by at most `MAX_BITDIFF`
(41_edge_synchronizer.md R80); between the half-bits the same may happen as in `BitsFed`. -/
def PairsFed : Nat → State → State → Prop
  | 0, s, t => t = s
  | k + 1, s, t =>
    ∃ polls glitches u polls' glitches' v, BitsFed [true] polls glitches s u ∧ BitsFed [true] polls' glitches' u v ∧
      ((v.rx.bit2 : Int) - (v.rx.bit1 : Int)).natAbs ≤ s.cfg.maxBitDiff ∧ PairsFed k v t

/-- A mailbox after a number of POLLs (44_packet_handoff.md R109). -/
def Mailbox.polled (b : Mailbox) (polls : Nat) : Mailbox := { b with dataReady := b.dataReady && polls == 0 }

/-- The counters after a number of glitches (10_state.md R26). -/
def Diag.glitched (d : Diag) (c : Config) (glitches : Nat) : Diag :=
  { d with glitchCnt := if c.diag then d.glitchCnt + BitVec.ofNat 16 glitches else d.glitchCnt }

/-- The bits arrive on edges that alternate in direction, the first of direction `d`, with nothing between them. -/
def AlternatingFed : Bool → List Bool → State → State → Prop
  | _, [], s, t => t = s
  | d, b :: bs, s, t =>
    ∃ τ s', s.CarriesBit d τ b ∧ exec (edgeInstr d τ) s = .next s' ∧ AlternatingFed (!d) bs s' t

end Sys2Proof.Machine
end

