-- ==== Sys2Proof/Certificates/Slice0/Obligations.lean ====
section
/-! DEFINITION. The statements for the provers. A statement about EDGE names both directions through `edgeInstr`
(`edgeInstr true` is EDGE.R, `edgeInstr false` EDGE.F). A statement that quantifies over every state quantifies over
every choice of the parameters, which State holds (log 1). -/

open Sys2Proof Sys2Proof.Machine

/-- Decode and encode agree on every transaction and every timestamp, for every `TW` (30_encoding.md R47–R50). -/
def Obligations.DecodeOfEncodeIsTheInstruction : Prop :=
  ∀ (tw : Nat) (i : Instr), 1 ≤ tw → i.wf tw = true → decode tw (encode tw i) = .ok i

/-- Each transaction has one word: the other direction of the round trip (30_encoding.md R52). -/
def Obligations.EncodeOfDecodeIsTheWord : Prop :=
  ∀ (tw : Nat) (w : Nat) (i : Instr), decode tw w = .ok i → encode tw i = w ∧ i.wf tw = true

/-- 30_encoding.md R52: the `match`/`mask` pairs of spec/opcode_table.json, for `TW = 32`. -/
def Obligations.TableRowsDecodeByMatchAndMask : Prop :=
  ∀ w : BitVec 36,
    (decode 32 w.toNat = .ok .idle ↔ w &&& 0xFFFFFFFFF#36 = 0x000000000#36) ∧
    (∀ t, decode 32 w.toNat = .ok (.edgeF t) ↔
      w &&& 0xF00000000#36 = 0x400000000#36 ∧ t = (w.extractLsb' 0 32).toNat) ∧
    (∀ t, decode 32 w.toNat = .ok (.edgeR t) ↔
      w &&& 0xF00000000#36 = 0x500000000#36 ∧ t = (w.extractLsb' 0 32).toNat) ∧
    (decode 32 w.toNat = .ok .poll ↔ w &&& 0xFFFFFFFFF#36 = 0x800000000#36) ∧
    (decode 32 w.toNat = .ok .reset ↔ w &&& 0xFFFFFFFFF#36 = 0xC00000000#36) ∧
    ((∃ e, decode 32 w.toNat = .error e) ↔
      w &&& 0xFFFFFFFFF#36 ≠ 0x000000000#36 ∧ w &&& 0xF00000000#36 ≠ 0x400000000#36 ∧
      w &&& 0xF00000000#36 ≠ 0x500000000#36 ∧ w &&& 0xFFFFFFFFF#36 ≠ 0x800000000#36 ∧
      w &&& 0xFFFFFFFFF#36 ≠ 0xC00000000#36)

/-- 30_encoding.md R51, at the step that takes the word. -/
def Obligations.ReservedWordsAreRefused : Prop :=
  ∀ (s : State) (a : Agent) (rest : List Agent) (w : Nat) (ws : List Nat),
    s.inp.turns = a :: rest → s.inp.pendingOf a = w :: ws → w < 2 ^ (s.cfg.tw + 4) →
    ((w.testBit (s.cfg.tw + 1) = true ∨
        (¬ (w.testBit (s.cfg.tw + 3) = false ∧ w.testBit (s.cfg.tw + 2) = true) ∧
          ∃ k, k ≤ s.cfg.tw ∧ w.testBit k = true)) → step s = .refused .reservedEncoding) ∧
    (¬ (w.testBit (s.cfg.tw + 1) = true ∨
        (¬ (w.testBit (s.cfg.tw + 3) = false ∧ w.testBit (s.cfg.tw + 2) = true) ∧
          ∃ k, k ≤ s.cfg.tw ∧ w.testBit k = true)) → ∃ i, decode s.cfg.tw w = .ok i)

/-- A sanity statement: the words of 95_test_vectors.md section 2.1. -/
def Obligations.WrittenOutWordsDecode : Prop :=
  decodeTableWord 40 0x000000000 = some .idle ∧ decodeTableWord 40 0x400000422 = some (.edgeF 1058) ∧
  decodeTableWord 40 0x50000045C = some (.edgeR 1116) ∧ decodeTableWord 40 0x5FFFFFFFF = some (.edgeR 4294967295) ∧
  decodeTableWord 40 0x800000000 = some .poll ∧ decodeTableWord 40 0xC00000000 = some .reset

/-- 00_scope.md R2 and 20_memory.md R41, R42, over the inputs as the model holds them (DESIGN CHOICE, log 5). -/
def Obligations.StepRunsTheDecodedTransaction : Prop :=
  ∀ (s : State) (a : Agent) (rest : List Agent) (w : Nat) (ws : List Nat) (i : Instr),
    s.inp.turns = a :: rest → s.inp.pendingOf a = w :: ws → decode s.cfg.tw w = .ok i → mayIssue a i = true →
    step s = exec i { s with inp := Inputs.setPending a ws { s.inp with turns := rest } }

/-- 60_exceptions.md R124 and 93_implementation_defined.md I13. -/
def Obligations.ForeignTransactionsAreRefused : Prop :=
  ∀ (s : State) (a : Agent) (rest : List Agent) (w : Nat) (ws : List Nat) (i : Instr),
    s.inp.turns = a :: rest → s.inp.pendingOf a = w :: ws → decode s.cfg.tw w = .ok i →
    ((a = .edgeSource ∧ (i = .poll ∨ i = .reset)) ∨ (a = .host ∧ ((∃ t, i = .edgeF t) ∨ ∃ t, i = .edgeR t))) →
    step s = .refused .foreignTransaction

/-- 44_packet_handoff.md R110: IDLE stands for a cycle in which neither agent acts. That a step without a word is such a cycle is the model's choice (log 5). -/
def Obligations.CycleWithoutWordIsIdle : Prop :=
  ∀ s : State, s.cfg.inRange = true →
    (s.inp.turns = [] → step s = .next (s.withEvents 0)) ∧
    (∀ a rest, s.inp.turns = a :: rest → s.inp.pendingOf a = [] →
      step s = .next { s.withEvents 0 with inp := { s.inp with turns := rest } })

/-- The host's way to run one word, in the model's own terms (DESIGN CHOICE, log 6). -/
def Obligations.FetchWordIsRunNext : Prop :=
  ∀ (s : State) (w : Nat) (i : Instr), s.cfg.tw = 32 → decodeTableWord 40 w = some i →
    step (s.withFetchWord 40 w) = exec i s

/-- 60_exceptions.md R115 and 00_scope.md R5, with the refusals of R117 and R124. Refusing a number of more than `TW + 4` bits (log 8) and checking the parameters in every meaning (log 9) are the model's choices. -/
def Obligations.StepStopsOnlyForNamedReasons : Prop :=
  (∀ s : State, s.cfg.inRange = true →
    (∃ t, step s = .next t) ∨
    (∃ a w q e, s.inp.take = (some (a, w), q) ∧ decode s.cfg.tw w = .error e ∧ step s = .refused .reservedEncoding) ∨
    (∃ a w q i, s.inp.take = (some (a, w), q) ∧ decode s.cfg.tw w = .ok i ∧ mayIssue a i = false ∧
      step s = .refused .foreignTransaction)) ∧
  (∀ (s : State) (i : Instr), s.cfg.inRange = false → exec i s = .refused .configOutOfRange)

/-- 20_memory.md R41, R42, R45. -/
def Obligations.StepKeepsParametersAndIssueOrder : Prop :=
  ∀ s t : State, step s = .next t →
    t.cfg = s.cfg ∧
    ((t.inp.edgePending = s.inp.edgePending ∧ t.inp.hostPending = s.inp.hostPending) ∨
     (t.inp.hostPending = s.inp.hostPending ∧ ∃ w, s.inp.edgePending = w :: t.inp.edgePending) ∨
     (t.inp.edgePending = s.inp.edgePending ∧ ∃ w, s.inp.hostPending = w :: t.inp.hostPending))

/-- 40_bit_timing_classifier.md R71. The last clause is the spec's own inference from it ("ONE cannot occur"). -/
def Obligations.ClassifierGivesTheFourClasses : Prop :=
  ∀ (zbs : Bool) (e lo hi : Nat),
    (classify zbs e lo hi = .glitch ↔ e < lo) ∧
    (classify zbs e lo hi = .outOfRange ↔ zbs = true ∧ 2 * hi < e ∧ lo ≤ e) ∧
    (classify zbs e lo hi = .one ↔ e < hi ∧ lo ≤ e ∧ ¬ (zbs = true ∧ 2 * hi < e)) ∧
    (classify zbs e lo hi = .zero ↔ hi ≤ e ∧ lo ≤ e ∧ ¬ (zbs = true ∧ 2 * hi < e)) ∧
    (hi < lo → classify zbs e lo hi ≠ .one)

/-- 40_bit_timing_classifier.md R72, which the spec derives from R66, R68 and R69; the figures of REF are parameters, not facts of the hardware (log 2). -/
def Obligations.ReferenceClassesAtTheBoundaries : Prop :=
  ∀ e : Nat,
    Config.ref.full = Config.ref.pre ∧
    classify false e Config.ref.pre.lo Config.ref.pre.hi
      = (if e ≤ 81 then .glitch else if e ≤ 145 then .one else .zero) ∧
    classify true e Config.ref.pre.lo Config.ref.pre.hi
      = (if e ≤ 81 then .glitch else if e ≤ 145 then .one else if e ≤ 292 then .zero else .outOfRange) ∧
    classify false e Config.ref.half.lo Config.ref.half.hi
      = (if e ≤ 34 then .glitch else if e ≤ 81 then .one else .zero) ∧
    classify true e Config.ref.half.lo Config.ref.half.hi
      = (if e ≤ 34 then .glitch else if e ≤ 81 then .one else if e ≤ 164 then .zero else .outOfRange)

/-- 41_edge_synchronizer.md R73. -/
def Obligations.TriggerModeFollowsTheState : Prop :=
  ∀ s : State,
    (s.rx.state = .waitStartBit → s.trigModeOut = 0b11#2) ∧
    (s.rx.state ≠ .waitStartBit → s.rx.edgePolarity = true → s.trigModeOut = 0b10#2) ∧
    (s.rx.state ≠ .waitStartBit → s.rx.edgePolarity = false → s.trigModeOut = 0b01#2)

/-- 40_bit_timing_classifier.md R64, for EDGE.R and EDGE.F. -/
def Obligations.FilteredEdgeChangesNoRegister : Prop :=
  ∀ (s : State) (d : Bool) (t : Nat),
    s.cfg.inRange = true → t < 2 ^ s.cfg.tw → s.rx.state ≠ .waitStartBit → s.rx.edgePolarity ≠ d →
    exec (edgeInstr d t) s = .next (s.withEvents 0x0001)

/-- 40_bit_timing_classifier.md R66, for EDGE.R and EDGE.F. -/
def Obligations.GlitchChangesOnlyItsTally : Prop :=
  ∀ (s : State) (d : Bool) (t : Nat),
    s.cfg.inRange = true → t < 2 ^ s.cfg.tw → s.Accepts d → s.elapsedAt t < s.rx.bitMin →
    exec (edgeInstr d t) s =
      .next { s.withEvents 0x0002 with
        diag := { s.diag with glitchCnt := if s.cfg.diag then s.diag.glitchCnt + 1 else s.diag.glitchCnt } }

/-- 40_bit_timing_classifier.md R68, for EDGE.R and EDGE.F. -/
def Obligations.OutOfRangeIntervalHuntsAgain : Prop :=
  (∀ (s : State) (d : Bool) (t : Nat),
    s.cfg.inRange = true → t < 2 ^ s.cfg.tw → s.Accepts d → s.cfg.zbsCheck = true →
    s.rx.bitMin ≤ s.elapsedAt t → 2 * s.rx.bitMax < s.elapsedAt t →
    exec (edgeInstr d t) s =
      .next { s.withEvents 0x0004 with
        rx := { s.rx with
          lastTs := t, state := .waitPreamble, bitMin := s.cfg.pre.lo, bitMax := s.cfg.pre.hi
          bitCount := 0, preambleBitCount := 0, halfBit := .h0 } }) ∧
  (∀ e lo hi : Nat, lo ≤ e → hi ≤ e → classify false e lo hi = .zero)

/-- 70_reset_and_hazards.md R138. The reset polarity RISING and lastTs 0 are R134's. -/
def Obligations.FirstEdgeAfterPowerOn : Prop :=
  ∀ (c : Config) (t : Nat), c.inRange = true → t < 2 ^ c.tw →
    exec (.edgeF t) (State.powerOn c) = .next ((State.powerOn c).withEvents 0x0001) ∧
    ∃ u, exec (.edgeR t) (State.powerOn c) = .next u ∧ u.rx.state = .waitPreamble ∧
      (t < c.pre.lo → u.rx.lastTs = 0 ∧ u.out.ev = 0x0002) ∧ (c.pre.lo ≤ t → u.rx.lastTs = t)

/-- 42_packet_assembler.md R92 and the first part of R95. -/
def Obligations.PreambleBitsAreCounted : Prop :=
  ∀ (s : State) (d : Bool) (t : Nat) (b : Bool),
    s.rx.state = .waitPreamble → s.CarriesBit d t b →
    (b = false → exec (edgeInstr d t) s =
      .next { s.withEvents 0x0008 with rx := { s.rx with lastTs := t, preambleBitCount := 0 } }) ∧
    (b = true → s.rx.preambleBitCount.toNat < 10 → exec (edgeInstr d t) s =
      .next { s.withEvents 0x0018 with
        rx := { s.rx with lastTs := t, preambleBitCount := s.rx.preambleBitCount + 1 } })

/-- 42_packet_assembler.md R95 with 41_edge_synchronizer.md R75, R76. -/
def Obligations.PreambleEntersAStartBitState : Prop :=
  ∀ (s : State) (d : Bool) (t : Nat),
    s.rx.state = .waitPreamble → s.CarriesBit d t true → 10 ≤ s.rx.preambleBitCount.toNat →
    (s.cfg.syncAlways = true ∨ s.rx.checksum ≠ 0 → exec (edgeInstr d t) s =
      .next { s.withEvents 0x2018 with
        rx := { s.rx with
          lastTs := t, preambleBitCount := BitVec.ofNat 8 (min (s.rx.preambleBitCount.toNat + 1) 255)
          state := .waitStartBit, halfBit := .h0, bitMin := s.cfg.half.lo, bitMax := s.cfg.half.hi } }) ∧
    (s.cfg.syncAlways = false → s.rx.checksum = 0 → exec (edgeInstr d t) s =
      .next { s.withEvents 0x2018 with
        rx := { s.rx with
          lastTs := t, preambleBitCount := BitVec.ofNat 8 (min (s.rx.preambleBitCount.toNat + 1) 255)
          state := .waitStartBitFull, bitMin := s.cfg.pre.lo, bitMax := s.cfg.pre.hi } })

/-- 41_edge_synchronizer.md R78, R79. -/
def Obligations.FirstHalfBitOfAPair : Prop :=
  ∀ (s : State) (d : Bool) (t : Nat) (b : Bool),
    s.rx.state = .waitStartBit → s.rx.halfBit = .h0 → s.CarriesBit d t b →
    (b = true → exec (edgeInstr d t) s =
      .next { s.withEvents 0x0018 with rx := { s.rx with lastTs := t, halfBit := .h1, bit1 := s.elapsedAt t } }) ∧
    (b = false → exec (edgeInstr d t) s =
      .next { s.withEvents 0x0008 with rx := { s.rx with lastTs := t, halfBit := .h4 } })

/-- 41_edge_synchronizer.md R80 (with R87 and R95 on the failing path). The clause for a zero is R81, which the spec marks as its own reconstruction (92_eei_decisions.md D16), and the count 1 on the failing path is derived in R87. -/
def Obligations.SecondHalfBitAfterAOne : Prop :=
  ∀ (s : State) (d : Bool) (t : Nat) (b : Bool),
    s.rx.state = .waitStartBit → s.rx.halfBit = .h1 → s.CarriesBit d t b →
    (b = true → ((s.elapsedAt t : Int) - (s.rx.bit1 : Int)).natAbs ≤ s.cfg.maxBitDiff → exec (edgeInstr d t) s =
      .next { s.withEvents 0x0018 with rx := { s.rx with lastTs := t, bit2 := s.elapsedAt t, halfBit := .h0 } }) ∧
    (b = true → s.cfg.maxBitDiff < ((s.elapsedAt t : Int) - (s.rx.bit1 : Int)).natAbs → exec (edgeInstr d t) s =
      .next { s.withEvents 0x0038 with
        rx := { s.rx with
          lastTs := t, bit2 := s.elapsedAt t, state := .waitPreamble, halfBit := .h0, bitCount := 0
          bitMin := s.cfg.pre.lo, bitMax := s.cfg.pre.hi, preambleBitCount := 1 } }) ∧
    (b = false → exec (edgeInstr d t) s =
      .next { s.withEvents 0x0008 with rx := { s.rx with lastTs := t, halfBit := .h3 } })

/-- 41_edge_synchronizer.md R82, R84, with R87; the spec marks both rows as its own reconstruction (92_eei_decisions.md D16). -/
def Obligations.OneAfterAZeroHalfBitFails : Prop :=
  ∀ (s : State) (d : Bool) (t : Nat),
    s.rx.state = .waitStartBit → (s.rx.halfBit = .h3 ∨ s.rx.halfBit = .h4) → s.CarriesBit d t true →
    exec (edgeInstr d t) s =
      .next { s.withEvents 0x0038 with
        rx := { s.rx with
          lastTs := t, state := .waitPreamble, halfBit := .h0, bitCount := 0
          bitMin := s.cfg.pre.lo, bitMax := s.cfg.pre.hi, preambleBitCount := 1 } }

/-- 41_edge_synchronizer.md R83, R85, R86. -/
def Obligations.StartBitOpensAPacket : Prop :=
  ∀ (s : State) (d : Bool) (t : Nat),
    s.rx.state = .waitStartBit → s.CarriesBit d t false → ∀ flip : Bool,
    (flip = true ∧ s.rx.halfBit = .h3) ∨ (flip = false ∧ s.rx.halfBit = .h4) →
    exec (edgeInstr d t) s =
      .next { s.withEvents (if flip then 0x00C8 else 0x0088) with
        rx := { s.rx with
          lastTs := t, state := .waitData, halfBit := .h0, bitCount := 0, tempByte := 0, checksum := 0
          edgePolarity := if flip then !s.rx.edgePolarity else s.rx.edgePolarity
          bitMin := s.cfg.full.lo, bitMax := s.cfg.full.hi, preambleBitCount := 0
          working := { s.rx.working with size := 0, preambleBits := s.rx.preambleBitCount } } }

/-- 41_edge_synchronizer.md R88 with R86, and 42_packet_assembler.md R95. -/
def Obligations.FullBitWaitForTheStartBit : Prop :=
  ∀ (s : State) (d : Bool) (t : Nat) (b : Bool),
    s.rx.state = .waitStartBitFull → s.CarriesBit d t b →
    (b = false → exec (edgeInstr d t) s =
      .next { s.withEvents 0x0088 with
        rx := { s.rx with
          lastTs := t, state := .waitData, halfBit := .h0, bitCount := 0, tempByte := 0, checksum := 0
          bitMin := s.cfg.full.lo, bitMax := s.cfg.full.hi, preambleBitCount := 0
          working := { s.rx.working with size := 0, preambleBits := s.rx.preambleBitCount } } }) ∧
    (b = true → 10 ≤ s.rx.preambleBitCount.toNat → s.cfg.syncAlways = false → s.rx.checksum = 0 →
      exec (edgeInstr d t) s =
      .next { s.withEvents 0x2018 with
        rx := { s.rx with
          lastTs := t, preambleBitCount := BitVec.ofNat 8 (min (s.rx.preambleBitCount.toNat + 1) 255)
          bitMin := s.cfg.pre.lo, bitMax := s.cfg.pre.hi } })

/-- 41_edge_synchronizer.md R89, over every alternating sequence of edges. -/
def Obligations.PolarityMatchesTheClosingEdge : Prop :=
  ∀ (s t : State) (bits : List Bool),
    s.rx.state = .waitStartBit → s.rx.halfBit = .h0 → AlternatingFed (!s.rx.edgePolarity) bits s t → bits ≠ [] →
    t.emitted .start → t.rx.edgePolarity = (s.rx.edgePolarity ^^ (bits.length % 2 == 1))

/-- 42_packet_assembler.md R93. The premise on the ones is 42_packet_assembler.md R97, stated on its own. -/
def Obligations.DataBitIsShiftedIn : Prop :=
  ∀ (s : State) (d : Bool) (t : Nat) (b : Bool),
    s.rx.state = .waitData → s.CarriesBit d t b → s.rx.preambleBitCount.toNat ≤ 9 →
    let byte : Byte := (s.rx.tempByte <<< 1) ||| (if b then 1 else 0)
    let ones : Byte := if b then s.rx.preambleBitCount + 1 else 0
    let shifted : Receiver :=
      { s.rx with lastTs := t, bitCount := s.rx.bitCount + 1, tempByte := byte, preambleBitCount := ones }
    (s.rx.bitCount + 1 ≠ 8 → exec (edgeInstr d t) s =
      .next { s.withEvents (if b then 0x0018 else 0x0008) with rx := shifted }) ∧
    (s.rx.bitCount + 1 = 8 → ∀ h : s.rx.working.size.toNat < Config.maxLen, exec (edgeInstr d t) s =
      .next { s.withEvents (if b then 0x0118 else 0x0108) with
        rx := { shifted with
          state := .waitEndBit, checksum := s.rx.checksum ^^^ byte
          working := { s.rx.working with
            data := s.rx.working.data.set s.rx.working.size.toNat byte h, size := s.rx.working.size + 1 } } }) ∧
    (s.rx.bitCount + 1 = 8 → s.rx.working.size.toNat = Config.maxLen → exec (edgeInstr d t) s =
      .next { s.withEvents (if b then 0x0218 else 0x0208) with
        rx := { shifted with
          state := .waitPreamble, bitMin := s.cfg.pre.lo, bitMax := s.cfg.pre.hi, bitCount := 0 }
        diag := { s.diag with
          overflowCnt := if s.cfg.diag then s.diag.overflowCnt + 1 else s.diag.overflowCnt } })

/-- 42_packet_assembler.md R94 with 44_packet_handoff.md R106, R107. The premise on the ones is R97, stated on its own. -/
def Obligations.EndBitEndsOrContinuesThePacket : Prop :=
  ∀ (s : State) (d : Bool) (t : Nat) (b : Bool),
    s.rx.state = .waitEndBit → s.CarriesBit d t b → s.rx.preambleBitCount.toNat ≤ 9 →
    let hunting : Receiver :=
      { s.rx with
        lastTs := t, state := .waitPreamble, bitMin := s.cfg.pre.lo, bitMax := s.cfg.pre.hi, bitCount := 0
        preambleBitCount := if b then s.rx.preambleBitCount + 1 else 0 }
    (b = true → s.rx.checksum = 0 → exec (edgeInstr d t) s =
      .next { s with
        rx := hunting
        box := { handoff := s.rx.working, dataReady := true }
        out := { ev := if s.box.dataReady then 0x1818 else 0x0818, resp := none, notify := true } }) ∧
    (b = true → s.rx.checksum ≠ 0 → exec (edgeInstr d t) s =
      .next { s.withEvents 0x0418 with
        rx := hunting
        diag := { s.diag with csumErrCnt := if s.cfg.diag then s.diag.csumErrCnt + 1 else s.diag.csumErrCnt } }) ∧
    (b = false → s.rx.working.size.toNat = Config.maxLen → exec (edgeInstr d t) s =
      .next { s.withEvents 0x0208 with
        rx := hunting
        diag := { s.diag with
          overflowCnt := if s.cfg.diag then s.diag.overflowCnt + 1 else s.diag.overflowCnt } }) ∧
    (b = false → s.rx.working.size.toNat ≠ Config.maxLen → exec (edgeInstr d t) s =
      .next { s.withEvents 0x0008 with
        rx := { s.rx with lastTs := t, state := .waitData, bitCount := 0, tempByte := 0, preambleBitCount := 0 } })

/-- 20_memory.md R35 with 42_packet_assembler.md R93, over eight bits and what comes between them. -/
def Obligations.EightBitsMakeAByteMsbFirst : Prop :=
  ∀ (s t : State) (b : Byte) (h : s.rx.working.size.toNat < Config.maxLen) (polls glitches : Nat),
    s.rx.state = .waitData → s.rx.bitCount = 0 → s.rx.preambleBitCount = 0 →
    BitsFed [b.getLsbD 7, b.getLsbD 6, b.getLsbD 5, b.getLsbD 4, b.getLsbD 3, b.getLsbD 2, b.getLsbD 1, b.getLsbD 0]
      polls glitches s t →
    t.rx.state = .waitEndBit ∧ t.rx.bitCount = 8 ∧
    t.rx.working = { s.rx.working with
      data := s.rx.working.data.set s.rx.working.size.toNat b h, size := s.rx.working.size + 1 } ∧
    t.rx.checksum = s.rx.checksum ^^^ b ∧ t.emitted .byte ∧ t.box = s.box.polled polls ∧
    t.diag = s.diag.glitched s.cfg glitches

/-- The wire format of 20_memory.md R35 against 43_checksum_validator.md R102, R105 and 42_packet_assembler.md R94: W3 and W4 of 95_test_vectors.md, from the start bit on. -/
def Obligations.PacketIsDeliveredExactlyWhenItsXorIsZero : Prop :=
  ∀ (s t : State) (bytes : List Byte) (polls glitches : Nat),
    1 ≤ bytes.length → bytes.length ≤ Config.maxLen →
    s.rx.state = .waitData → s.rx.bitCount = 0 → s.rx.preambleBitCount = 0 → s.rx.working.size = 0 →
    s.rx.checksum = 0 → BitsFed (bytesBits bytes) polls glitches s t →
    t.rx.state = .waitPreamble ∧
    (xorBytes bytes = 0 →
      t.emitted .commit ∧ t.box.dataReady = true ∧ t.box.handoff.size.toNat = bytes.length ∧
      t.box.handoff.preambleBits = s.rx.working.preambleBits ∧
      t.box.handoff.data.toList.take bytes.length = bytes) ∧
    (xorBytes bytes ≠ 0 → t.emitted .csumErr ∧ t.box = s.box.polled polls)

/-- W3 of 95_test_vectors.md: the bits of 30_encoding.md R59 against the whole receiver, through WAIT_START_BIT_FULL (41_edge_synchronizer.md R88) and through WAIT_START_BIT (R78–R81, R83, R85, R86; programs P1 and P2). The counts are 42_packet_assembler.md R95's (90_conflicts.md C3). -/
def Obligations.PacketStreamRoundTrip : Prop :=
  ∀ (s t : State) (bytes : List Byte),
    1 ≤ bytes.length → bytes.length ≤ Config.maxLen → xorBytes bytes = 0 →
    s.rx.state = .waitPreamble → s.rx.preambleBitCount = 0 →
    (∀ n polls glitches : Nat,
      s.cfg.syncAlways = false → s.rx.checksum = 0 → 11 ≤ n → BitsFed (packetBits n bytes) polls glitches s t →
      t.rx.state = .waitPreamble ∧ t.emitted .commit ∧ t.box.dataReady = true ∧
      t.box.handoff.size.toNat = bytes.length ∧ t.box.handoff.data.toList.take bytes.length = bytes ∧
      t.box.handoff.preambleBits.toNat = min n 255 ∧ t.rx.edgePolarity = s.rx.edgePolarity) ∧
    (∀ (u v : State) (pairs polls glitches polls' glitches' : Nat) (outOfPhase : Bool),
      s.cfg.syncAlways = true ∨ s.rx.checksum ≠ 0 → BitsFed (List.replicate 11 true) polls glitches s u →
      PairsFed pairs u v →
      BitsFed ((if outOfPhase then [true, false, false] else [false, false]) ++ bytesBits bytes) polls' glitches' v t →
      t.rx.state = .waitPreamble ∧ t.emitted .commit ∧ t.box.dataReady = true ∧
      t.box.handoff.size.toNat = bytes.length ∧ t.box.handoff.data.toList.take bytes.length = bytes ∧
      t.box.handoff.preambleBits = 11 ∧ t.rx.edgePolarity = (s.rx.edgePolarity ^^ outOfPhase))

/-- 42_packet_assembler.md R98 and W5 of 95_test_vectors.md. -/
def Obligations.OversizedPacketIsDropped : Prop :=
  ∀ (s t : State) (bytes : List Byte) (polls glitches : Nat),
    bytes.length = Config.maxLen → s.rx.state = .waitData → s.rx.bitCount = 0 → s.rx.preambleBitCount = 0 →
    s.rx.working.size = 0 → BitsFed (bytes.flatMap fun b => byteBits b ++ [false]) polls glitches s t →
    t.rx.state = .waitPreamble ∧ t.rx.bitCount = 0 ∧ t.emitted .overflow ∧ t.box = s.box.polled polls ∧
    t.diag = { s.diag.glitched s.cfg glitches with
      overflowCnt := if s.cfg.diag then s.diag.overflowCnt + 1 else s.diag.overflowCnt }

/-- 44_packet_handoff.md R109. -/
def Obligations.PollReadsAndClearsTheMailbox : Prop :=
  encode 32 .poll = 0x800000000 ∧ decode 32 0x800000000 = .ok .poll ∧
  ∀ s : State, s.cfg.inRange = true →
    (s.box.dataReady = true → exec .poll s =
      .next { s with
        box := { s.box with dataReady := false }
        out := { ev := 0, notify := false
                 resp := some (1#1 ++ 0b0000#4 ++ s.box.handoff.size ++ s.box.handoff.preambleBits ++
                   s.box.handoff.data[5] ++ s.box.handoff.data[4] ++ s.box.handoff.data[3] ++
                   s.box.handoff.data[2] ++ s.box.handoff.data[1] ++ s.box.handoff.data[0]) } }) ∧
    (s.box.dataReady = false → exec .poll s =
      .next { s with out := { ev := 0, resp := some 0, notify := false } })

/-- 30_encoding.md R53. -/
def Obligations.ResponseLanesHoldTheMessage : Prop :=
  ∀ s : State, s.cfg.inRange = true →
    ∃ t r, exec .poll s = .next t ∧ t.out.resp = some r ∧
      (s.box.dataReady = true →
        r.extractLsb' 63 1 = 1#1 ∧ r.extractLsb' 59 4 = 0#4 ∧ r.extractLsb' 56 3 = s.box.handoff.size ∧
        r.extractLsb' 48 8 = s.box.handoff.preambleBits ∧
        ∀ (i : Nat) (h : i < Config.maxLen), r.extractLsb' (8 * i) 8 = s.box.handoff.data[i]) ∧
      (s.box.dataReady = false → r = 0)

/-- 20_memory.md R39 and corner case (b) of 44_packet_handoff.md R109. -/
def Obligations.SecondPollReturnsNothing : Prop :=
  ∀ s t : State, exec .poll s = .next t →
    exec .poll t = .next { t with out := { ev := 0, resp := some 0, notify := false } }

/-- 44_packet_handoff.md R110. -/
def Obligations.IdleChangesNoRegister : Prop :=
  encode 32 .idle = 0x000000000 ∧ decode 32 0x000000000 = .ok .idle ∧
  ∀ s : State, s.cfg.inRange = true → exec .idle s = .next (s.withEvents 0)

/-- 70_reset_and_hazards.md R133, R136. -/
def Obligations.ResetWritesEveryRegister : Prop :=
  encode 32 .reset = 0xC00000000 ∧ decode 32 0xC00000000 = .ok .reset ∧
  ∀ s : State, s.cfg.inRange = true →
    let empty : Message := { size := 0, preambleBits := 0, data := #v[0, 0, 0, 0, 0, 0] }
    ∃ t, exec .reset s = .next t ∧ exec .reset t = .next t ∧ t.trigModeOut = 0b10#2 ∧ t.dataReadyOut = false ∧
      t = { cfg := s.cfg
            rx := { state := .waitPreamble, halfBit := .h0, bitMin := s.cfg.pre.lo, bitMax := s.cfg.pre.hi
                    edgePolarity := true, lastTs := 0, bit1 := 0, bit2 := 0, preambleBitCount := 0, bitCount := 0
                    tempByte := 0, checksum := 0, working := empty }
            box := { handoff := empty, dataReady := false }
            diag := if s.cfg.diag then { glitchCnt := 0, overflowCnt := 0, csumErrCnt := 0 } else s.diag
            out := { ev := 0, resp := none, notify := false }
            inp := s.inp }

/-- 60_exceptions.md R121 and 20_memory.md R41, R43. -/
def Obligations.PollAndCommitInEitherOrder : Prop :=
  ∀ (s : State) (d : Bool) (t : Nat),
    s.rx.state = .waitEndBit → s.rx.checksum = 0 → s.CarriesBit d t true →
    ∃ s1 s2 u1 u2,
      exec .poll s = .next s1 ∧ exec (edgeInstr d t) s1 = .next s2 ∧
      exec (edgeInstr d t) s = .next u1 ∧ exec .poll u1 = .next u2 ∧
      s1.out.resp = some (if s.box.dataReady then respWord s.box.handoff else 0) ∧ s2.box.dataReady = true ∧
      u2.out.resp = some (respWord s.rx.working) ∧ u2.box.dataReady = false ∧
      s2.box.handoff = s.rx.working ∧ u2.box.handoff = s.rx.working ∧ s2.rx = u2.rx

/-- 20_memory.md R43 and 44_packet_handoff.md R111, over any such run. -/
def Obligations.PollDeliversTheLastCommit : Prop :=
  ∀ (s u t : State) (i : Instr) (is : List Instr),
    exec i s = .next u → u.emitted .commit → UndisturbedRun is u t →
    ∃ v, exec .poll t = .next v ∧ v.out.resp = some (respWord s.rx.working) ∧ v.box.dataReady = false

/-- 10_state.md R27. -/
def Obligations.OwnershipOfTheState : Prop :=
  ∀ s t : State,
    (∀ (d : Bool) (τ : Nat), exec (edgeInstr d τ) s = .next t →
      t.cfg = s.cfg ∧ t.inp = s.inp ∧ t.out.resp = none ∧ (s.box.dataReady = true → t.box.dataReady = true) ∧
      (Event.isIn .commit t.out.ev = false → t.box = s.box) ∧ (s.cfg.diag = false → t.diag = s.diag)) ∧
    (exec .poll s = .next t →
      t.rx = s.rx ∧ t.box.handoff = s.box.handoff ∧ t.box.dataReady = false ∧ t.diag = s.diag ∧ t.cfg = s.cfg ∧
      t.inp = s.inp) ∧
    (exec .reset s = .next t →
      t.cfg = s.cfg ∧ t.inp = s.inp ∧ t.box.dataReady = false ∧ (s.cfg.diag = false → t.diag = s.diag)) ∧
    (exec .idle s = .next t →
      t.rx = s.rx ∧ t.box = s.box ∧ t.diag = s.diag ∧ t.cfg = s.cfg ∧ t.inp = s.inp)

/-- 10_state.md R26. -/
def Obligations.CountersCountTheirEvents : Prop :=
  (∀ (s t : State) (d : Bool) (τ : Nat), s.cfg.diag = true → exec (edgeInstr d τ) s = .next t →
    t.diag.glitchCnt = s.diag.glitchCnt + (if Event.isIn .glitch t.out.ev then 1 else 0) ∧
    t.diag.overflowCnt = s.diag.overflowCnt + (if Event.isIn .overflow t.out.ev then 1 else 0) ∧
    t.diag.csumErrCnt = s.diag.csumErrCnt + (if Event.isIn .csumErr t.out.ev then 1 else 0)) ∧
  (∀ c : Config, (State.powerOn c).diag = { glitchCnt := 0, overflowCnt := 0, csumErrCnt := 0 }) ∧
  (∀ s : State,
    (s.cfg.diag = true → s.glitchCntOut = some s.diag.glitchCnt ∧ s.overflowCntOut = some s.diag.overflowCnt ∧
      s.csumErrCntOut = some s.diag.csumErrCnt) ∧
    (s.cfg.diag = false → s.glitchCntOut = none ∧ s.overflowCntOut = none ∧ s.csumErrCntOut = none))

/-- 44_packet_handoff.md R113, for one transaction and over every run; the spec derives it from R106, R109 and R133. -/
def Obligations.DataReadyHasThreeWriters : Prop :=
  (∀ s t : State,
    (∀ (d : Bool) (τ : Nat), exec (edgeInstr d τ) s = .next t →
      t.box.dataReady = (s.box.dataReady || Event.isIn .commit t.out.ev)) ∧
    (exec .poll s = .next t → t.box.dataReady = false) ∧
    (exec .reset s = .next t → t.box.dataReady = false) ∧
    (exec .idle s = .next t → t.box.dataReady = s.box.dataReady) ∧ s.dataReadyOut = s.box.dataReady) ∧
  (∀ (s t : State) (is : List Instr), s.box.dataReady = false → ExecRun is s t →
    (t.box.dataReady = true ↔
      ∃ before i after s1 s2, is = before ++ i :: after ∧ ExecRun before s s1 ∧ exec i s1 = .next s2 ∧
        s2.emitted .commit ∧ ExecRun after s2 t ∧ ∀ j ∈ after, j ≠ .poll ∧ j ≠ .reset))

/-- 44_packet_handoff.md R108, with R106, R107 and R111. -/
def Obligations.HandoffIsWrittenWholeByCommit : Prop :=
  ∀ (i : Instr) (s t : State), exec i s = .next t →
    (Event.isIn .commit t.out.ev = false ∧ t.out.notify = false ∧ t.box.handoff = s.box.handoff) ∨
    ((∃ d τ, i = edgeInstr d τ) ∧ t.emitted .commit ∧ t.out.notify = true ∧ t.box.dataReady = true ∧
      t.box.handoff = s.rx.working ∧ (t.emitted .overwrite ↔ s.box.dataReady = true)) ∨
    (i = .reset ∧ Event.isIn .commit t.out.ev = false ∧ t.out.notify = false ∧
      t.box.handoff = { size := 0, preambleBits := 0, data := #v[0, 0, 0, 0, 0, 0] })

/-- 43_checksum_validator.md R104 with R100, R101. -/
def Obligations.ChecksumIsWrittenOnlyAtStartAndByte : Prop :=
  ∀ (s t : State) (d : Bool) (τ : Nat), exec (edgeInstr d τ) s = .next t →
    (t.emitted .start → t.rx.checksum = 0) ∧
    (t.emitted .byte → t.rx.checksum = s.rx.checksum ^^^ t.rx.tempByte) ∧
    (Event.isIn .start t.out.ev = false → Event.isIn .byte t.out.ev = false → t.rx.checksum = s.rx.checksum) ∧
    (t.emitted .commit → t.rx.checksum = 0) ∧ (t.emitted .csumErr → t.rx.checksum ≠ 0)

/-- 30_encoding.md R54: "No rule reads it back". That State holds these outputs is the model's choice (log 4). -/
def Obligations.OutputsAreNotReadBack : Prop :=
  ∀ (i : Instr) (s : State) (o : Outputs), exec i { s with out := o } = exec i s

/-- 10_state.md R27: EDGE neither reads dataReady into a receiver register nor the handoff message. OVERWRITE is 44_packet_handoff.md R107. -/
def Obligations.MailboxDoesNotReachTheReceiver : Prop :=
  ∀ (s t : State) (d : Bool) (τ : Nat) (b : Mailbox) (g : Diag) (o : Outputs) (q : Inputs),
    exec (edgeInstr d τ) s = .next t →
    ∃ u, exec (edgeInstr d τ) { s with box := b, diag := g, out := o, inp := q } = .next u ∧ u.rx = t.rx ∧
      ∀ e : Event, e ≠ .overwrite → Event.isIn e u.out.ev = Event.isIn e t.out.ev

/-- 40_bit_timing_classifier.md R65 and 30_encoding.md R50. -/
def Obligations.OnlyTimeDifferencesMatter : Prop :=
  ∀ (s u : State) (d : Bool) (t k : Nat),
    t < 2 ^ s.cfg.tw → exec (edgeInstr d t) s = .next u →
    exec (edgeInstr d ((t + k) % 2 ^ s.cfg.tw))
        { s with rx := { s.rx with lastTs := (s.rx.lastTs + k) % 2 ^ s.cfg.tw } } =
      .next { u with rx := { u.rx with lastTs := (u.rx.lastTs + k) % 2 ^ s.cfg.tw } }

/-- 60_exceptions.md R120 with 30_encoding.md R54. -/
def Obligations.EventVectorIsOneOfFifteen : Prop :=
  ∀ (s t : State) (d : Bool) (τ : Nat), s.Legal → exec (edgeInstr d τ) s = .next t →
    t.out.ev ∈ [0x0001#16, 0x0002#16, 0x0004#16, 0x0008#16, 0x0018#16, 0x0038#16, 0x0088#16, 0x00C8#16, 0x0108#16,
      0x0118#16, 0x0208#16, 0x0418#16, 0x0818#16, 0x1818#16, 0x2018#16]

/-- 42_packet_assembler.md R97 (90_conflicts.md C8). -/
def Obligations.NoPreambleInsideAPacket : Prop :=
  ∀ (s t : State) (d : Bool) (τ : Nat), s.Legal → inPacket s.rx → exec (edgeInstr d τ) s = .next t →
    s.rx.preambleBitCount.toNat ≤ 8 ∧ Event.isIn .preamble t.out.ev = false ∧ t.rx.preambleBitCount.toNat ≤ 9

/-- 42_packet_assembler.md R98. -/
def Obligations.OverflowOnlyAtAnEndBit : Prop :=
  ∀ (s t : State) (d : Bool) (τ : Nat), s.Legal → exec (edgeInstr d τ) s = .next t →
    (t.emitted .overflow → s.rx.state = .waitEndBit ∧ s.rx.working.size.toNat = Config.maxLen) ∧
    (t.emitted .commit → 1 ≤ t.box.handoff.size.toNat ∧ t.box.handoff.size.toNat ≤ Config.maxLen)

/-- 70_reset_and_hazards.md R134, R135. The reference configuration as the one of State.reset is the model's choice (log 1). -/
def Obligations.PowerOnStateIsLegal : Prop :=
  (∀ c : Config, c.inRange = true →
    (State.powerOn c).Legal ∧ (State.powerOn c).WithinWidths ∧ (State.powerOn c).MailboxValid ∧
    (State.powerOn c).PreambleCounted) ∧
  State.reset = State.powerOn Config.ref ∧ Config.ref.inRange = true

/-- 10_state.md R29, as an inductive invariant of step. -/
def Obligations.StepKeepsTheLegalState : Prop :=
  ∀ s t : State, s.Legal → step s = .next t → t.Legal

/-- 10_state.md R29, between transactions of every run; the spec derives it from the transition rules. -/
def Obligations.EveryReachableStateIsLegal : Prop :=
  ∀ s : State, s.Reachable → s.Legal

/-- 10_state.md R14, R17, R18, R23, R24. That the time registers are held as naturals is the model's choice (log 3). -/
def Obligations.StepKeepsRegisterWidths : Prop :=
  ∀ s t : State, s.WithinWidths → step s = .next t → t.WithinWidths

/-- 43_checksum_validator.md R105: every message that reaches the handoff buffer satisfies the XOR and size conditions. -/
def Obligations.StepKeepsTheMailboxValid : Prop :=
  ∀ s t : State, s.Legal → s.MailboxValid → step s = .next t → t.MailboxValid

/-- 42_packet_assembler.md R95; 41_edge_synchronizer.md R86: through half-bit synchronisation wPreambleBits is 11. -/
def Obligations.StepKeepsThePreambleCount : Prop :=
  ∀ s t : State, s.Legal → s.PreambleCounted → step s = .next t → t.PreambleCounted

/-- 70_reset_and_hazards.md R141: a host that POLLs once in every such interval loses no message. -/
def Obligations.CommitsAreTwelveBitsApart : Prop :=
  ∀ (s u t : State) (d : Bool) (τ : Nat) (n : Nat) (i : Instr) (is : List Instr),
    s.Legal → exec (edgeInstr d τ) s = .next u → u.emitted .commit → CountedRun n (i :: is) u t → t.emitted .commit →
    12 ≤ n

/-- 30_encoding.md R58. -/
def Obligations.WaveExpandsEveryBit : Prop :=
  ∀ (tw : Nat) (p : Bool) (h1 h0 t0 : Nat) (bits : List Bool), t0 < 2 ^ tw →
    let at_ := fun k : Nat => (t0 + ((bits.take k).map fun c => 2 * (if c then h1 else h0)).sum) % 2 ^ tw
    (waveEdges tw p h1 h0 t0 bits).1.length = 2 * bits.length ∧
    (waveEdges tw p h1 h0 t0 bits).2 = at_ bits.length ∧
    ∀ (k : Nat) (c : Bool), bits[k]? = some c →
      (waveEdges tw p h1 h0 t0 bits).1[2 * k]? = some (edgeInstr p (at_ k)) ∧
      (waveEdges tw p h1 h0 t0 bits).1[2 * k + 1]? =
        some (edgeInstr (!p) ((at_ k + (if c then h1 else h0)) % 2 ^ tw))

/-- 30_encoding.md R57, R60: "A printer spells a word exactly as rule R57 does". -/
def Obligations.PrintedTransactionsReassemble : Prop :=
  ∀ (tw : Nat) (i : Instr), 1 ≤ tw → i.wf tw = true → assembleText tw (printInstr tw i) = .ok [encode tw i]

/-- 30_encoding.md R59. -/
def Obligations.PacketCStreamsHaveXorZero : Prop :=
  (∀ bytes : List Byte, xorBytes (withChecksum bytes) = 0 ∧ (withChecksum bytes).length = bytes.length + 1 ∧
    (withChecksum bytes).take bytes.length = bytes) ∧
  (∀ (tw : Nat) (r : Option Nat) (p : Bool) (t0 : Operand) (n : Nat) (bytes : List Byte),
    assembleStmt tw r (.packetC p t0 n bytes) = assembleStmt tw r (.packet p t0 n (withChecksum bytes)))
end

