-- ==== Sys2Proof/Laws/State.lean ====
section
/-! SUPPORT. The small lemmas of the state: one per field for every operation that updates it. -/

namespace Sys2Proof.Machine

open Sys2Proof

/-! ### Operations on the receiver registers -/

@[simp] theorem setThr_state (p : ThrPhase) (c : Config) (r : Receiver) : (setThr p c r).state = r.state := rfl
@[simp] theorem setThr_halfBit (p : ThrPhase) (c : Config) (r : Receiver) : (setThr p c r).halfBit = r.halfBit := rfl
@[simp] theorem setThr_bitMin (p : ThrPhase) (c : Config) (r : Receiver) :
    (setThr p c r).bitMin = (thrPair c p).lo := rfl
@[simp] theorem setThr_bitMax (p : ThrPhase) (c : Config) (r : Receiver) :
    (setThr p c r).bitMax = (thrPair c p).hi := rfl
@[simp] theorem setThr_edgePolarity (p : ThrPhase) (c : Config) (r : Receiver) :
    (setThr p c r).edgePolarity = r.edgePolarity := rfl
@[simp] theorem setThr_lastTs (p : ThrPhase) (c : Config) (r : Receiver) : (setThr p c r).lastTs = r.lastTs := rfl
@[simp] theorem setThr_bit1 (p : ThrPhase) (c : Config) (r : Receiver) : (setThr p c r).bit1 = r.bit1 := rfl
@[simp] theorem setThr_bit2 (p : ThrPhase) (c : Config) (r : Receiver) : (setThr p c r).bit2 = r.bit2 := rfl
@[simp] theorem setThr_preambleBitCount (p : ThrPhase) (c : Config) (r : Receiver) :
    (setThr p c r).preambleBitCount = r.preambleBitCount := rfl
@[simp] theorem setThr_bitCount (p : ThrPhase) (c : Config) (r : Receiver) :
    (setThr p c r).bitCount = r.bitCount := rfl
@[simp] theorem setThr_tempByte (p : ThrPhase) (c : Config) (r : Receiver) :
    (setThr p c r).tempByte = r.tempByte := rfl
@[simp] theorem setThr_checksum (p : ThrPhase) (c : Config) (r : Receiver) :
    (setThr p c r).checksum = r.checksum := rfl
@[simp] theorem setThr_working (p : ThrPhase) (c : Config) (r : Receiver) : (setThr p c r).working = r.working := rfl

@[simp] theorem goPreamble_state (c : Config) (r : Receiver) : (goPreamble c r).state = .waitPreamble := rfl
@[simp] theorem goPreamble_halfBit (c : Config) (r : Receiver) : (goPreamble c r).halfBit = r.halfBit := rfl
@[simp] theorem goPreamble_bitMin (c : Config) (r : Receiver) : (goPreamble c r).bitMin = c.pre.lo := rfl
@[simp] theorem goPreamble_bitMax (c : Config) (r : Receiver) : (goPreamble c r).bitMax = c.pre.hi := rfl
@[simp] theorem goPreamble_edgePolarity (c : Config) (r : Receiver) :
    (goPreamble c r).edgePolarity = r.edgePolarity := rfl
@[simp] theorem goPreamble_lastTs (c : Config) (r : Receiver) : (goPreamble c r).lastTs = r.lastTs := rfl
@[simp] theorem goPreamble_bit1 (c : Config) (r : Receiver) : (goPreamble c r).bit1 = r.bit1 := rfl
@[simp] theorem goPreamble_bit2 (c : Config) (r : Receiver) : (goPreamble c r).bit2 = r.bit2 := rfl
@[simp] theorem goPreamble_preambleBitCount (c : Config) (r : Receiver) :
    (goPreamble c r).preambleBitCount = r.preambleBitCount := rfl
@[simp] theorem goPreamble_bitCount (c : Config) (r : Receiver) : (goPreamble c r).bitCount = 0 := rfl
@[simp] theorem goPreamble_tempByte (c : Config) (r : Receiver) : (goPreamble c r).tempByte = r.tempByte := rfl
@[simp] theorem goPreamble_checksum (c : Config) (r : Receiver) : (goPreamble c r).checksum = r.checksum := rfl
@[simp] theorem goPreamble_working (c : Config) (r : Receiver) : (goPreamble c r).working = r.working := rfl

@[simp] theorem huntReset_state (c : Config) (r : Receiver) : (huntReset c r).state = .waitPreamble := rfl
@[simp] theorem huntReset_halfBit (c : Config) (r : Receiver) : (huntReset c r).halfBit = .h0 := rfl
@[simp] theorem huntReset_bitMin (c : Config) (r : Receiver) : (huntReset c r).bitMin = c.pre.lo := rfl
@[simp] theorem huntReset_bitMax (c : Config) (r : Receiver) : (huntReset c r).bitMax = c.pre.hi := rfl
@[simp] theorem huntReset_edgePolarity (c : Config) (r : Receiver) :
    (huntReset c r).edgePolarity = r.edgePolarity := rfl
@[simp] theorem huntReset_lastTs (c : Config) (r : Receiver) : (huntReset c r).lastTs = r.lastTs := rfl
@[simp] theorem huntReset_bit1 (c : Config) (r : Receiver) : (huntReset c r).bit1 = r.bit1 := rfl
@[simp] theorem huntReset_bit2 (c : Config) (r : Receiver) : (huntReset c r).bit2 = r.bit2 := rfl
@[simp] theorem huntReset_preambleBitCount (c : Config) (r : Receiver) : (huntReset c r).preambleBitCount = 0 := rfl
@[simp] theorem huntReset_bitCount (c : Config) (r : Receiver) : (huntReset c r).bitCount = 0 := rfl
@[simp] theorem huntReset_tempByte (c : Config) (r : Receiver) : (huntReset c r).tempByte = r.tempByte := rfl
@[simp] theorem huntReset_checksum (c : Config) (r : Receiver) : (huntReset c r).checksum = r.checksum := rfl
@[simp] theorem huntReset_working (c : Config) (r : Receiver) : (huntReset c r).working = r.working := rfl

@[simp] theorem enterSync_state (c : Config) (r : Receiver) : (enterSync c r).state = .waitStartBit := rfl
@[simp] theorem enterSync_halfBit (c : Config) (r : Receiver) : (enterSync c r).halfBit = .h0 := rfl
@[simp] theorem enterSync_bitMin (c : Config) (r : Receiver) : (enterSync c r).bitMin = c.half.lo := rfl
@[simp] theorem enterSync_bitMax (c : Config) (r : Receiver) : (enterSync c r).bitMax = c.half.hi := rfl
@[simp] theorem enterSync_edgePolarity (c : Config) (r : Receiver) :
    (enterSync c r).edgePolarity = r.edgePolarity := rfl
@[simp] theorem enterSync_lastTs (c : Config) (r : Receiver) : (enterSync c r).lastTs = r.lastTs := rfl
@[simp] theorem enterSync_bit1 (c : Config) (r : Receiver) : (enterSync c r).bit1 = r.bit1 := rfl
@[simp] theorem enterSync_bit2 (c : Config) (r : Receiver) : (enterSync c r).bit2 = r.bit2 := rfl
@[simp] theorem enterSync_preambleBitCount (c : Config) (r : Receiver) :
    (enterSync c r).preambleBitCount = r.preambleBitCount := rfl
@[simp] theorem enterSync_bitCount (c : Config) (r : Receiver) : (enterSync c r).bitCount = r.bitCount := rfl
@[simp] theorem enterSync_tempByte (c : Config) (r : Receiver) : (enterSync c r).tempByte = r.tempByte := rfl
@[simp] theorem enterSync_checksum (c : Config) (r : Receiver) : (enterSync c r).checksum = r.checksum := rfl
@[simp] theorem enterSync_working (c : Config) (r : Receiver) : (enterSync c r).working = r.working := rfl

@[simp] theorem enterFull_state (c : Config) (r : Receiver) : (enterFull c r).state = .waitStartBitFull := rfl
@[simp] theorem enterFull_halfBit (c : Config) (r : Receiver) : (enterFull c r).halfBit = r.halfBit := rfl
@[simp] theorem enterFull_bitMin (c : Config) (r : Receiver) : (enterFull c r).bitMin = c.pre.lo := rfl
@[simp] theorem enterFull_bitMax (c : Config) (r : Receiver) : (enterFull c r).bitMax = c.pre.hi := rfl
@[simp] theorem enterFull_edgePolarity (c : Config) (r : Receiver) :
    (enterFull c r).edgePolarity = r.edgePolarity := rfl
@[simp] theorem enterFull_lastTs (c : Config) (r : Receiver) : (enterFull c r).lastTs = r.lastTs := rfl
@[simp] theorem enterFull_bit1 (c : Config) (r : Receiver) : (enterFull c r).bit1 = r.bit1 := rfl
@[simp] theorem enterFull_bit2 (c : Config) (r : Receiver) : (enterFull c r).bit2 = r.bit2 := rfl
@[simp] theorem enterFull_preambleBitCount (c : Config) (r : Receiver) :
    (enterFull c r).preambleBitCount = r.preambleBitCount := rfl
@[simp] theorem enterFull_bitCount (c : Config) (r : Receiver) : (enterFull c r).bitCount = r.bitCount := rfl
@[simp] theorem enterFull_tempByte (c : Config) (r : Receiver) : (enterFull c r).tempByte = r.tempByte := rfl
@[simp] theorem enterFull_checksum (c : Config) (r : Receiver) : (enterFull c r).checksum = r.checksum := rfl
@[simp] theorem enterFull_working (c : Config) (r : Receiver) : (enterFull c r).working = r.working := rfl

@[simp] theorem openPacket_state (flip : Bool) (c : Config) (r : Receiver) :
    (openPacket flip c r).state = .waitData := rfl
@[simp] theorem openPacket_halfBit (flip : Bool) (c : Config) (r : Receiver) :
    (openPacket flip c r).halfBit = .h0 := rfl
@[simp] theorem openPacket_bitMin (flip : Bool) (c : Config) (r : Receiver) :
    (openPacket flip c r).bitMin = c.full.lo := rfl
@[simp] theorem openPacket_bitMax (flip : Bool) (c : Config) (r : Receiver) :
    (openPacket flip c r).bitMax = c.full.hi := rfl
@[simp] theorem openPacket_edgePolarity (flip : Bool) (c : Config) (r : Receiver) :
    (openPacket flip c r).edgePolarity = if flip then !r.edgePolarity else r.edgePolarity := rfl
@[simp] theorem openPacket_lastTs (flip : Bool) (c : Config) (r : Receiver) :
    (openPacket flip c r).lastTs = r.lastTs := rfl
@[simp] theorem openPacket_bit1 (flip : Bool) (c : Config) (r : Receiver) : (openPacket flip c r).bit1 = r.bit1 := rfl
@[simp] theorem openPacket_bit2 (flip : Bool) (c : Config) (r : Receiver) : (openPacket flip c r).bit2 = r.bit2 := rfl
@[simp] theorem openPacket_preambleBitCount (flip : Bool) (c : Config) (r : Receiver) :
    (openPacket flip c r).preambleBitCount = r.preambleBitCount := rfl
@[simp] theorem openPacket_bitCount (flip : Bool) (c : Config) (r : Receiver) :
    (openPacket flip c r).bitCount = 0 := rfl
@[simp] theorem openPacket_tempByte (flip : Bool) (c : Config) (r : Receiver) :
    (openPacket flip c r).tempByte = 0 := rfl
@[simp] theorem openPacket_checksum (flip : Bool) (c : Config) (r : Receiver) :
    (openPacket flip c r).checksum = 0 := rfl
@[simp] theorem openPacket_working (flip : Bool) (c : Config) (r : Receiver) :
    (openPacket flip c r).working = { r.working with size := 0, preambleBits := r.preambleBitCount } := rfl

@[simp] theorem checksumClear_state (r : Receiver) : (checksumClear r).state = r.state := rfl
@[simp] theorem checksumClear_halfBit (r : Receiver) : (checksumClear r).halfBit = r.halfBit := rfl
@[simp] theorem checksumClear_bitMin (r : Receiver) : (checksumClear r).bitMin = r.bitMin := rfl
@[simp] theorem checksumClear_bitMax (r : Receiver) : (checksumClear r).bitMax = r.bitMax := rfl
@[simp] theorem checksumClear_edgePolarity (r : Receiver) : (checksumClear r).edgePolarity = r.edgePolarity := rfl
@[simp] theorem checksumClear_lastTs (r : Receiver) : (checksumClear r).lastTs = r.lastTs := rfl
@[simp] theorem checksumClear_bit1 (r : Receiver) : (checksumClear r).bit1 = r.bit1 := rfl
@[simp] theorem checksumClear_bit2 (r : Receiver) : (checksumClear r).bit2 = r.bit2 := rfl
@[simp] theorem checksumClear_preambleBitCount (r : Receiver) :
    (checksumClear r).preambleBitCount = r.preambleBitCount := rfl
@[simp] theorem checksumClear_bitCount (r : Receiver) : (checksumClear r).bitCount = r.bitCount := rfl
@[simp] theorem checksumClear_tempByte (r : Receiver) : (checksumClear r).tempByte = r.tempByte := rfl
@[simp] theorem checksumClear_checksum (r : Receiver) : (checksumClear r).checksum = 0 := rfl
@[simp] theorem checksumClear_working (r : Receiver) : (checksumClear r).working = r.working := rfl

@[simp] theorem checksumAccumulate_state (x : Byte) (r : Receiver) : (checksumAccumulate x r).state = r.state := rfl
@[simp] theorem checksumAccumulate_halfBit (x : Byte) (r : Receiver) :
    (checksumAccumulate x r).halfBit = r.halfBit := rfl
@[simp] theorem checksumAccumulate_bitMin (x : Byte) (r : Receiver) :
    (checksumAccumulate x r).bitMin = r.bitMin := rfl
@[simp] theorem checksumAccumulate_bitMax (x : Byte) (r : Receiver) :
    (checksumAccumulate x r).bitMax = r.bitMax := rfl
@[simp] theorem checksumAccumulate_edgePolarity (x : Byte) (r : Receiver) :
    (checksumAccumulate x r).edgePolarity = r.edgePolarity := rfl
@[simp] theorem checksumAccumulate_lastTs (x : Byte) (r : Receiver) :
    (checksumAccumulate x r).lastTs = r.lastTs := rfl
@[simp] theorem checksumAccumulate_bit1 (x : Byte) (r : Receiver) : (checksumAccumulate x r).bit1 = r.bit1 := rfl
@[simp] theorem checksumAccumulate_bit2 (x : Byte) (r : Receiver) : (checksumAccumulate x r).bit2 = r.bit2 := rfl
@[simp] theorem checksumAccumulate_preambleBitCount (x : Byte) (r : Receiver) :
    (checksumAccumulate x r).preambleBitCount = r.preambleBitCount := rfl
@[simp] theorem checksumAccumulate_bitCount (x : Byte) (r : Receiver) :
    (checksumAccumulate x r).bitCount = r.bitCount := rfl
@[simp] theorem checksumAccumulate_tempByte (x : Byte) (r : Receiver) :
    (checksumAccumulate x r).tempByte = r.tempByte := rfl
@[simp] theorem checksumAccumulate_checksum (x : Byte) (r : Receiver) :
    (checksumAccumulate x r).checksum = r.checksum ^^^ x := rfl
@[simp] theorem checksumAccumulate_working (x : Byte) (r : Receiver) :
    (checksumAccumulate x r).working = r.working := rfl

@[simp] theorem shiftIn_state (b : Bool) (r : Receiver) : (shiftIn b r).state = r.state := rfl
@[simp] theorem shiftIn_halfBit (b : Bool) (r : Receiver) : (shiftIn b r).halfBit = r.halfBit := rfl
@[simp] theorem shiftIn_bitMin (b : Bool) (r : Receiver) : (shiftIn b r).bitMin = r.bitMin := rfl
@[simp] theorem shiftIn_bitMax (b : Bool) (r : Receiver) : (shiftIn b r).bitMax = r.bitMax := rfl
@[simp] theorem shiftIn_edgePolarity (b : Bool) (r : Receiver) : (shiftIn b r).edgePolarity = r.edgePolarity := rfl
@[simp] theorem shiftIn_lastTs (b : Bool) (r : Receiver) : (shiftIn b r).lastTs = r.lastTs := rfl
@[simp] theorem shiftIn_bit1 (b : Bool) (r : Receiver) : (shiftIn b r).bit1 = r.bit1 := rfl
@[simp] theorem shiftIn_bit2 (b : Bool) (r : Receiver) : (shiftIn b r).bit2 = r.bit2 := rfl
@[simp] theorem shiftIn_preambleBitCount (b : Bool) (r : Receiver) :
    (shiftIn b r).preambleBitCount = r.preambleBitCount := rfl
@[simp] theorem shiftIn_bitCount (b : Bool) (r : Receiver) : (shiftIn b r).bitCount = r.bitCount + 1 := rfl
@[simp] theorem shiftIn_tempByte (b : Bool) (r : Receiver) :
    (shiftIn b r).tempByte = (r.tempByte <<< 1) ||| BitVec.ofNat 8 b.toNat := rfl
@[simp] theorem shiftIn_checksum (b : Bool) (r : Receiver) : (shiftIn b r).checksum = r.checksum := rfl
@[simp] theorem shiftIn_working (b : Bool) (r : Receiver) : (shiftIn b r).working = r.working := rfl

@[simp] theorem appendByte_state (r : Receiver) : (appendByte r).state = .waitEndBit := rfl
@[simp] theorem appendByte_halfBit (r : Receiver) : (appendByte r).halfBit = r.halfBit := rfl
@[simp] theorem appendByte_bitMin (r : Receiver) : (appendByte r).bitMin = r.bitMin := rfl
@[simp] theorem appendByte_bitMax (r : Receiver) : (appendByte r).bitMax = r.bitMax := rfl
@[simp] theorem appendByte_edgePolarity (r : Receiver) : (appendByte r).edgePolarity = r.edgePolarity := rfl
@[simp] theorem appendByte_lastTs (r : Receiver) : (appendByte r).lastTs = r.lastTs := rfl
@[simp] theorem appendByte_bit1 (r : Receiver) : (appendByte r).bit1 = r.bit1 := rfl
@[simp] theorem appendByte_bit2 (r : Receiver) : (appendByte r).bit2 = r.bit2 := rfl
@[simp] theorem appendByte_preambleBitCount (r : Receiver) :
    (appendByte r).preambleBitCount = r.preambleBitCount := rfl
@[simp] theorem appendByte_bitCount (r : Receiver) : (appendByte r).bitCount = r.bitCount := rfl
@[simp] theorem appendByte_tempByte (r : Receiver) : (appendByte r).tempByte = r.tempByte := rfl
@[simp] theorem appendByte_checksum (r : Receiver) : (appendByte r).checksum = r.checksum ^^^ r.tempByte := rfl
@[simp] theorem appendByte_working (r : Receiver) :
    (appendByte r).working = { r.working with data := r.working.data.setIfInBounds r.working.size.toNat r.tempByte, size := r.working.size + 1 } := rfl

@[simp] theorem resetReceiver_state (c : Config) (r : Receiver) : (resetReceiver c r).state = .waitPreamble := rfl
@[simp] theorem resetReceiver_halfBit (c : Config) (r : Receiver) : (resetReceiver c r).halfBit = .h0 := rfl
@[simp] theorem resetReceiver_bitMin (c : Config) (r : Receiver) : (resetReceiver c r).bitMin = c.pre.lo := rfl
@[simp] theorem resetReceiver_bitMax (c : Config) (r : Receiver) : (resetReceiver c r).bitMax = c.pre.hi := rfl
@[simp] theorem resetReceiver_edgePolarity (c : Config) (r : Receiver) :
    (resetReceiver c r).edgePolarity = true := rfl
@[simp] theorem resetReceiver_lastTs (c : Config) (r : Receiver) : (resetReceiver c r).lastTs = 0 := rfl
@[simp] theorem resetReceiver_bit1 (c : Config) (r : Receiver) : (resetReceiver c r).bit1 = 0 := rfl
@[simp] theorem resetReceiver_bit2 (c : Config) (r : Receiver) : (resetReceiver c r).bit2 = 0 := rfl
@[simp] theorem resetReceiver_preambleBitCount (c : Config) (r : Receiver) :
    (resetReceiver c r).preambleBitCount = 0 := rfl
@[simp] theorem resetReceiver_bitCount (c : Config) (r : Receiver) : (resetReceiver c r).bitCount = 0 := rfl
@[simp] theorem resetReceiver_tempByte (c : Config) (r : Receiver) : (resetReceiver c r).tempByte = 0 := rfl
@[simp] theorem resetReceiver_checksum (c : Config) (r : Receiver) : (resetReceiver c r).checksum = 0 := rfl
@[simp] theorem resetReceiver_working (c : Config) (r : Receiver) :
    (resetReceiver c r).working = clearedMessage := rfl

/-! ### Operations on the whole state -/

@[simp] theorem State.begin_cfg (s : State) : s.begin.cfg = s.cfg := rfl
@[simp] theorem State.begin_rx (s : State) : s.begin.rx = s.rx := rfl
@[simp] theorem State.begin_box (s : State) : s.begin.box = s.box := rfl
@[simp] theorem State.begin_diag (s : State) : s.begin.diag = s.diag := rfl
@[simp] theorem State.begin_out (s : State) : s.begin.out = Outputs.quiet := rfl
@[simp] theorem State.begin_inp (s : State) : s.begin.inp = s.inp := rfl

@[simp] theorem State.emit_cfg (e : Event) (s : State) : (s.emit e).cfg = s.cfg := rfl
@[simp] theorem State.emit_rx (e : Event) (s : State) : (s.emit e).rx = s.rx := rfl
@[simp] theorem State.emit_box (e : Event) (s : State) : (s.emit e).box = s.box := rfl
@[simp] theorem State.emit_diag (e : Event) (s : State) : (s.emit e).diag = s.diag := rfl
@[simp] theorem State.emit_out (e : Event) (s : State) :
    (s.emit e).out = { s.out with ev := s.out.ev ||| e.mask } := rfl
@[simp] theorem State.emit_inp (e : Event) (s : State) : (s.emit e).inp = s.inp := rfl

@[simp] theorem State.pulse_cfg (s : State) : s.pulse.cfg = s.cfg := rfl
@[simp] theorem State.pulse_rx (s : State) : s.pulse.rx = s.rx := rfl
@[simp] theorem State.pulse_box (s : State) : s.pulse.box = s.box := rfl
@[simp] theorem State.pulse_diag (s : State) : s.pulse.diag = s.diag := rfl
@[simp] theorem State.pulse_out (s : State) : s.pulse.out = { s.out with notify := true } := rfl
@[simp] theorem State.pulse_inp (s : State) : s.pulse.inp = s.inp := rfl

@[simp] theorem State.countGlitch_cfg (s : State) : s.countGlitch.cfg = s.cfg := rfl
@[simp] theorem State.countGlitch_rx (s : State) : s.countGlitch.rx = s.rx := rfl
@[simp] theorem State.countGlitch_box (s : State) : s.countGlitch.box = s.box := rfl
@[simp] theorem State.countGlitch_diag (s : State) :
    s.countGlitch.diag = { s.diag with glitchCnt := countUp s.cfg s.diag.glitchCnt } := rfl
@[simp] theorem State.countGlitch_out (s : State) : s.countGlitch.out = s.out := rfl
@[simp] theorem State.countGlitch_inp (s : State) : s.countGlitch.inp = s.inp := rfl

@[simp] theorem State.countOverflow_cfg (s : State) : s.countOverflow.cfg = s.cfg := rfl
@[simp] theorem State.countOverflow_rx (s : State) : s.countOverflow.rx = s.rx := rfl
@[simp] theorem State.countOverflow_box (s : State) : s.countOverflow.box = s.box := rfl
@[simp] theorem State.countOverflow_diag (s : State) :
    s.countOverflow.diag = { s.diag with overflowCnt := countUp s.cfg s.diag.overflowCnt } := rfl
@[simp] theorem State.countOverflow_out (s : State) : s.countOverflow.out = s.out := rfl
@[simp] theorem State.countOverflow_inp (s : State) : s.countOverflow.inp = s.inp := rfl

@[simp] theorem State.countCsumErr_cfg (s : State) : s.countCsumErr.cfg = s.cfg := rfl
@[simp] theorem State.countCsumErr_rx (s : State) : s.countCsumErr.rx = s.rx := rfl
@[simp] theorem State.countCsumErr_box (s : State) : s.countCsumErr.box = s.box := rfl
@[simp] theorem State.countCsumErr_diag (s : State) :
    s.countCsumErr.diag = { s.diag with csumErrCnt := countUp s.cfg s.diag.csumErrCnt } := rfl
@[simp] theorem State.countCsumErr_out (s : State) : s.countCsumErr.out = s.out := rfl
@[simp] theorem State.countCsumErr_inp (s : State) : s.countCsumErr.inp = s.inp := rfl

@[simp] theorem State.setLastTs_cfg (t : Nat) (s : State) : (s.setLastTs t).cfg = s.cfg := rfl
@[simp] theorem State.setLastTs_rx (t : Nat) (s : State) : (s.setLastTs t).rx = { s.rx with lastTs := t } := rfl
@[simp] theorem State.setLastTs_box (t : Nat) (s : State) : (s.setLastTs t).box = s.box := rfl
@[simp] theorem State.setLastTs_diag (t : Nat) (s : State) : (s.setLastTs t).diag = s.diag := rfl
@[simp] theorem State.setLastTs_out (t : Nat) (s : State) : (s.setLastTs t).out = s.out := rfl
@[simp] theorem State.setLastTs_inp (t : Nat) (s : State) : (s.setLastTs t).inp = s.inp := rfl

@[simp] theorem State.withEvents_cfg (s : State) (ev : BitVec 16) : (s.withEvents ev).cfg = s.cfg := rfl
@[simp] theorem State.withEvents_rx (s : State) (ev : BitVec 16) : (s.withEvents ev).rx = s.rx := rfl
@[simp] theorem State.withEvents_box (s : State) (ev : BitVec 16) : (s.withEvents ev).box = s.box := rfl
@[simp] theorem State.withEvents_diag (s : State) (ev : BitVec 16) : (s.withEvents ev).diag = s.diag := rfl
@[simp] theorem State.withEvents_out (s : State) (ev : BitVec 16) :
    (s.withEvents ev).out = { ev := ev, resp := none, notify := false } := rfl
@[simp] theorem State.withEvents_inp (s : State) (ev : BitVec 16) : (s.withEvents ev).inp = s.inp := rfl

@[simp] theorem syncFail_cfg (s : State) : (syncFail s).cfg = s.cfg := rfl
@[simp] theorem syncFail_rx (s : State) : (syncFail s).rx = huntReset s.cfg s.rx := rfl
@[simp] theorem syncFail_box (s : State) : (syncFail s).box = s.box := rfl
@[simp] theorem syncFail_diag (s : State) : (syncFail s).diag = s.diag := rfl
@[simp] theorem syncFail_out (s : State) :
    (syncFail s).out = { s.out with ev := s.out.ev ||| Event.syncFail.mask } := rfl
@[simp] theorem syncFail_inp (s : State) : (syncFail s).inp = s.inp := rfl

@[simp] theorem rejectOutOfRange_cfg (s : State) : (rejectOutOfRange s).cfg = s.cfg := rfl
@[simp] theorem rejectOutOfRange_rx (s : State) : (rejectOutOfRange s).rx = huntReset s.cfg s.rx := rfl
@[simp] theorem rejectOutOfRange_box (s : State) : (rejectOutOfRange s).box = s.box := rfl
@[simp] theorem rejectOutOfRange_diag (s : State) : (rejectOutOfRange s).diag = s.diag := rfl
@[simp] theorem rejectOutOfRange_out (s : State) :
    (rejectOutOfRange s).out = { s.out with ev := s.out.ev ||| Event.zbsReset.mask } := rfl
@[simp] theorem rejectOutOfRange_inp (s : State) : (rejectOutOfRange s).inp = s.inp := rfl

@[simp] theorem dropOversized_cfg (s : State) : (dropOversized s).cfg = s.cfg := rfl
@[simp] theorem dropOversized_rx (s : State) : (dropOversized s).rx = goPreamble s.cfg s.rx := rfl
@[simp] theorem dropOversized_box (s : State) : (dropOversized s).box = s.box := rfl
@[simp] theorem dropOversized_diag (s : State) :
    (dropOversized s).diag = { s.diag with overflowCnt := countUp s.cfg s.diag.overflowCnt } := rfl
@[simp] theorem dropOversized_out (s : State) :
    (dropOversized s).out = { s.out with ev := s.out.ev ||| Event.overflow.mask } := rfl
@[simp] theorem dropOversized_inp (s : State) : (dropOversized s).inp = s.inp := rfl

@[simp] theorem checksumReject_cfg (s : State) : (checksumReject s).cfg = s.cfg := rfl
@[simp] theorem checksumReject_rx (s : State) : (checksumReject s).rx = s.rx := rfl
@[simp] theorem checksumReject_box (s : State) : (checksumReject s).box = s.box := rfl
@[simp] theorem checksumReject_diag (s : State) :
    (checksumReject s).diag = { s.diag with csumErrCnt := countUp s.cfg s.diag.csumErrCnt } := rfl
@[simp] theorem checksumReject_out (s : State) :
    (checksumReject s).out = { s.out with ev := s.out.ev ||| Event.csumErr.mask } := rfl
@[simp] theorem checksumReject_inp (s : State) : (checksumReject s).inp = s.inp := rfl

@[simp] theorem resetBlock_cfg (s : State) : (resetBlock s).cfg = s.cfg := rfl
@[simp] theorem resetBlock_rx (s : State) : (resetBlock s).rx = resetReceiver s.cfg s.rx := rfl
@[simp] theorem resetBlock_box (s : State) :
    (resetBlock s).box = { handoff := clearedMessage, dataReady := false } := rfl
@[simp] theorem resetBlock_diag (s : State) : (resetBlock s).diag = resetDiag s.cfg s.diag := rfl
@[simp] theorem resetBlock_out (s : State) : (resetBlock s).out = Outputs.quiet := rfl
@[simp] theorem resetBlock_inp (s : State) : (resetBlock s).inp = s.inp := rfl

@[simp] theorem thrPair_pre (c : Config) : thrPair c .pre = c.pre := rfl
@[simp] theorem thrPair_half (c : Config) : thrPair c .half = c.half := rfl
@[simp] theorem thrPair_full (c : Config) : thrPair c .full = c.full := rfl

/-! ### The commit and the start bit, whose events depend on a flag -/

@[simp] theorem commit_cfg (s : State) : (commit s).cfg = s.cfg := by unfold commit; split <;> rfl
@[simp] theorem commit_rx (s : State) : (commit s).rx = s.rx := by unfold commit; split <;> rfl
@[simp] theorem commit_box (s : State) : (commit s).box = { handoff := s.rx.working, dataReady := true } := by
  unfold commit; split <;> rfl
@[simp] theorem commit_diag (s : State) : (commit s).diag = s.diag := by unfold commit; split <;> rfl
@[simp] theorem commit_inp (s : State) : (commit s).inp = s.inp := by unfold commit; split <;> rfl
@[simp] theorem commit_out (s : State) : (commit s).out =
    { s.out with
      ev := (if s.box.dataReady then s.out.ev ||| Event.overwrite.mask else s.out.ev) ||| Event.commit.mask
      notify := true } := by
  unfold commit; split <;> rfl

@[simp] theorem acceptStart_cfg (flip : Bool) (s : State) : (acceptStart flip s).cfg = s.cfg := by cases flip <;> rfl
@[simp] theorem acceptStart_rx (flip : Bool) (s : State) : (acceptStart flip s).rx = openPacket flip s.cfg s.rx := by
  cases flip <;> rfl
@[simp] theorem acceptStart_box (flip : Bool) (s : State) : (acceptStart flip s).box = s.box := by cases flip <;> rfl
@[simp] theorem acceptStart_diag (flip : Bool) (s : State) : (acceptStart flip s).diag = s.diag := by cases flip <;> rfl
@[simp] theorem acceptStart_inp (flip : Bool) (s : State) : (acceptStart flip s).inp = s.inp := by cases flip <;> rfl
@[simp] theorem acceptStart_out (flip : Bool) (s : State) : (acceptStart flip s).out =
    { s.out with ev := (if flip then s.out.ev ||| Event.flip.mask else s.out.ev) ||| Event.start.mask } := by
  cases flip <;> rfl

@[simp] theorem enterStart_cfg (s : State) : (enterStart s).cfg = s.cfg := rfl
@[simp] theorem enterStart_rx (s : State) : (enterStart s).rx =
    if s.cfg.syncAlways || s.rx.checksum != 0 then enterSync s.cfg s.rx else enterFull s.cfg s.rx := rfl
@[simp] theorem enterStart_box (s : State) : (enterStart s).box = s.box := rfl
@[simp] theorem enterStart_diag (s : State) : (enterStart s).diag = s.diag := rfl
@[simp] theorem enterStart_inp (s : State) : (enterStart s).inp = s.inp := rfl
@[simp] theorem enterStart_out (s : State) : (enterStart s).out =
    { s.out with ev := s.out.ev ||| Event.preamble.mask } := rfl

end Sys2Proof.Machine
end

