-- ==== Sys2Proof/Laws/Ops.lean ====
section
/-! SUPPORT. What each shared operation can do, said once: the lemmas to cite instead of unfolding it. -/

namespace Sys2Proof.Machine

open Sys2Proof

/-! ### Events -/

theorem eventIndex_inj {e e' : Event} (h : e.index = e'.index) : e = e' := by
  cases e <;> cases e' <;> first | rfl | exact absurd h (by decide)

/-- Emitting an event sets its bit and no other. -/
@[simp] theorem isIn_or_mask (e e' : Event) (ev : BitVec 16) :
    Event.isIn e (ev ||| e'.mask) = (Event.isIn e ev || decide (e = e')) := by
  have hlt : e.index < 16 := by cases e <;> decide
  rw [Event.isIn, Event.isIn, Event.mask, BitVec.getLsbD_or, BitVec.getLsbD_twoPow]
  by_cases h : e = e'
  · subst h; simp [hlt]
  · have : ¬ e'.index = e.index := fun hh => h (eventIndex_inj hh).symm
    simp [h, this]

@[simp] theorem isIn_zero (e : Event) : Event.isIn e 0#16 = false := by simp [Event.isIn]

@[simp] theorem isIn_mask (e e' : Event) : Event.isIn e e'.mask = decide (e = e') := by
  simpa using isIn_or_mask e e' 0#16

@[simp] theorem quiet_ev : Outputs.quiet.ev = 0#16 := rfl
@[simp] theorem quiet_resp : Outputs.quiet.resp = none := rfl
@[simp] theorem quiet_notify : Outputs.quiet.notify = false := rfl

/-! The bit of each event, as 30_encoding.md R54 numbers it. Not simp lemmas: `isIn_or_mask` works on masks. -/

theorem mask_filtered : Event.mask .filtered = 0x0001#16 := by decide
theorem mask_glitch : Event.mask .glitch = 0x0002#16 := by decide
theorem mask_zbsReset : Event.mask .zbsReset = 0x0004#16 := by decide
theorem mask_bit : Event.mask .bit = 0x0008#16 := by decide
theorem mask_bitVal : Event.mask .bitVal = 0x0010#16 := by decide
theorem mask_syncFail : Event.mask .syncFail = 0x0020#16 := by decide
theorem mask_flip : Event.mask .flip = 0x0040#16 := by decide
theorem mask_start : Event.mask .start = 0x0080#16 := by decide
theorem mask_byte : Event.mask .byte = 0x0100#16 := by decide
theorem mask_overflow : Event.mask .overflow = 0x0200#16 := by decide
theorem mask_csumErr : Event.mask .csumErr = 0x0400#16 := by decide
theorem mask_commit : Event.mask .commit = 0x0800#16 := by decide
theorem mask_overwrite : Event.mask .overwrite = 0x1000#16 := by decide
theorem mask_preamble : Event.mask .preamble = 0x2000#16 := by decide

/-! ### Transactions -/

/-- A transaction answers a next state exactly under parameters in range, and then its effect. -/
@[simp] theorem perform_next (f : State → State) (s t : State) :
    perform f s = .next t ↔ s.cfg.inRange = true ∧ f s = t := by
  unfold perform; split <;> simp_all

theorem exec_edge (d : Bool) (τ : Nat) (s : State) : exec (edgeInstr d τ) s = perform (edgeStep d τ) s := by
  cases d <;> rfl

theorem exec_poll (s : State) : exec .poll s = perform pollMailbox s := rfl
theorem exec_reset (s : State) : exec .reset s = perform resetBlock s := rfl
theorem exec_idle (s : State) : exec .idle s = perform State.begin s := rfl

/-- Every transaction that is no POLL, no RESET and no IDLE is an edge. -/
theorem instr_cases (i : Instr) : i = .idle ∨ i = .poll ∨ i = .reset ∨ ∃ d τ, i = edgeInstr d τ := by
  cases i with
  | idle => simp
  | edgeF t => exact .inr (.inr (.inr ⟨false, t, rfl⟩))
  | edgeR t => exact .inr (.inr (.inr ⟨true, t, rfl⟩))
  | poll => simp
  | reset => simp

/-- Exactly the parameters decide whether a transaction completes. -/
theorem exec_completes (i : Instr) (s : State) (h : s.cfg.inRange = true) : ∃ t, exec i s = .next t := by
  obtain rfl | rfl | rfl | ⟨d, τ, rfl⟩ := instr_cases i
  · exact ⟨_, by rw [exec_idle, perform_next]; exact ⟨h, rfl⟩⟩
  · exact ⟨_, by rw [exec_poll, perform_next]; exact ⟨h, rfl⟩⟩
  · exact ⟨_, by rw [exec_reset, perform_next]; exact ⟨h, rfl⟩⟩
  · exact ⟨_, by rw [exec_edge, perform_next]; exact ⟨h, rfl⟩⟩

theorem pollMailbox_eq (s : State) : pollMailbox s =
    { s with
      box := { s.box with dataReady := false }
      out := { ev := 0, resp := some (if s.box.dataReady then respWord s.box.handoff else 0), notify := false } } := by
  obtain ⟨cfg, rx, ⟨m, rd⟩, dg, out, q⟩ := s
  cases rd <;> rfl

/-! ### Elapsed time -/

theorem subMod_lt (tw a b : Nat) : subMod tw a b < 2 ^ tw := Nat.mod_lt _ (by positivity)

/-- The model's subtraction is that of 40_bit_timing_classifier.md R65 on exact integers. -/
theorem subMod_eq_int (tw a b : Nat) : subMod tw a b = (((a : Int) - (b : Int)) % ((2 : Int) ^ tw)).toNat := by
  have hb : b % 2 ^ tw ≤ 2 ^ tw := (Nat.mod_lt _ (by positivity)).le
  have hcast : ((2 ^ tw - b % 2 ^ tw : Nat) : Int) = (2 : Int) ^ tw - (b : Int) % (2 : Int) ^ tw := by
    rw [Nat.cast_sub hb]; push_cast; rfl
  have key : ((subMod tw a b : Nat) : Int) = ((a : Int) - (b : Int)) % ((2 : Int) ^ tw) := by
    unfold subMod
    rw [Int.natCast_mod, Nat.cast_add, hcast]
    push_cast
    have : (a : Int) + ((2 : Int) ^ tw - (b : Int) % (2 : Int) ^ tw)
        = ((a : Int) - (b : Int)) + (2 : Int) ^ tw * (1 + (b : Int) / (2 : Int) ^ tw) := by
      have := Int.emod_add_mul_ediv (b : Int) ((2 : Int) ^ tw)
      linarith [this]
    rw [this, Int.add_mul_emod_self_left]
  rw [← key]; rfl

@[simp] theorem timeOperand_of_lt {tw t : Nat} (h : t < 2 ^ tw) : timeOperand tw t = t := Nat.mod_eq_of_lt h

theorem timeOperand_lt (tw t : Nat) : timeOperand tw t < 2 ^ tw := Nat.mod_lt _ (by positivity)

theorem elapsed_lt (c : Config) (r : Receiver) (t : Nat) : elapsed c r t < 2 ^ c.tw := subMod_lt _ _ _

/-- The elapsed time a meaning computes is the one of the claims. -/
theorem elapsed_eq_elapsedAt (s : State) (t : Nat) : elapsed s.cfg s.rx t = s.elapsedAt t := subMod_eq_int _ _ _

theorem absDiff_eq_natAbs (a b : Nat) : absDiff a b = ((a : Int) - (b : Int)).natAbs := by
  unfold absDiff; omega

/-! ### Inputs -/

theorem take_of_turn {q : Inputs} {a : Agent} {rest : List Agent} {w : Nat} {ws : List Nat}
    (ht : q.turns = a :: rest) (hp : q.pendingOf a = w :: ws) :
    q.take = (some (a, w), Inputs.setPending a ws { q with turns := rest }) := by
  simp [Inputs.take, ht, hp]

/-- Taking the next word touches at most one queue, and only at its front. -/
theorem take_queues (q : Inputs) :
    (q.take.2.edgePending = q.edgePending ∧ q.take.2.hostPending = q.hostPending) ∨
    (q.take.2.hostPending = q.hostPending ∧ ∃ w, q.edgePending = w :: q.take.2.edgePending) ∨
    (q.take.2.edgePending = q.edgePending ∧ ∃ w, q.hostPending = w :: q.take.2.hostPending) := by
  obtain ⟨ep, hp, ts⟩ := q
  cases ts with
  | nil => simp [Inputs.take]
  | cons a rest =>
    cases a with
    | edgeSource => cases ep <;> simp [Inputs.take, Inputs.pendingOf, Inputs.setPending]
    | host => cases hp <;> simp [Inputs.take, Inputs.pendingOf, Inputs.setPending]

/-- Serving a word just pushed gives back the inputs as they were. -/
theorem take_push (a : Agent) (w : Nat) (q : Inputs) : (q.push a w).take = (some (a, w), q) := by
  cases a <;> rfl

/-- Every step that answers a next state is one transaction on the state without the word it took. -/
theorem step_next {s t : State} (h : step s = .next t) : ∃ i, exec i { s with inp := s.inp.take.2 } = .next t := by
  unfold step at h
  split at h
  · next q heq => exact ⟨.idle, by rw [heq]; exact h⟩
  · next a w q heq =>
    unfold issue at h
    split at h
    · cases h
    · next i _ =>
      split at h
      · exact ⟨i, by rw [heq]; exact h⟩
      · cases h

end Sys2Proof.Machine
end

