-- ==== Sys2Proof/Laws/Edge.lean ====
section
/-! SUPPORT. What an EDGE transaction can do, said once. -/

namespace Sys2Proof.Machine

open Sys2Proof

theorem trigAccepts_iff (r : Receiver) (d : Bool) :
    trigAccepts r d = true ↔ r.state = .waitStartBit ∨ r.edgePolarity = d := by
  unfold trigAccepts trigMode
  by_cases h : r.state = .waitStartBit
  · simp only [h, if_true, true_or, iff_true]; cases d <;> rfl
  · simp only [h, if_false, false_or]
    cases r.edgePolarity <;> cases d <;> decide

theorem classify_cases (zbs : Bool) (e lo hi : Nat) :
    (classify zbs e lo hi = .glitch ∧ e < lo) ∨
    (classify zbs e lo hi = .outOfRange ∧ lo ≤ e ∧ zbs = true ∧ 2 * hi < e) ∨
    (classify zbs e lo hi = .one ∧ lo ≤ e ∧ ¬ (zbs = true ∧ 2 * hi < e) ∧ e < hi) ∨
    (classify zbs e lo hi = .zero ∧ lo ≤ e ∧ ¬ (zbs = true ∧ 2 * hi < e) ∧ hi ≤ e) := by
  unfold classify
  by_cases h1 : e < lo
  · simp [h1]
  · by_cases h2 : zbs = true ∧ 2 * hi < e
    · simp [h1, h2.1, h2.2, Nat.le_of_not_lt h1]
    · have h2' : (zbs && decide (2 * hi < e)) = false := by
        cases zbs <;> simp_all
      by_cases h3 : e < hi
      · simp [h1, h2', h3, h2, Nat.le_of_not_lt h1]
      · simp [h1, h2', h3, h2, Nat.le_of_not_lt h1, Nat.le_of_not_lt h3]

/-- The state a classified bit starts from: no event yet, the time reference moved. -/
abbrev State.atEdge (s : State) (t : Nat) : State := State.setLastTs (timeOperand s.cfg.tw t) s.begin

/-- What an edge can do: it is filtered, a glitch, out of range, or carries one bit. -/
theorem edgeStep_cases (d : Bool) (t : Nat) (s : State) :
    (edgeStep d t s = s.begin.emit .filtered ∧ trigAccepts s.rx d = false) ∨
    (edgeStep d t s = (s.begin.emit .glitch).countGlitch ∧ trigAccepts s.rx d = true ∧
      elapsed s.cfg s.rx (timeOperand s.cfg.tw t) < s.rx.bitMin) ∨
    (edgeStep d t s = rejectOutOfRange (s.atEdge t) ∧ trigAccepts s.rx d = true ∧ s.cfg.zbsCheck = true ∧
      s.rx.bitMin ≤ elapsed s.cfg s.rx (timeOperand s.cfg.tw t) ∧
      2 * s.rx.bitMax < elapsed s.cfg s.rx (timeOperand s.cfg.tw t)) ∨
    (∃ b, edgeStep d t s = classifiedBit b (elapsed s.cfg s.rx (timeOperand s.cfg.tw t)) (s.atEdge t) ∧
      trigAccepts s.rx d = true ∧ s.rx.bitMin ≤ elapsed s.cfg s.rx (timeOperand s.cfg.tw t) ∧
      ¬ (s.cfg.zbsCheck = true ∧ 2 * s.rx.bitMax < elapsed s.cfg s.rx (timeOperand s.cfg.tw t)) ∧
      (b = true ↔ elapsed s.cfg s.rx (timeOperand s.cfg.tw t) < s.rx.bitMax)) := by
  unfold edgeStep
  cases ha : trigAccepts s.rx d with
  | false => left; simp [ha]
  | true =>
    right
    simp only [State.begin_rx, ha, if_true, State.begin_cfg]
    unfold acceptedEdge
    simp only [State.begin_rx, State.begin_cfg]
    obtain ⟨hk, h1⟩ | ⟨hk, h1, h2, h3⟩ | ⟨hk, h1, h2, h3⟩ | ⟨hk, h1, h2, h3⟩ := classify_cases s.cfg.zbsCheck
      (elapsed s.cfg s.rx (timeOperand s.cfg.tw t)) s.rx.bitMin s.rx.bitMax
    · exact .inl ⟨by rw [hk], trivial, h1⟩
    · exact .inr (.inl ⟨by rw [hk], trivial, h2, h1, h3⟩)
    · exact .inr (.inr ⟨true, by rw [hk], trivial, h1, h2, by simp [h3]⟩)
    · exact .inr (.inr ⟨false, by rw [hk], trivial, h1, h2, by simp [h3]⟩)

/-- An edge that carries the bit `b` completes with exactly the stages of a classified bit. -/
theorem carriesBit_exec {s : State} {d b : Bool} {t : Nat} (h : s.CarriesBit d t b) :
    exec (edgeInstr d t) s = .next (classifiedBit b (s.elapsedAt t) (State.setLastTs t s.begin)) := by
  obtain ⟨hc, ht, ha, hlo, hz, hb⟩ := h
  rw [exec_edge, perform_next]
  refine ⟨hc, ?_⟩
  have ha' : trigAccepts s.rx d = true := (trigAccepts_iff _ _).2 ha
  unfold edgeStep acceptedEdge
  simp only [State.begin_rx, ha', if_true, State.begin_cfg, timeOperand_of_lt ht, elapsed_eq_elapsedAt]
  cases b with
  | true =>
    have hk : classify s.cfg.zbsCheck (s.elapsedAt t) s.rx.bitMin s.rx.bitMax = .one := by
      have h3 := hb.1 rfl
      rcases classify_cases s.cfg.zbsCheck (s.elapsedAt t) s.rx.bitMin s.rx.bitMax with h | h | h | h
      · omega
      · exact absurd ⟨h.2.2.1, h.2.2.2⟩ hz
      · exact h.1
      · omega
    rw [hk]
  | false =>
    have hk : classify s.cfg.zbsCheck (s.elapsedAt t) s.rx.bitMin s.rx.bitMax = .zero := by
      have h3 : ¬ s.elapsedAt t < s.rx.bitMax := fun hh => by simpa using hb.2 hh
      rcases classify_cases s.cfg.zbsCheck (s.elapsedAt t) s.rx.bitMin s.rx.bitMax with h | h | h | h
      · omega
      · exact absurd ⟨h.2.2.1, h.2.2.2⟩ hz
      · omega
      · exact h.1
    rw [hk]

/-! ### The saturating counter -/

theorem satSucc_of_lt {v : Byte} (h : v.toNat < 255) : satSucc v = v + 1 := by
  apply BitVec.eq_of_toNat_eq
  have h1 : min (v.toNat + 1) 255 = v.toNat + 1 := by omega
  rw [satSucc, h1, BitVec.toNat_ofNat, BitVec.toNat_add]
  rfl

theorem satSucc_toNat (v : Byte) : (satSucc v).toNat = min (v.toNat + 1) 255 := by
  simp only [satSucc, BitVec.toNat_ofNat]; omega

/-! ### The per-state step -/

/-- What the per-state step can do, for each state and bit (40_bit_timing_classifier.md R70 and the rules it selects). -/
theorem perStateStep_cases (b : Bool) (e : Nat) (s : State) :
    (perStateStep b e s = s ∧
      s.rx.state = .waitPreamble) ∨
    (perStateStep b e s = { s with rx := { s.rx with halfBit := .h1, bit1 := e } } ∧
      s.rx.state = .waitStartBit ∧ s.rx.halfBit = .h0 ∧ b = true) ∨
    (perStateStep b e s = { s with rx := { s.rx with halfBit := .h4 } } ∧
      s.rx.state = .waitStartBit ∧ s.rx.halfBit = .h0 ∧ b = false) ∨
    (perStateStep b e s = { s with rx := { s.rx with bit2 := e, halfBit := .h0 } } ∧
      s.rx.state = .waitStartBit ∧ s.rx.halfBit = .h1 ∧ b = true ∧ absDiff e s.rx.bit1 ≤ s.cfg.maxBitDiff) ∨
    (perStateStep b e s = syncFail { s with rx := { s.rx with bit2 := e } } ∧
      s.rx.state = .waitStartBit ∧ s.rx.halfBit = .h1 ∧ b = true ∧ s.cfg.maxBitDiff < absDiff e s.rx.bit1) ∨
    (perStateStep b e s = { s with rx := { s.rx with halfBit := .h3 } } ∧
      s.rx.state = .waitStartBit ∧ s.rx.halfBit = .h1 ∧ b = false) ∨
    (perStateStep b e s = syncFail s ∧
      s.rx.state = .waitStartBit ∧ (s.rx.halfBit = .h3 ∨ s.rx.halfBit = .h4) ∧ b = true) ∨
    (perStateStep b e s = acceptStart true s ∧
      s.rx.state = .waitStartBit ∧ s.rx.halfBit = .h3 ∧ b = false) ∨
    (perStateStep b e s = acceptStart false s ∧
      s.rx.state = .waitStartBit ∧ s.rx.halfBit = .h4 ∧ b = false) ∨
    (perStateStep b e s = s ∧
      s.rx.state = .waitStartBitFull ∧ b = true) ∨
    (perStateStep b e s = acceptStart false s ∧
      s.rx.state = .waitStartBitFull ∧ b = false) ∨
    (perStateStep b e s = { s with rx := shiftIn b s.rx } ∧
      s.rx.state = .waitData ∧ s.rx.bitCount + 1 ≠ 8) ∨
    (perStateStep b e s = dropOversized { s with rx := shiftIn b s.rx } ∧
      s.rx.state = .waitData ∧ s.rx.bitCount + 1 = 8 ∧ s.rx.working.size.toNat = Config.maxLen) ∨
    (perStateStep b e s = State.emit .byte { s with rx := appendByte (shiftIn b s.rx) } ∧
      s.rx.state = .waitData ∧ s.rx.bitCount + 1 = 8 ∧ s.rx.working.size.toNat ≠ Config.maxLen) ∨
    (perStateStep b e s = commit { s with rx := goPreamble s.cfg s.rx } ∧
      s.rx.state = .waitEndBit ∧ b = true ∧ s.rx.checksum = 0) ∨
    (perStateStep b e s = checksumReject { s with rx := goPreamble s.cfg s.rx } ∧
      s.rx.state = .waitEndBit ∧ b = true ∧ s.rx.checksum ≠ 0) ∨
    (perStateStep b e s = dropOversized s ∧
      s.rx.state = .waitEndBit ∧ b = false ∧ s.rx.working.size.toNat = Config.maxLen) ∨
    (perStateStep b e s = { s with rx := { s.rx with state := .waitData, bitCount := 0, tempByte := 0 } } ∧
      s.rx.state = .waitEndBit ∧ b = false ∧ s.rx.working.size.toNat ≠ Config.maxLen) := by
  unfold perStateStep
  cases hs : s.rx.state with
  | waitPreamble => simp [preambleStep]
  | waitStartBit =>
    cases hh : s.rx.halfBit <;> cases b <;> simp [halfBitStep, hh]
    unfold pairOfOnes
    simp only
    split
    · next h => exact .inr ⟨rfl, h⟩
    · next h => exact .inl ⟨rfl, Nat.le_of_not_lt h⟩
  | waitStartBitFull => cases b <;> simp [fullStartStep]
  | waitData =>
    by_cases h8 : s.rx.bitCount + 1#4 = 8#4
    · by_cases h6 : s.rx.working.size.toNat = Config.maxLen <;> simp [dataStep, h8, h6]
    · simp [dataStep, h8]
  | waitEndBit =>
    cases b with
    | false => by_cases h6 : s.rx.working.size.toNat = Config.maxLen <;> simp [endBitStep, h6]
    | true => by_cases hc : s.rx.checksum = 0#8 <;> simp [endBitStep, checksumValid, hc]

/-! ### The post-bit check -/

/-- What the post-bit check can do (42_packet_assembler.md R95, R96). -/
theorem postBitCheck_cases (b : Bool) (s : State) :
    (postBitCheck b s = s ∧
      s.rx.state = .waitStartBit) ∨
    (postBitCheck b s = { s with rx := { s.rx with preambleBitCount := 0 } } ∧
      s.rx.state ≠ .waitStartBit ∧ b = false) ∨
    (postBitCheck b s = { s with rx := { s.rx with preambleBitCount := satSucc s.rx.preambleBitCount } } ∧
      s.rx.state ≠ .waitStartBit ∧ b = true ∧ s.rx.preambleBitCount.toNat ≤ 9) ∨
    (postBitCheck b s = enterStart { s with rx := { s.rx with preambleBitCount := satSucc s.rx.preambleBitCount } } ∧
      s.rx.state ≠ .waitStartBit ∧ b = true ∧ 10 ≤ s.rx.preambleBitCount.toNat) := by
  unfold postBitCheck
  by_cases hs : s.rx.state = .waitStartBit
  · simp [hs]
  · cases b with
    | false => simp [hs]
    | true =>
      have hsat := satSucc_toNat s.rx.preambleBitCount
      by_cases hp : s.rx.preambleBitCount.toNat ≤ 9
      · have h : ¬ Config.preLimit < (satSucc s.rx.preambleBitCount).toNat := by
          rw [hsat]; simp only [Config.preLimit]; omega
        simp [hs, hp, h]
      · have h : Config.preLimit < (satSucc s.rx.preambleBitCount).toNat := by
          rw [hsat]; simp only [Config.preLimit]; omega
        have hp' : 10 ≤ s.rx.preambleBitCount.toNat := by omega
        simp [hs, hp, hp', h]

theorem postBitCheck_sync {b : Bool} {s : State} (h : s.rx.state = .waitStartBit) : postBitCheck b s = s := by
  simp [postBitCheck, h]

theorem postBitCheck_zero {s : State} (h : s.rx.state ≠ .waitStartBit) :
    postBitCheck false s = { s with rx := { s.rx with preambleBitCount := 0 } } := by
  simp [postBitCheck, h]

theorem postBitCheck_one {s : State} (h : s.rx.state ≠ .waitStartBit) (hp : s.rx.preambleBitCount.toNat ≤ 9) :
    postBitCheck true s = { s with rx := { s.rx with preambleBitCount := s.rx.preambleBitCount + 1 } } := by
  have h1 : satSucc s.rx.preambleBitCount = s.rx.preambleBitCount + 1 := satSucc_of_lt (by omega)
  have h2 : ¬ Config.preLimit < (s.rx.preambleBitCount + 1).toNat := by
    rw [← h1, satSucc_toNat]; simp only [Config.preLimit]; omega
  simp only [postBitCheck, h, h1, h2, if_true, if_false]

/-- More than `PRE_LIMIT` ones enter a start-bit state. -/
theorem postBitCheck_preamble {s : State} (h : s.rx.state ≠ .waitStartBit) (hp : 10 ≤ s.rx.preambleBitCount.toNat) :
    postBitCheck true s =
      enterStart { s with rx := { s.rx with preambleBitCount := satSucc s.rx.preambleBitCount } } := by
  have h2 : Config.preLimit < (satSucc s.rx.preambleBitCount).toNat := by
    rw [satSucc_toNat]; simp only [Config.preLimit]; omega
  simp only [postBitCheck, h, h2, if_true, if_false]

/-! ### What no edge touches -/

theorem perStateStep_frame (b : Bool) (e : Nat) (s : State) :
    (perStateStep b e s).cfg = s.cfg ∧ (perStateStep b e s).inp = s.inp ∧
      (perStateStep b e s).out.resp = s.out.resp := by
  rcases perStateStep_cases b e s with h | h | h | h | h | h | h | h | h | h | h | h | h | h | h | h | h | h <;>
    (rw [h.1]; simp)

theorem postBitCheck_frame (b : Bool) (s : State) :
    (postBitCheck b s).cfg = s.cfg ∧ (postBitCheck b s).inp = s.inp ∧ (postBitCheck b s).box = s.box ∧
      (postBitCheck b s).diag = s.diag ∧ (postBitCheck b s).out.resp = s.out.resp ∧
      (postBitCheck b s).out.notify = s.out.notify := by
  rcases postBitCheck_cases b s with h | h | h | h <;> (rw [h.1]; simp)

theorem classifiedBit_frame (b : Bool) (e : Nat) (s : State) :
    (classifiedBit b e s).cfg = s.cfg ∧ (classifiedBit b e s).inp = s.inp ∧
      (classifiedBit b e s).out.resp = s.out.resp := by
  unfold classifiedBit
  obtain ⟨k1, k2, k3⟩ := perStateStep_frame b e (if b then (s.emit .bit).emit .bitVal else s.emit .bit)
  obtain ⟨h1, h2, -, -, h3, -⟩ :=
    postBitCheck_frame b (perStateStep b e (if b then (s.emit .bit).emit .bitVal else s.emit .bit))
  rw [h1, h2, h3, k1, k2, k3]
  cases b <;> simp

theorem edgeStep_frame (d : Bool) (t : Nat) (s : State) :
    (edgeStep d t s).cfg = s.cfg ∧ (edgeStep d t s).inp = s.inp ∧ (edgeStep d t s).out.resp = none := by
  obtain ⟨h, -⟩ | ⟨h, -⟩ | ⟨h, -⟩ | ⟨b, h, -⟩ := edgeStep_cases d t s <;> rw [h]
  · simp
  · simp
  · simp
  · simpa using classifiedBit_frame b (elapsed s.cfg s.rx (timeOperand s.cfg.tw t)) (s.atEdge t)

/-! ### The whole edge -/

/-- The state the per-state step of a bit `b` starts from: the time reference moved, the events BIT and BITVAL set. -/
def State.atBit (b : Bool) (t : Nat) (s : State) : State :=
  { s with
    rx := { s.rx with lastTs := timeOperand s.cfg.tw t }
    out := { ev := if b then Event.bit.mask ||| Event.bitVal.mask else Event.bit.mask, resp := none, notify := false } }

@[simp] theorem State.atBit_cfg (b : Bool) (t : Nat) (s : State) : (State.atBit b t s).cfg = s.cfg := rfl
@[simp] theorem State.atBit_rx (b : Bool) (t : Nat) (s : State) :
    (State.atBit b t s).rx = { s.rx with lastTs := timeOperand s.cfg.tw t } := rfl
@[simp] theorem State.atBit_box (b : Bool) (t : Nat) (s : State) : (State.atBit b t s).box = s.box := rfl
@[simp] theorem State.atBit_diag (b : Bool) (t : Nat) (s : State) : (State.atBit b t s).diag = s.diag := rfl
@[simp] theorem State.atBit_inp (b : Bool) (t : Nat) (s : State) : (State.atBit b t s).inp = s.inp := rfl
@[simp] theorem State.atBit_ev (b : Bool) (t : Nat) (s : State) :
    (State.atBit b t s).out.ev = if b then Event.bit.mask ||| Event.bitVal.mask else Event.bit.mask := rfl
@[simp] theorem State.atBit_resp (b : Bool) (t : Nat) (s : State) : (State.atBit b t s).out.resp = none := rfl
@[simp] theorem State.atBit_notify (b : Bool) (t : Nat) (s : State) : (State.atBit b t s).out.notify = false := rfl

theorem classifiedBit_eq (b : Bool) (e t : Nat) (s : State) :
    classifiedBit b e (s.atEdge t) = postBitCheck b (perStateStep b e (State.atBit b t s)) := by
  have h : (if b then ((s.atEdge t).emit .bit).emit .bitVal else (s.atEdge t).emit .bit) = State.atBit b t s := by
    cases b <;> simp [State.atBit, State.emit, State.setLastTs, State.begin, Outputs.quiet]
  rw [← h]
  rfl

/-- What an EDGE transaction that answers a next state has done. With `perStateStep_cases` and `postBitCheck_cases`
this says everything it can do. -/
theorem exec_edge_cases {d : Bool} {t : Nat} {s u : State} (h : exec (edgeInstr d t) s = .next u) :
    s.cfg.inRange = true ∧
    (u = s.begin.emit .filtered ∨ u = (s.begin.emit .glitch).countGlitch ∨ u = rejectOutOfRange (s.atEdge t) ∨
      ∃ b e, e < 2 ^ s.cfg.tw ∧ u = postBitCheck b (perStateStep b e (State.atBit b t s))) := by
  rw [exec_edge, perform_next] at h
  obtain ⟨hc, rfl⟩ := h
  refine ⟨hc, ?_⟩
  obtain ⟨h, -⟩ | ⟨h, -⟩ | ⟨h, -⟩ | ⟨b, h, -⟩ := edgeStep_cases d t s <;> rw [h]
  · exact .inl rfl
  · exact .inr (.inl rfl)
  · exact .inr (.inr (.inl rfl))
  · exact .inr (.inr (.inr ⟨b, _, elapsed_lt _ _ _, classifiedBit_eq _ _ _ _⟩))

end Sys2Proof.Machine
end

