-- ==== Sys2Proof/Laws/PerInstr.lean ====
section
/-! SUPPORT. The statement made for every instruction, one lemma per constructor. -/

namespace Sys2Proof.Laws

open Sys2Proof

/-- The word of a well-formed instruction fits in the `TW + 4` bits of the format (30_encoding.md R47). -/
def EncodeFits.Statement (i : Instr) : Prop := ∀ tw : Nat, i.wf tw = true → encode tw i < 2 ^ (tw + 4)

/-- The fields of 30_encoding.md R47 fill at most `TW + 4` bits. -/
theorem encodeFields_lt (tw : Nat) (op : BitVec 2) (d : Bool) (t : Nat) (h : t < 2 ^ tw) :
    encodeFields tw op d t < 2 ^ (tw + 4) := by
  have hop : op.toNat < 4 := op.isLt
  have hd : d.toNat < 2 := by cases d <;> decide
  have h1 : 2 ^ (tw + 2) = 4 * 2 ^ tw := by ring
  have h2 : 2 ^ (tw + 4) = 16 * 2 ^ tw := by ring
  rw [encodeFields, h1, h2]
  nlinarith

theorem EncodeFits.idle : EncodeFits.Statement .idle := fun tw _ => encodeFields_lt tw _ _ _ (by positivity)

theorem EncodeFits.edgeF (t : Nat) : EncodeFits.Statement (.edgeF t) := fun tw h =>
  encodeFields_lt tw _ _ _ (by simpa [Instr.wf] using h)

theorem EncodeFits.edgeR (t : Nat) : EncodeFits.Statement (.edgeR t) := fun tw h =>
  encodeFields_lt tw _ _ _ (by simpa [Instr.wf] using h)

theorem EncodeFits.poll : EncodeFits.Statement .poll := fun tw _ => encodeFields_lt tw _ _ _ (by positivity)

theorem EncodeFits.reset : EncodeFits.Statement .reset := fun tw _ => encodeFields_lt tw _ _ _ (by positivity)

end Sys2Proof.Laws
end

