-- ==== Sys2Proof/Laws/Runs.lean ====
section
/-! SUPPORT. What a run of bits can do before its first bit, and how it splits. -/

namespace Sys2Proof.Machine

open Sys2Proof

@[simp] theorem Mailbox.polled_handoff (b : Mailbox) (n : Nat) : (b.polled n).handoff = b.handoff := rfl
@[simp] theorem Mailbox.polled_dataReady (b : Mailbox) (n : Nat) : (b.polled n).dataReady = (b.dataReady && n == 0) := rfl
@[simp] theorem Mailbox.polled_zero (b : Mailbox) : b.polled 0 = b := by simp [Mailbox.polled]

theorem Mailbox.polled_polled (b : Mailbox) (m n : Nat) : (b.polled m).polled n = b.polled (m + n) := by
  cases m <;> cases n <;> simp [Mailbox.polled, Nat.add_eq_zero_iff]

@[simp] theorem Diag.glitched_overflowCnt (d : Diag) (c : Config) (n : Nat) :
    (d.glitched c n).overflowCnt = d.overflowCnt := rfl
@[simp] theorem Diag.glitched_csumErrCnt (d : Diag) (c : Config) (n : Nat) :
    (d.glitched c n).csumErrCnt = d.csumErrCnt := rfl
@[simp] theorem Diag.glitched_zero (d : Diag) (c : Config) : d.glitched c 0 = d := by
  simp [Diag.glitched]

theorem Diag.glitched_glitched (d : Diag) (c : Config) (m n : Nat) :
    (d.glitched c m).glitched c n = d.glitched c (m + n) := by
  unfold Diag.glitched
  cases c.diag <;> simp [BitVec.ofNat_add, BitVec.add_assoc]

/-- What no transaction before the first bit of a run changes: two states that agree but for the outputs, the POLLs'
clearing of `dataReady` and the glitch tally. -/
structure Untouched (polls glitches : Nat) (s u : State) : Prop where
  cfg : u.cfg = s.cfg
  rx : u.rx = s.rx
  box : u.box = s.box.polled polls
  diag : u.diag = s.diag.glitched s.cfg glitches
  inp : u.inp = s.inp

theorem Untouched.refl (s : State) : Untouched 0 0 s s := ⟨rfl, rfl, by simp, by simp, rfl⟩

theorem Untouched.trans {p g p' g' : Nat} {s u v : State} (h : Untouched p g s u) (h' : Untouched p' g' u v) :
    Untouched (p + p') (g + g') s v :=
  ⟨h'.cfg.trans h.cfg, h'.rx.trans h.rx, by rw [h'.box, h.box, Mailbox.polled_polled],
    by rw [h'.diag, h.diag, h.cfg, Diag.glitched_glitched], h'.inp.trans h.inp⟩

theorem untouched_idle {s u : State} (h : exec .idle s = .next u) : Untouched 0 0 s u := by
  rw [exec_idle, perform_next] at h
  obtain ⟨-, rfl⟩ := h
  exact ⟨rfl, rfl, by simp, by simp, rfl⟩

theorem untouched_poll {s u : State} (h : exec .poll s = .next u) : Untouched 1 0 s u := by
  rw [exec_poll, perform_next, pollMailbox_eq] at h
  obtain ⟨-, rfl⟩ := h
  exact ⟨rfl, rfl, by simp [Mailbox.polled], by simp, rfl⟩

theorem untouched_filtered {s u : State} {d : Bool} {τ : Nat} (hf : s.Filters d τ)
    (h : exec (edgeInstr d τ) s = .next u) : Untouched 0 0 s u := by
  have ha : ¬ trigAccepts s.rx d = true := fun hh => hf.2 ((trigAccepts_iff _ _).1 hh)
  rw [exec_edge, perform_next] at h
  obtain ⟨-, rfl⟩ := h
  obtain ⟨h, -⟩ | ⟨-, h, -⟩ | ⟨-, h, -⟩ | ⟨b, -, h, -⟩ := edgeStep_cases d τ s
  · rw [h]; exact ⟨rfl, rfl, by simp, by simp, rfl⟩
  all_goals exact absurd h ha

theorem untouched_glitch {s u : State} {d : Bool} {τ : Nat} (hg : s.Glitches d τ)
    (h : exec (edgeInstr d τ) s = .next u) : Untouched 0 1 s u := by
  obtain ⟨ht, hacc, hlt⟩ := hg
  have ha : trigAccepts s.rx d = true := (trigAccepts_iff _ _).2 hacc
  have he : elapsed s.cfg s.rx (timeOperand s.cfg.tw τ) = s.elapsedAt τ := by
    rw [timeOperand_of_lt ht, elapsed_eq_elapsedAt]
  rw [exec_edge, perform_next] at h
  obtain ⟨-, rfl⟩ := h
  obtain ⟨-, h⟩ | ⟨h, -⟩ | ⟨-, -, -, h, -⟩ | ⟨b, -, -, h, -⟩ := edgeStep_cases d τ s
  · rw [ha] at h; cases h
  · rw [h]; exact ⟨rfl, rfl, by simp, rfl, rfl⟩
  all_goals omega

/-- A run of bits, taken apart at the edge of its first bit `b`: what comes before that edge leaves the block alone. -/
def FirstBitFed (b : Bool) (bs : List Bool) (polls glitches : Nat) (s t : State) : Prop :=
  ∃ p₁ g₁ p₂ g₂ u d τ v, Untouched p₁ g₁ s u ∧ u.CarriesBit d τ b ∧ exec (edgeInstr d τ) u = .next v ∧
    BitsFed bs p₂ g₂ v t ∧ polls = p₁ + p₂ ∧ glitches = g₁ + g₂

theorem FirstBitFed.after {b : Bool} {bs : List Bool} {p₀ g₀ p g : Nat} {r s t : State} (h₀ : Untouched p₀ g₀ r s)
    (h : FirstBitFed b bs p g s t) : FirstBitFed b bs (p₀ + p) (g₀ + g) r t := by
  obtain ⟨p₁, g₁, p₂, g₂, u, d, τ, v, h₁, hc, he, hr, rfl, rfl⟩ := h
  exact ⟨p₀ + p₁, g₀ + g₁, p₂, g₂, u, d, τ, v, h₀.trans h₁, hc, he, hr, by omega, by omega⟩

/-- Everything a run of bits does up to and with its first bit. -/
theorem bitsFed_cons {b : Bool} {bs : List Bool} {p g : Nat} {s t : State} (h : BitsFed (b :: bs) p g s t) :
    FirstBitFed b bs p g s t := by
  generalize hl : b :: bs = l at h
  induction h with
  | done => cases hl
  | bit hc he hr => cases hl; exact ⟨0, 0, _, _, _, _, _, _, Untouched.refl _, hc, he, hr, by omega, by omega⟩
  | idle he _ ih => cases hl; simpa using (ih rfl).after (untouched_idle he)
  | poll he _ ih => cases hl; simpa [Nat.add_comm] using (ih rfl).after (untouched_poll he)
  | filtered hf he _ ih => cases hl; simpa using (ih rfl).after (untouched_filtered hf he)
  | glitch hg he _ ih => cases hl; simpa [Nat.add_comm] using (ih rfl).after (untouched_glitch hg he)

/-- A run of no bit is no transaction at all. -/
theorem bitsFed_nil {p g : Nat} {s t : State} (h : BitsFed [] p g s t) : p = 0 ∧ g = 0 ∧ t = s := by
  cases h
  exact ⟨rfl, rfl, rfl⟩

/-- A run of bits splits between any two of its bits. -/
theorem bitsFed_append {xs ys : List Bool} {p g : Nat} {s t : State} (h : BitsFed (xs ++ ys) p g s t) :
    ∃ p₁ g₁ p₂ g₂ u, BitsFed xs p₁ g₁ s u ∧ BitsFed ys p₂ g₂ u t ∧ p = p₁ + p₂ ∧ g = g₁ + g₂ := by
  generalize hl : xs ++ ys = l at h
  induction h generalizing xs with
  | done s =>
    obtain ⟨rfl, rfl⟩ := List.append_eq_nil_iff.1 hl
    exact ⟨0, 0, 0, 0, s, .done s, .done s, rfl, rfl⟩
  | @bit b bs p g d τ s u t hc he hr ih =>
    cases xs with
    | nil => cases hl; exact ⟨0, 0, p, g, s, .done s, .bit hc he hr, by omega, by omega⟩
    | cons x xs =>
      cases hl
      obtain ⟨p₁, g₁, p₂, g₂, v, h₁, h₂, rfl, rfl⟩ := ih rfl
      exact ⟨p₁, g₁, p₂, g₂, v, .bit hc he h₁, h₂, rfl, rfl⟩
  | @idle b bs p g s u t he hr ih =>
    cases xs with
    | nil => cases hl; exact ⟨0, 0, p, g, s, .done s, .idle he hr, by omega, by omega⟩
    | cons x xs =>
      cases hl
      obtain ⟨p₁, g₁, p₂, g₂, v, h₁, h₂, rfl, rfl⟩ := ih (xs := b :: xs) rfl
      exact ⟨p₁, g₁, p₂, g₂, v, .idle he h₁, h₂, rfl, rfl⟩
  | @poll b bs p g s u t he hr ih =>
    cases xs with
    | nil => cases hl; exact ⟨0, 0, p + 1, g, s, .done s, .poll he hr, by omega, by omega⟩
    | cons x xs =>
      cases hl
      obtain ⟨p₁, g₁, p₂, g₂, v, h₁, h₂, rfl, rfl⟩ := ih (xs := b :: xs) rfl
      exact ⟨p₁ + 1, g₁, p₂, g₂, v, .poll he h₁, h₂, by omega, rfl⟩
  | @filtered b bs p g d τ s u t hf he hr ih =>
    cases xs with
    | nil => cases hl; exact ⟨0, 0, p, g, s, .done s, .filtered hf he hr, by omega, by omega⟩
    | cons x xs =>
      cases hl
      obtain ⟨p₁, g₁, p₂, g₂, v, h₁, h₂, rfl, rfl⟩ := ih (xs := b :: xs) rfl
      exact ⟨p₁, g₁, p₂, g₂, v, .filtered hf he h₁, h₂, rfl, rfl⟩
  | @glitch b bs p g d τ s u t hg he hr ih =>
    cases xs with
    | nil => cases hl; exact ⟨0, 0, p, g + 1, s, .done s, .glitch hg he hr, by omega, by omega⟩
    | cons x xs =>
      cases hl
      obtain ⟨p₁, g₁, p₂, g₂, v, h₁, h₂, rfl, rfl⟩ := ih (xs := b :: xs) rfl
      exact ⟨p₁, g₁ + 1, p₂, g₂, v, .glitch hg he h₁, h₂, rfl, by omega⟩

end Sys2Proof.Machine
end

