-- ==== Sys2Proof/Tests/Slice0.lean ====
section
/-! SUPPORT. Own tests. Expected values come from spec/95_test_vectors.md (V… and section numbers) or from the rule
named. The witnesses at the end show states and operands that meet the hypotheses of the obligations. -/

open Sys2Proof Sys2Proof.Machine

namespace Sys2Proof.Tests

/-! ### Helpers -/

/-- The reset state (R0) with other receiver registers. -/
def withRx (f : Receiver → Receiver) : State := { State.reset with rx := f State.reset.rx }

/-- The state with other toggles and thresholds. -/
def withCfg (f : Config → Config) (s : State) : State := { s with cfg := f s.cfg }

/-- The state after a transaction (the same state where it has no meaning). -/
def after (i : Instr) (s : State) : State :=
  match exec i s with
  | .next t => t
  | _ => s

/-- R0 with one word issued by an agent. -/
def issued (a : Agent) (w : Nat) : State := { State.reset with inp := Inputs.empty.push a w }

/-- R0 + WSB, HALF thresholds, pbc 11 (95_test_vectors.md section 2.3). -/
def inSync (h : HalfBit) (bit1 last : Nat) : State :=
  withRx fun r => { r with
    state := .waitStartBit, halfBit := h, bitMin := 35, bitMax := 82, preambleBitCount := 11, bit1 := bit1
    lastTs := last }

/-- R0 + WSBF, `SYNC_ALWAYS = 0` (95_test_vectors.md section 2.4). -/
def inFull : State :=
  withCfg (fun c => { c with syncAlways := false })
    (withRx fun r => { r with state := .waitStartBitFull, preambleBitCount := 11, lastTs := 5000 })

/-- R0 + WD or WE with `wData = data`, `wSize = size` and the running checksum (95_test_vectors.md section 2.5). -/
def inBytes (st : RxState) (count : BitVec 4) (size : BitVec 3) (sum : Byte) (data : Vector Byte 6) (last : Nat) : State :=
  withRx fun r => { r with
    state := st, bitCount := count, checksum := sum, lastTs := last
    working := { size := size, preambleBits := 11, data := data } }

/-- The start of V2.5.4: the last byte of W1's packet is complete. -/
def atStop : State := inBytes .waitEndBit 8 3 0 #v[3, 0, 3, 0, 0, 0] 7456

/-- The mailbox of V2.7.2. -/
def mailed : State :=
  { State.reset with
    box := { handoff := { size := 3, preambleBits := 11, data := #v[3, 0, 3, 0, 0, 0] }, dataReady := true } }

/-- The direction and time of an edge. -/
def edgeOf : Instr → Option (Bool × Nat)
  | .edgeF τ => some (false, τ)
  | .edgeR τ => some (true, τ)
  | _ => none

/-- The state after a list of transactions. -/
def runEnd : List Instr → State → State
  | [], s => s
  | i :: is, s => runEnd is (after i s)

/-- Whether the transactions carry exactly these bits, with nothing else but IDLEs, POLLs, filtered edges and glitches
before each bit. -/
def fedOk : List Bool → List Instr → State → Bool
  | bs, [], _ => bs.isEmpty
  | [], _ :: _, _ => false
  | b :: bs, i :: is, s =>
    s.cfg.inRange &&
    match edgeOf i with
    | none => (i == .idle || i == .poll) && fedOk (b :: bs) is (after i s)
    | some (d, τ) =>
      if s.CarriesBit d τ b then fedOk bs is (after i s)
      else (decide (s.Filters d τ) || decide (s.Glitches d τ)) && fedOk (b :: bs) is (after i s)

/-- Rising edges spaced as ones (116) and zeros (200) after a time. -/
def spaced : Nat → List Bool → List Instr
  | _, [] => []
  | t, b :: bs =>
    let t' := t + (if b then 116 else 200)
    .edgeR t' :: spaced t' bs

/-- As `spaced`, with an IDLE, a POLL, a filtered edge and a glitch before each bit. -/
def disturbed : Nat → List Bool → List Instr
  | _, [] => []
  | t, b :: bs =>
    let t' := t + (if b then 116 else 200)
    .idle :: .poll :: .edgeF (t + 10) :: .edgeR (t + 20) :: .edgeR t' :: disturbed t' bs

/-- The transactions of a listing statement and the boundary edge after them (30_encoding.md R58). -/
def streamOf (p : Bool) (n : Nat) (bytes : List Byte) : List Instr :=
  match assemble 32 none [.packet p (.num 1000) n bytes, .edge p .running] with
  | .ok is => is
  | .error _ => []

theorem exec_after (i : Instr) {s : State} (h : s.cfg.inRange = true) : exec i s = .next (after i s) := by
  obtain ⟨t, ht⟩ := exec_completes i s h
  simp only [after, ht]

theorem edgeOf_eq {i : Instr} {d : Bool} {τ : Nat} (h : edgeOf i = some (d, τ)) : i = edgeInstr d τ := by
  cases i <;> cases h <;> rfl

theorem bitsFed_of_fedOk {bs : List Bool} {is : List Instr} {s : State} (h : fedOk bs is s = true) :
    ∃ polls glitches, BitsFed bs polls glitches s (runEnd is s) := by
  induction is generalizing bs s with
  | nil =>
    cases bs with
    | nil => exact ⟨0, 0, .done s⟩
    | cons b bs => cases h
  | cons i is ih =>
    cases bs with
    | nil => cases h
    | cons b bs =>
      simp only [fedOk, Bool.and_eq_true] at h
      obtain ⟨hc, h⟩ := h
      have hx := exec_after i hc
      cases he : edgeOf i with
      | none =>
        simp only [he, Bool.and_eq_true, Bool.or_eq_true, beq_iff_eq] at h
        obtain ⟨hi, h⟩ := h
        obtain ⟨p, g, hr⟩ := ih h
        obtain rfl | rfl := hi
        · exact ⟨p, g, .idle hx hr⟩
        · exact ⟨p + 1, g, .poll hx hr⟩
      | some x =>
        obtain ⟨d, τ⟩ := x
        obtain rfl := edgeOf_eq he
        simp only [he] at h
        split at h
        · next hb =>
          obtain ⟨p, g, hr⟩ := ih h
          exact ⟨p, g, .bit hb hx hr⟩
        · simp only [Bool.and_eq_true, Bool.or_eq_true, decide_eq_true_eq] at h
          obtain ⟨hi, h⟩ := h
          obtain ⟨p, g, hr⟩ := ih h
          obtain hf | hg := hi
          · exact ⟨p, g, .filtered hf hx hr⟩
          · exact ⟨p, g + 1, .glitch hg hx hr⟩

/-- Every transaction of a list meets parameters in range; the number of classified bits. -/
def runOk : List Instr → State → Bool
  | [], _ => true
  | i :: is, s => s.cfg.inRange && runOk is (after i s)

/-- See `runOk`. -/
def runBits : List Instr → State → Nat
  | [], _ => 0
  | i :: is, s => runBits is (after i s) + (Event.isIn .bit (after i s).out.ev).toNat

theorem countedRun_of_runOk {n : Nat} {is : List Instr} {s : State} (h : runOk is s = true) (hn : runBits is s = n) :
    CountedRun n is s (runEnd is s) := by
  induction is generalizing n s with
  | nil => exact ⟨hn.symm, rfl⟩
  | cons i is ih =>
    simp only [runOk, Bool.and_eq_true] at h
    exact ⟨_, _, exec_after i h.1, hn.symm, ih h.2 rfl⟩

/-! ### Decoding: the words of section 2.1, and every reserved form of R51 -/

theorem test_decode_idle : decodeTableWord 40 0x000000000 = some .idle := by decide
theorem test_decode_edgeF : decodeTableWord 40 0x400000422 = some (.edgeF 1058) := by decide
theorem test_decode_edgeF_bounds :
    decodeTableWord 40 0x400000000 = some (.edgeF 0) ∧ decodeTableWord 40 0x4FFFFFFFF = some (.edgeF 4294967295) := by
  decide
theorem test_decode_edgeR : decodeTableWord 40 0x50000045C = some (.edgeR 1116) := by decide
theorem test_decode_edgeR_bounds :
    decodeTableWord 40 0x500000000 = some (.edgeR 0) ∧ decodeTableWord 40 0x5FFFFFFFF = some (.edgeR 4294967295) := by
  decide
theorem test_decode_poll : decodeTableWord 40 0x800000000 = some .poll := by decide
theorem test_decode_reset : decodeTableWord 40 0xC00000000 = some .reset := by decide

theorem test_decode_reserved :
    [0x000000001, 0x100000000, 0x200000000, 0x600000000, 0x700000123, 0x800000400, 0x900000000, 0xA00000000,
      0xC80000000, 0xD00000000, 0xE00000000, 0xF00000000].map (decodeTableWord 40) = List.replicate 12 none := by
  decide

/-- By name (30_encoding.md R51); the last number is no 36-bit word. -/
theorem test_decode_refuses_by_name :
    decode 32 0x600000000 = .error .rsvSet ∧ decode 32 0xD00000000 = .error .operandNonzero ∧
    decode 32 0x1000000000 = .error .tooWide := ⟨rfl, rfl, rfl⟩

theorem test_encode :
    encode 32 .idle = 0x000000000 ∧ encode 32 (.edgeF 0x496) = 0x400000496 ∧ encode 32 (.edgeR 0x3E8) = 0x5000003E8 ∧
    encode 32 .poll = 0x800000000 ∧ encode 32 .reset = 0xC00000000 := by decide

/-! ### Well-formedness smoke: one ill-formed term for each check -/

theorem test_wf_refuses_wide_edgeF : (Instr.edgeF 4294967296).wf 32 = false := by decide
theorem test_wf_refuses_wide_edgeR : (Instr.edgeR 4294967296).wf 32 = false := by decide
theorem test_wf_accepts : (Instr.edgeR 4294967295).wf 32 = true ∧ Instr.idle.wf 32 = true := by decide
theorem test_config_refuses_tw_zero : ({ Config.ref with tw := 0 } : Config).inRange = false := by decide
theorem test_config_refuses_wide_threshold :
    ({ Config.ref with pre := { lo := 4294967296, hi := 146 } } : Config).inRange = false ∧
    ({ Config.ref with half := { lo := 35, hi := 4294967296 } } : Config).inRange = false ∧
    ({ Config.ref with full := { lo := 4294967296, hi := 0 } } : Config).inRange = false := by decide
theorem test_config_refuses_wide_bitdiff : ({ Config.ref with maxBitDiff := 4294967296 } : Config).inRange = false := by
  decide
/-- 00_scope.md R5: a minimum above its maximum is a legal choice. -/
theorem test_config_accepts_crossed : ({ Config.ref with pre := { lo := 150, hi := 100 } } : Config).inRange = true := by
  decide

/-! ### One transaction -/

/-- V2.2.14: the elapsed time wraps. -/
theorem test_edgeR_wraps :
    let t := after (.edgeR 0x34) (withRx fun r => { r with lastTs := 0xFFFFFFC0 })
    t.out.ev = 0x0018 ∧ t.rx.lastTs = 52 ∧ t.rx.preambleBitCount = 1 := by decide

/-- V2.3.10: a start bit half a bit out of phase toggles the polarity. -/
theorem test_edgeR_flips :
    let t := after (.edgeR 2550) (inSync .h3 58 2450)
    t.out.ev = 0x00C8 ∧ t.rx.edgePolarity = false ∧ t.trigModeOut = 0b01 ∧ t.rx.working.preambleBits = 11 := by decide

/-- V2.2.11: the trigger filter. -/
theorem test_edgeF_filtered :
    let t := after (.edgeF 1116) (withRx fun r => { r with lastTs := 1000 })
    t.out.ev = 0x0001 ∧ t.rx.lastTs = 1000 := by decide

/-- V2.3.8: two half-bits of a one that differ by 25 lose synchronisation; the second counts as a one. -/
theorem test_edgeF_syncFail :
    let t := after (.edgeF 2457) (inSync .h1 40 2392)
    t.out.ev = 0x0038 ∧ t.rx.state = .waitPreamble ∧ t.rx.bit2 = 65 ∧ t.rx.preambleBitCount = 1 := by decide

/-- V2.7.2, V2.7.3. -/
theorem test_poll_reads_and_clears :
    let t := after .poll mailed
    t.out.resp = some 0x830B000000030003 ∧ t.box.dataReady = false ∧ (after .poll t).out.resp = some 0 := by decide

/-- V2.7.5: bytes beyond SIZE are returned as held. -/
theorem test_poll_returns_all_lanes :
    (after .poll { mailed with
      box := { handoff := { size := 1, preambleBits := 0, data := #v[0, 0xAA, 0xBB, 0xCC, 0xDD, 0xEE] }
               dataReady := true } }).out.resp = some 0x8100EEDDCCBBAA00 := by decide

/-- V2.7.6, after V2.5.5. -/
theorem test_idle_clears_events :
    let s := after (.edgeR 7572) { atStop with box := { State.reset.box with dataReady := true } }
    s.out.ev = 0x1818 ∧ (after .idle s).out.ev = 0 ∧ (after .idle s).box = s.box := by decide

/-- V2.7.7. -/
theorem test_reset_restores :
    let s := after (.edgeR 7572) (inBytes .waitEndBit 8 3 1 #v[3, 0, 2, 0, 0, 0] 7456)
    s.out.ev = 0x0418 ∧ s.diag.csumErrCnt = 1 ∧ after .reset s = State.reset := by decide

/-! ### Listings -/

/-- Lines 2 and 3 of P1. -/
theorem test_printWord :
    printWord 32 0x50000045C = "0x50000045C EDGE.R 1116".toList ∧
    printWord 32 0x600000000 = ".word 0x600000000 ; reserved".toList := by decide

/-- 30_encoding.md R57: a hexadecimal operand, a label, a comment, an operand out of range. -/
theorem test_assembleText :
    assembleText 32 "start: EDGE.R 0x45C ; one\nPOLL".toList = .ok [0x50000045C, 0x800000000] ∧
    assembleText 32 "EDGE.F 4294967296".toList = .error .operandRange := ⟨rfl, rfl⟩

/-- P1: the first edges of a one and of a zero, and the time after them. -/
theorem test_assemble_wave :
    assembleText 32 "WAVE R, 1000, 10\nEDGE.R $".toList =
      .ok [0x5000003E8, 0x400000422, 0x50000045C, 0x4000004C0, 0x500000524] := rfl

/-- W7: the bits of the worked example; W2: the checksum byte. -/
theorem test_packet_bits :
    packetBits 2 [3, 0] = [true, true, false, false, false, false, false, false, false, true, true, false,
      false, false, false, false, false, false, false, false, true] ∧
    withChecksum [0x87, 0x89] = [0x87, 0x89, 0x0E] := by decide

/-! ### Witnesses: the hypotheses of the obligations can be met -/

theorem witness_DecodeOfEncode :
    (1 ≤ 32 ∧ (Instr.edgeR 4294967295).wf 32 = true) ∧ (1 ≤ 1 ∧ (Instr.edgeF 1).wf 1 = true) := by decide

theorem witness_EncodeOfDecode : decode 32 0x5FFFFFFFF = .ok (.edgeR 4294967295) := rfl

/-- RSV alone; the lowest and the highest operand bit of an OP other than 01; and two legal words. -/
theorem witness_ReservedWords :
    (∀ w ∈ [0x200000000, 0x600000000, 0x000000001, 0x900000000],
      (issued .host w).inp.turns = [.host] ∧ (issued .host w).inp.pendingOf .host = [w] ∧ w < 2 ^ (32 + 4) ∧
      (w.testBit 33 = true ∨
        (¬ (w.testBit 35 = false ∧ w.testBit 34 = true) ∧ ∃ k, k ≤ 32 ∧ w.testBit k = true))) ∧
    (∀ w ∈ [0x800000000, 0x5FFFFFFFF],
      (issued .host w).inp.turns = [.host] ∧ (issued .host w).inp.pendingOf .host = [w] ∧ w < 2 ^ (32 + 4) ∧
      ¬ (w.testBit 33 = true ∨
        (¬ (w.testBit 35 = false ∧ w.testBit 34 = true) ∧ ∃ k, k ≤ 32 ∧ w.testBit k = true))) := by decide

theorem witness_StepRunsTheDecodedTransaction :
    (issued .edgeSource 0x50000045C).inp.turns = [.edgeSource] ∧
    (issued .edgeSource 0x50000045C).inp.pendingOf .edgeSource = [0x50000045C] ∧
    decode 32 0x50000045C = .ok (.edgeR 1116) ∧ mayIssue .edgeSource (.edgeR 1116) = true := ⟨rfl, rfl, rfl, rfl⟩

theorem witness_ForeignTransactions :
    (∀ w ∈ [0x800000000, 0xC00000000],
      (issued .edgeSource w).inp.turns = [.edgeSource] ∧ (issued .edgeSource w).inp.pendingOf .edgeSource = [w]) ∧
    (∀ w ∈ [0x400000000, 0x500000000],
      (issued .host w).inp.turns = [.host] ∧ (issued .host w).inp.pendingOf .host = [w]) ∧
    decode 32 0x800000000 = .ok .poll ∧ decode 32 0xC00000000 = .ok .reset ∧
    decode 32 0x400000000 = .ok (.edgeF 0) ∧ decode 32 0x500000000 = .ok (.edgeR 0) :=
  ⟨by decide, by decide, rfl, rfl, rfl, rfl⟩

theorem witness_CycleWithoutWord :
    State.reset.cfg.inRange = true ∧ State.reset.inp.turns = [] ∧
    ({ State.reset.inp with turns := [.host] } : Inputs).pendingOf .host = [] := by decide

theorem witness_FetchWord : State.reset.cfg.tw = 32 ∧ decodeTableWord 40 0x50000045C = some (.edgeR 1116) := by decide

/-- Each of the three outcomes, and parameters that are refused. -/
theorem witness_StepStops :
    step (issued .host 0x800000000) = .next (after .poll State.reset) ∧
    step (issued .host 0x800000400) = .refused .reservedEncoding ∧
    step (issued .host 0x500000000) = .refused .foreignTransaction ∧
    (withCfg (fun c => { c with tw := 0 }) State.reset).cfg.inRange = false := ⟨rfl, rfl, rfl, by decide⟩

theorem witness_StepKeepsParameters :
    step (issued .edgeSource 0x500000064) = .next (after (.edgeR 100) State.reset) ∧
    step State.reset = .next State.reset := ⟨rfl, rfl⟩

/-- The four classes at the boundaries of a crossed and of an ordinary pair (V2.2.18, section 2.2). -/
theorem witness_Classifier :
    classify true 81 82 146 = .glitch ∧ classify true 82 82 146 = .one ∧ classify true 146 82 146 = .zero ∧
    classify true 293 82 146 = .outOfRange ∧ (100 : Nat) < 150 := by decide

theorem witness_TriggerMode :
    (inSync .h0 0 0).rx.state = .waitStartBit ∧ State.reset.rx.state ≠ .waitStartBit ∧
    State.reset.rx.edgePolarity = true ∧ (withRx fun r => { r with edgePolarity := false }).rx.edgePolarity = false := by
  decide

/-- V2.2.11, V2.2.13. -/
theorem witness_FilteredEdge :
    State.reset.cfg.inRange = true ∧ 4294967295 < 2 ^ State.reset.cfg.tw ∧ State.reset.rx.state ≠ .waitStartBit ∧
    State.reset.rx.edgePolarity ≠ false ∧ (withRx fun r => { r with edgePolarity := false }).rx.edgePolarity ≠ true := by
  decide

/-- V2.2.2, V2.3.1, V2.2.15. -/
theorem witness_Glitch :
    let s := withRx fun r => { r with lastTs := 1000 }
    let u := inSync .h0 0 2276
    s.cfg.inRange = true ∧ 1081 < 2 ^ s.cfg.tw ∧ s.Accepts true ∧ s.elapsedAt 1081 < s.rx.bitMin ∧
    u.cfg.inRange = true ∧ 2310 < 2 ^ u.cfg.tw ∧ u.Accepts false ∧ u.elapsedAt 2310 < u.rx.bitMin := by decide

/-- V2.2.9, V2.3.13. -/
theorem witness_OutOfRange :
    let s := withCfg (fun c => { c with zbsCheck := true }) (withRx fun r => { r with lastTs := 1000 })
    let u := withCfg (fun c => { c with zbsCheck := true }) (inSync .h0 0 2392)
    (s.cfg.inRange = true ∧ 1293 < 2 ^ s.cfg.tw ∧ s.Accepts true ∧ s.cfg.zbsCheck = true ∧
      s.rx.bitMin ≤ s.elapsedAt 1293 ∧ 2 * s.rx.bitMax < s.elapsedAt 1293) ∧
    (u.cfg.inRange = true ∧ 2557 < 2 ^ u.cfg.tw ∧ u.Accepts false ∧ u.cfg.zbsCheck = true ∧
      u.rx.bitMin ≤ u.elapsedAt 2557 ∧ 2 * u.rx.bitMax < u.elapsedAt 2557) ∧ (82 ≤ 146 ∧ 146 ≤ 146) := by decide

/-- V2.8.1, and the edge at the threshold. -/
theorem witness_FirstEdge :
    Config.ref.inRange = true ∧ 81 < 2 ^ Config.ref.tw ∧ 81 < Config.ref.pre.lo ∧ Config.ref.pre.lo ≤ 82 := by decide

/-- V2.6.5, V2.6.1. -/
theorem witness_PreambleBits :
    let s := withRx fun r => { r with lastTs := 2160, preambleBitCount := 9 }
    s.rx.state = .waitPreamble ∧ s.CarriesBit true 2360 false ∧ s.CarriesBit true 2276 true ∧
    s.rx.preambleBitCount.toNat < 10 := by decide

/-- V2.6.2, V2.6.4, V2.6.3. -/
theorem witness_PreambleEnters :
    let s := withRx fun r => { r with lastTs := 2160, preambleBitCount := 10 }
    let u := withCfg (fun c => { c with syncAlways := false }) s
    let v := { u with rx := { u.rx with checksum := 5 } }
    (s.rx.state = .waitPreamble ∧ s.CarriesBit true 2276 true ∧ 10 ≤ s.rx.preambleBitCount.toNat ∧
      s.cfg.syncAlways = true) ∧
    (v.rx.state = .waitPreamble ∧ v.CarriesBit true 2276 true ∧ 10 ≤ v.rx.preambleBitCount.toNat ∧ v.rx.checksum ≠ 0) ∧
    (u.rx.state = .waitPreamble ∧ u.CarriesBit true 2276 true ∧ 10 ≤ u.rx.preambleBitCount.toNat ∧
      u.cfg.syncAlways = false ∧ u.rx.checksum = 0) := by decide

/-- V2.3.2, V2.3.4. -/
theorem witness_FirstHalfBit :
    (inSync .h0 0 2276).rx.state = .waitStartBit ∧ (inSync .h0 0 2276).CarriesBit false 2311 true ∧
    (inSync .h0 0 2392).rx.halfBit = .h0 ∧ (inSync .h0 0 2392).CarriesBit false 2492 false := by decide

/-- V2.3.7, V2.3.8, V2.3.5: a difference of 24, of 25, and a zero. -/
theorem witness_SecondHalfBit :
    let s := inSync .h1 40 2392
    s.rx.state = .waitStartBit ∧ s.rx.halfBit = .h1 ∧
    (s.CarriesBit false 2456 true ∧ ((s.elapsedAt 2456 : Int) - (s.rx.bit1 : Int)).natAbs ≤ s.cfg.maxBitDiff) ∧
    (s.CarriesBit false 2457 true ∧ s.cfg.maxBitDiff < ((s.elapsedAt 2457 : Int) - (s.rx.bit1 : Int)).natAbs) ∧
    s.CarriesBit false 2474 false := by decide

/-- V2.3.9, V2.3.11. -/
theorem witness_OneAfterZero :
    ((inSync .h3 58 2450).rx.halfBit = .h3 ∧ (inSync .h3 58 2450).CarriesBit true 2508 true) ∧
    ((inSync .h4 0 2492).rx.halfBit = .h4 ∧ (inSync .h4 0 2492).CarriesBit true 2550 true) := by decide

/-- V2.3.10, V2.3.12. -/
theorem witness_StartBit :
    ((inSync .h3 58 2450).rx.state = .waitStartBit ∧ (inSync .h3 58 2450).CarriesBit true 2550 false) ∧
    ((inSync .h4 0 2492).rx.state = .waitStartBit ∧ (inSync .h4 0 2492).CarriesBit true 2592 false) := by decide

/-- V2.4.1, V2.4.2. -/
theorem witness_FullBitWait :
    inFull.rx.state = .waitStartBitFull ∧ inFull.CarriesBit true 5200 false ∧ inFull.CarriesBit true 5116 true ∧
    10 ≤ inFull.rx.preambleBitCount.toNat ∧ inFull.cfg.syncAlways = false ∧ inFull.rx.checksum = 0 := by decide

/-- An in-phase zero pair, and an out-of-phase pair after a half-bit one. -/
theorem witness_Polarity :
    (∃ t, AlternatingFed false [false, false] (inSync .h0 0 2392) t ∧ t.emitted .start) ∧
    (∃ t, AlternatingFed false [true, false, false] (inSync .h0 0 2392) t ∧ t.emitted .start) :=
  ⟨⟨_, ⟨2492, _, by decide, rfl, 2592, _, by decide, rfl, rfl⟩, by decide⟩,
   ⟨_, ⟨2450, _, by decide, rfl, 2550, _, by decide, rfl, 2650, _, by decide, rfl, rfl⟩, by decide⟩⟩

/-- V2.5.2, V2.5.1 with the last free byte place, and a state no run reaches for the third clause. -/
theorem witness_DataBit :
    let s := inBytes .waitData 3 1 3 #v[3, 0, 0, 0, 0, 0] 3792
    let u := inBytes .waitData 7 5 0 #v[0, 0, 0, 0, 0, 0] 3792
    let v := inBytes .waitData 7 6 0 #v[0, 0, 0, 0, 0, 0] 3792
    (s.rx.state = .waitData ∧ s.CarriesBit true 3992 false ∧ s.rx.preambleBitCount.toNat ≤ 9 ∧ s.rx.bitCount + 1 ≠ 8) ∧
    (u.rx.state = .waitData ∧ u.CarriesBit true 3908 true ∧ u.rx.preambleBitCount.toNat ≤ 9 ∧ u.rx.bitCount + 1 = 8 ∧
      u.rx.working.size.toNat < Config.maxLen) ∧
    (v.rx.state = .waitData ∧ v.CarriesBit true 3908 true ∧ v.rx.preambleBitCount.toNat ≤ 9 ∧ v.rx.bitCount + 1 = 8 ∧
      v.rx.working.size.toNat = Config.maxLen) := by decide

/-- V2.5.4, V2.5.6, V2.5.8, V2.5.7. -/
theorem witness_EndBit :
    let u := inBytes .waitEndBit 8 3 1 #v[3, 0, 2, 0, 0, 0] 7456
    let v := inBytes .waitEndBit 8 6 7 #v[1, 2, 3, 4, 5, 6] 7456
    let w := inBytes .waitEndBit 8 5 3 #v[3, 0, 0, 0, 0, 0] 7456
    (atStop.rx.state = .waitEndBit ∧ atStop.CarriesBit true 7572 true ∧ atStop.rx.preambleBitCount.toNat ≤ 9 ∧
      atStop.rx.checksum = 0) ∧
    (u.rx.state = .waitEndBit ∧ u.CarriesBit true 7572 true ∧ u.rx.preambleBitCount.toNat ≤ 9 ∧ u.rx.checksum ≠ 0) ∧
    (v.rx.state = .waitEndBit ∧ v.CarriesBit true 7656 false ∧ v.rx.preambleBitCount.toNat ≤ 9 ∧
      v.rx.working.size.toNat = Config.maxLen) ∧
    (w.rx.state = .waitEndBit ∧ w.CarriesBit true 7656 false ∧ w.rx.preambleBitCount.toNat ≤ 9 ∧
      w.rx.working.size.toNat ≠ Config.maxLen) := by decide

/-- The byte 0x9A at the last place, with and without transactions between its bits. -/
theorem witness_EightBits :
    let s := inBytes .waitData 0 5 0 #v[0, 0, 0, 0, 0, 0] 0
    s.rx.working.size.toNat < Config.maxLen ∧ s.rx.state = .waitData ∧ s.rx.bitCount = 0 ∧ s.rx.preambleBitCount = 0 ∧
    (∃ p g, BitsFed (byteBits 0x9A) p g s (runEnd (spaced 0 (byteBits 0x9A)) s)) ∧
    (∃ p g, BitsFed (byteBits 0x9A) p g s (runEnd (disturbed 0 (byteBits 0x9A)) s)) :=
  ⟨by decide, by decide, by decide, by decide, bitsFed_of_fedOk (by decide +kernel), bitsFed_of_fedOk (by decide +kernel)⟩

/-- One byte with transactions between its bits, and six bytes, with XOR 0; one byte with another XOR. -/
theorem witness_PacketIsDelivered :
    let s := inBytes .waitData 0 0 0 #v[0, 0, 0, 0, 0, 0] 0
    s.rx.state = .waitData ∧ s.rx.bitCount = 0 ∧ s.rx.preambleBitCount = 0 ∧ s.rx.working.size = 0 ∧ s.rx.checksum = 0 ∧
    xorBytes [0] = 0 ∧ xorBytes [1, 2, 3, 4, 5, 1] = 0 ∧ xorBytes [3] ≠ 0 ∧
    ([1, 2, 3, 4, 5, 1] : List Byte).length ≤ Config.maxLen ∧
    (∃ p g, BitsFed (bytesBits [0]) p g s (runEnd (disturbed 0 (bytesBits [0])) s)) ∧
    (∃ p g, BitsFed (bytesBits [1, 2, 3, 4, 5, 1]) p g s (runEnd (spaced 0 (bytesBits [1, 2, 3, 4, 5, 1])) s)) ∧
    (∃ p g, BitsFed (bytesBits [3]) p g s (runEnd (disturbed 0 (bytesBits [3])) s)) :=
  ⟨by decide, by decide, by decide, by decide, by decide, by decide, by decide, by decide, by decide,
   bitsFed_of_fedOk (by decide +kernel), bitsFed_of_fedOk (by decide +kernel), bitsFed_of_fedOk (by decide +kernel)⟩

/-- First path: after the first boundary edge of a listing with eleven ones and the one-byte packet, filtered mid-bit
edges included. -/
theorem witness_PacketStream_fullBits :
    let s := after (.edgeR 1000) (withCfg (fun c => { c with syncAlways := false }) State.reset)
    let is := (streamOf true 11 [0]).drop 1
    11 ≤ 11 ∧ xorBytes [0] = 0 ∧ s.cfg.syncAlways = false ∧ s.rx.state = .waitPreamble ∧ s.rx.preambleBitCount = 0 ∧
    s.rx.checksum = 0 ∧ ∃ p g, BitsFed (packetBits 11 [0]) p g s (runEnd is s) :=
  ⟨by decide, by decide, by decide, by decide, by decide, by decide, bitsFed_of_fedOk (by decide +kernel)⟩

theorem pairsFed_one {is₁ is₂ : List Instr} {s : State} (h₁ : fedOk [true] is₁ s = true)
    (h₂ : fedOk [true] is₂ (runEnd is₁ s) = true)
    (hd : (((runEnd is₂ (runEnd is₁ s)).rx.bit2 : Int) - ((runEnd is₂ (runEnd is₁ s)).rx.bit1 : Int)).natAbs
      ≤ s.cfg.maxBitDiff) :
    PairsFed 1 s (runEnd is₂ (runEnd is₁ s)) := by
  obtain ⟨p, g, hu⟩ := bitsFed_of_fedOk h₁
  obtain ⟨p', g', hv⟩ := bitsFed_of_fedOk h₂
  exact ⟨p, g, _, p', g', _, hu, hv, hd, rfl⟩

/-- Second path in phase: program P1 after its RESET and its first boundary edge. -/
theorem witness_PacketStream_inPhase :
    let s := after (.edgeR 1000) State.reset
    let is := (streamOf true 12 [3, 0, 3]).drop 1
    let u := runEnd (is.take 22) s
    let v := runEnd ((is.drop 23).take 1) (runEnd ((is.drop 22).take 1) u)
    xorBytes [3, 0, 3] = 0 ∧ s.rx.state = .waitPreamble ∧ s.rx.preambleBitCount = 0 ∧ s.cfg.syncAlways = true ∧
    (∃ p g, BitsFed (List.replicate 11 true) p g s u) ∧ PairsFed 1 u v ∧
    (∃ p g, BitsFed ([false, false] ++ bytesBits [3, 0, 3]) p g v (runEnd (is.drop 24) v)) :=
  ⟨by decide, by decide, by decide, by decide, bitsFed_of_fedOk (by decide +kernel),
   pairsFed_one (by decide +kernel) (by decide +kernel) (by decide +kernel), bitsFed_of_fedOk (by decide +kernel)⟩

/-- Second path out of phase: W2's packet with falling bit boundaries and thirteen ones, after its first rising edge. -/
theorem witness_PacketStream_outOfPhase :
    let s := after (.edgeR 1058) State.reset
    let is := (streamOf false 13 [0x87, 0x89, 0x0E]).drop 2
    let u := runEnd (is.take 22) s
    let v := runEnd ((is.drop 23).take 1) (runEnd ((is.drop 22).take 1) u)
    xorBytes [0x87, 0x89, 0x0E] = 0 ∧ s.rx.state = .waitPreamble ∧ s.rx.preambleBitCount = 0 ∧
    s.cfg.syncAlways = true ∧ (∃ p g, BitsFed (List.replicate 11 true) p g s u) ∧ PairsFed 1 u v ∧
    (∃ p g, BitsFed ([true, false, false] ++ bytesBits [0x87, 0x89, 0x0E]) p g v (runEnd (is.drop 24) v)) :=
  ⟨by decide, by decide, by decide, by decide, bitsFed_of_fedOk (by decide +kernel),
   pairsFed_one (by decide +kernel) (by decide +kernel) (by decide +kernel), bitsFed_of_fedOk (by decide +kernel)⟩

/-- The bytes of P5's overlong packet that fit, with transactions between their bits. -/
theorem witness_Oversized :
    let s := inBytes .waitData 0 0 0 #v[0, 0, 0, 0, 0, 0] 0
    let bits := ([1, 2, 3, 4, 5, 6] : List Byte).flatMap fun b => byteBits b ++ [false]
    s.rx.state = .waitData ∧ s.rx.bitCount = 0 ∧ s.rx.preambleBitCount = 0 ∧ s.rx.working.size = 0 ∧
    ∃ p g, BitsFed bits p g s (runEnd (disturbed 0 bits) s) :=
  ⟨by decide, by decide, by decide, by decide, bitsFed_of_fedOk (by decide +kernel)⟩

/-- V2.7.2, V2.7.1: PollReadsAndClearsTheMailbox and ResponseLanesHoldTheMessage. -/
theorem witness_Poll :
    mailed.cfg.inRange = true ∧ mailed.box.dataReady = true ∧ State.reset.cfg.inRange = true ∧
    State.reset.box.dataReady = false ∧ 5 < Config.maxLen := by decide

theorem witness_SecondPoll : exec .poll mailed = .next (after .poll mailed) := rfl

theorem witness_IdleAndReset : mailed.cfg.inRange = true ∧ inFull.cfg.inRange = true := by decide

theorem witness_PollAndCommit :
    atStop.rx.state = .waitEndBit ∧ atStop.rx.checksum = 0 ∧ atStop.CarriesBit true 7572 true := by decide

theorem witness_PollDeliversTheLastCommit :
    exec (.edgeR 7572) atStop = .next (after (.edgeR 7572) atStop) ∧ (after (.edgeR 7572) atStop).emitted .commit ∧
    UndisturbedRun [.idle, .edgeR 7700] (after (.edgeR 7572) atStop)
      (after (.edgeR 7700) (after .idle (after (.edgeR 7572) atStop))) :=
  ⟨rfl, by decide, by decide, by decide, _, rfl, by decide, by decide, by decide, _, rfl, by decide, rfl⟩

/-- One completed transaction of each kind: the premise of OwnershipOfTheState, CountersCountTheirEvents,
DataReadyHasThreeWriters, HandoffIsWrittenWholeByCommit, ChecksumIsWrittenOnlyAtStartAndByte and
MailboxDoesNotReachTheReceiver. -/
theorem witness_Completes :
    exec (edgeInstr true 7572) atStop = .next (after (.edgeR 7572) atStop) ∧
    exec (edgeInstr false 7572) atStop = .next (after (.edgeF 7572) atStop) ∧
    exec .poll mailed = .next (after .poll mailed) ∧ exec .reset mailed = .next (after .reset mailed) ∧
    exec .idle mailed = .next (after .idle mailed) := ⟨rfl, rfl, rfl, rfl, rfl⟩

/-- The events and settings the clauses of those statements speak of. -/
theorem witness_Events :
    (after (.edgeR 7572) atStop).emitted .commit ∧ mailed.box.dataReady = true ∧
    (after (.edgeR 2592) (inSync .h4 0 2492)).emitted .start ∧
    (after (.edgeR 3908) (inBytes .waitData 7 0 0 #v[0, 0, 0, 0, 0, 0] 3792)).emitted .byte ∧
    (after (.edgeR 7572) (inBytes .waitEndBit 8 3 1 #v[3, 0, 2, 0, 0, 0] 7456)).emitted .csumErr ∧
    (after (.edgeR 7656) (inBytes .waitEndBit 8 6 7 #v[1, 2, 3, 4, 5, 6] 7456)).emitted .overflow ∧
    atStop.cfg.diag = true ∧ (withCfg (fun c => { c with diag := false }) atStop).cfg.diag = false := by decide

theorem witness_DataReady :
    atStop.box.dataReady = false ∧ ExecRun [.edgeR 7572, .idle] atStop (after .idle (after (.edgeR 7572) atStop)) ∧
    ExecRun [] atStop atStop := ⟨by decide, ⟨_, rfl, _, rfl, rfl⟩, rfl⟩

theorem witness_TimeDifferences :
    2592 < 2 ^ (inSync .h4 0 2492).cfg.tw ∧
    exec (edgeInstr true 2592) (inSync .h4 0 2492) = .next (after (.edgeR 2592) (inSync .h4 0 2492)) := ⟨by decide, rfl⟩

/-- For EventVectorIsOneOfFifteen and NoPreambleInsideAPacket: a legal state in each phase (completion is
`witness_Completes`). -/
theorem witness_Legal :
    atStop.Legal ∧ inPacket atStop.rx ∧ (inSync .h3 58 2450).Legal ∧ State.reset.Legal ∧ inFull.Legal :=
  ⟨⟨by decide, by decide, by decide, by decide, by decide, by decide, by decide⟩, by decide,
   ⟨by decide, by decide, by decide, by decide, by decide, by decide, by decide⟩,
   ⟨by decide, by decide, by decide, by decide, by decide, by decide, by decide⟩,
   ⟨by decide, by decide, by decide, by decide, by decide, by decide, by decide⟩⟩

/-- OverflowOnlyAtAnEndBit: full packets at an end bit, legal, where OVERFLOW (`witness_Events`) and COMMIT occur. -/
theorem witness_OverflowAtEndBit :
    (inBytes .waitEndBit 8 6 7 #v[1, 2, 3, 4, 5, 6] 7456).Legal ∧
    (inBytes .waitEndBit 8 6 0 #v[1, 2, 3, 4, 5, 1] 7456).Legal ∧
    (after (.edgeR 7572) (inBytes .waitEndBit 8 6 0 #v[1, 2, 3, 4, 5, 1] 7456)).emitted .commit :=
  ⟨⟨by decide, by decide, by decide, by decide, by decide, by decide, by decide⟩,
   ⟨by decide, by decide, by decide, by decide, by decide, by decide, by decide⟩, by decide⟩

/-- For the five statements StepKeeps…: the invariants hold in the middle of a packet too, and a step from there
completes. -/
theorem witness_Invariants :
    let s := { atStop with inp := Inputs.empty.push .edgeSource 0x500001D94 }
    s.Legal ∧ s.WithinWidths ∧ s.MailboxValid ∧ s.PreambleCounted ∧ step s = .next (after (.edgeR 7572) atStop) :=
  ⟨⟨by decide, by decide, by decide, by decide, by decide, by decide, by decide⟩, by decide, by decide, by decide, rfl⟩

theorem witness_Reachable : (after (.edgeR 1000) State.reset).Reachable :=
  ⟨Config.ref, Inputs.empty.push .edgeSource 0x5000003E8, 1, by decide, rfl⟩

/-- A legal end of a packet of ones, `SYNC_ALWAYS = 0`, and the shortest way from it to the next commit: two ones, the
start bit, the byte 0 and the stop bit. -/
def onesAtStop : State :=
  let s := withCfg (fun c => { c with syncAlways := false }) (inBytes .waitEndBit 8 2 0 #v[255, 255, 0, 0, 0, 0] 1000)
  { s with rx := { s.rx with preambleBitCount := 8 } }

theorem witness_TwelveBits :
    let rest := spaced 1116 [true, true, false, false, false, false, false, false, false, false, false, true]
    onesAtStop.Legal ∧ (after (.edgeR 1116) onesAtStop).emitted .commit ∧
    CountedRun 12 rest (after (.edgeR 1116) onesAtStop) (runEnd rest (after (.edgeR 1116) onesAtStop)) ∧
    (runEnd rest (after (.edgeR 1116) onesAtStop)).emitted .commit :=
  ⟨⟨by decide, by decide, by decide, by decide, by decide, by decide, by decide⟩, by decide,
   countedRun_of_runOk (by decide +kernel) (by decide +kernel), by decide +kernel⟩

theorem witness_Wave : 1000 < 2 ^ 32 ∧ ([true, false] : List Bool)[1]? = some false := by decide

theorem witness_Printed : 1 ≤ 32 ∧ (Instr.edgeF 1058).wf 32 = true ∧
    assembleText 32 (printInstr 32 (.edgeF 1058)) = .ok [0x400000422] := ⟨by decide, by decide, rfl⟩

end Sys2Proof.Tests
end

/-! The diagnostic counters of 10_state.md R26: what one transaction's events add to them, and that an EDGE transaction
adds exactly that. -/

namespace Sys2Proof.Machine

open Sys2Proof

/-! ### What a set of events adds to the counters -/

/-- The counters after a transaction that starts from the counters `d` and gives the events `ev`. -/
def Diag.tallied (d : Diag) (c : Config) (ev : BitVec 16) : Diag :=
  { glitchCnt := if Event.isIn .glitch ev then countUp c d.glitchCnt else d.glitchCnt
    overflowCnt := if Event.isIn .overflow ev then countUp c d.overflowCnt else d.overflowCnt
    csumErrCnt := if Event.isIn .csumErr ev then countUp c d.csumErrCnt else d.csumErrCnt }

/-- The events that a diagnostic counter counts. -/
def Event.counted (e : Event) : Bool := e = .glitch || e = .overflow || e = .csumErr

@[simp] theorem Diag.tallied_zero (d : Diag) (c : Config) : d.tallied c 0#16 = d := by simp [Diag.tallied]

/-- A further event that no counter counts changes nothing. -/
@[simp] theorem Diag.tallied_or_mask (d : Diag) (c : Config) (ev : BitVec 16) {e : Event} (he : e.counted = false) :
    d.tallied c (ev ||| e.mask) = d.tallied c ev := by
  obtain ⟨⟨hg, ho⟩, hc⟩ : (e ≠ .glitch ∧ e ≠ .overflow) ∧ e ≠ .csumErr := by simpa [Event.counted] using he
  simp [Diag.tallied, hg.symm, ho.symm, hc.symm]

@[simp] theorem Diag.tallied_mask (d : Diag) (c : Config) {e : Event} (he : e.counted = false) :
    d.tallied c e.mask = d := by
  simpa using d.tallied_or_mask c 0#16 he

/-! A further counted event moves its own counter only. -/

@[simp] theorem Diag.tallied_or_overflow (d : Diag) (c : Config) (ev : BitVec 16) :
    d.tallied c (ev ||| Event.overflow.mask) = { d.tallied c ev with overflowCnt := countUp c d.overflowCnt } := by
  simp [Diag.tallied]

@[simp] theorem Diag.tallied_or_csumErr (d : Diag) (c : Config) (ev : BitVec 16) :
    d.tallied c (ev ||| Event.csumErr.mask) = { d.tallied c ev with csumErrCnt := countUp c d.csumErrCnt } := by
  simp [Diag.tallied]

theorem countUp_of_diag {c : Config} (hc : c.diag = true) (v : BitVec 16) : countUp c v = v + 1 := by
  simp [countUp, hc]

/-! ### The stages of a classified bit -/

/-- The events BIT and BITVAL are not counted. -/
theorem atBit_tallied (b : Bool) (t : Nat) (s : State) : s.diag.tallied s.cfg (State.atBit b t s).out.ev = s.diag := by
  cases b <;> simp [Event.counted]

/-- The per-state step moves the counters exactly as its events say, if nothing was counted before it: of the
operations in `perStateStep_cases` only `dropOversized` and `checksumReject` count, and each emits its event. -/
theorem perStateStep_diag (b : Bool) (e : Nat) {s : State} (hs : s.diag.tallied s.cfg s.out.ev = s.diag) :
    (perStateStep b e s).diag = s.diag.tallied s.cfg (perStateStep b e s).out.ev := by
  obtain ⟨h, -⟩ | ⟨h, -⟩ | ⟨h, -⟩ | ⟨h, -⟩ | ⟨h, -⟩ | ⟨h, -⟩ | ⟨h, -⟩ | ⟨h, -⟩ | ⟨h, -⟩ | ⟨h, -⟩ | ⟨h, -⟩ | ⟨h, -⟩ |
    ⟨h, -⟩ | ⟨h, -⟩ | ⟨h, -⟩ | ⟨h, -⟩ | ⟨h, -⟩ | ⟨h, -⟩ := perStateStep_cases b e s
  all_goals
    rw [h]
    simp [Event.counted, apply_ite (s.diag.tallied s.cfg), hs]

/-- The post-bit check sets no event but PREAMBLE (42_packet_assembler.md R95, R96), which is not counted. -/
theorem postBitCheck_tallied (d : Diag) (c : Config) (b : Bool) (s : State) :
    d.tallied c (postBitCheck b s).out.ev = d.tallied c s.out.ev := by
  obtain ⟨h, -⟩ | ⟨h, -⟩ | ⟨h, -⟩ | ⟨h, -⟩ := postBitCheck_cases b s <;> simp [h, Event.counted]

/-! ### The whole edge -/

/-- An EDGE transaction moves the counters exactly as its events say, for both values of `DIAG`. -/
theorem exec_edge_diag {d : Bool} {τ : Nat} {s t : State} (h : exec (edgeInstr d τ) s = .next t) :
    t.diag = s.diag.tallied s.cfg t.out.ev := by
  obtain ⟨-, rfl | rfl | rfl | ⟨b, e, -, rfl⟩⟩ := exec_edge_cases h
  · simp [Event.counted]
  · simp [Diag.tallied]
  · simp [Event.counted]
  · obtain ⟨-, -, -, hdiag, -, -⟩ := postBitCheck_frame b (perStateStep b e (State.atBit b τ s))
    rw [postBitCheck_tallied, hdiag]
    exact perStateStep_diag b e (atBit_tallied b τ s)

/-- With `DIAG = 1` each counter gains one modulo 2^16 for its own event and nothing otherwise. -/
theorem Diag.tallied_of_diag {c : Config} (hc : c.diag = true) (d : Diag) (ev : BitVec 16) :
    d.tallied c ev =
      { glitchCnt := d.glitchCnt + (if Event.isIn .glitch ev then 1 else 0)
        overflowCnt := d.overflowCnt + (if Event.isIn .overflow ev then 1 else 0)
        csumErrCnt := d.csumErrCnt + (if Event.isIn .csumErr ev then 1 else 0) } := by
  simp only [Diag.tallied, countUp_of_diag hc, Diag.mk.injEq]
  refine ⟨?_, ?_, ?_⟩ <;> split <;> simp

theorem counterOut_of_diag {c : Config} (hc : c.diag = true) (v : BitVec 16) : counterOut c v = some v := by
  simp [counterOut, hc]

theorem counterOut_of_not_diag {c : Config} (hc : c.diag = false) (v : BitVec 16) : counterOut c v = none := by
  simp [counterOut, hc]

/-- Settles O41: `exec_edge_diag` gives the counters of an edge, and power-on and the outputs are as defined. -/
theorem countersCountTheirEvents : Obligations.CountersCountTheirEvents := by
  unfold Obligations.CountersCountTheirEvents
  refine ⟨fun s t d τ hc h => ?_, fun _ => rfl, fun s => ⟨fun hc => ?_, fun hc => ?_⟩⟩
  · rw [exec_edge_diag h, Diag.tallied_of_diag hc]
    exact ⟨rfl, rfl, rfl⟩
  · exact ⟨counterOut_of_diag hc _, counterOut_of_diag hc _, counterOut_of_diag hc _⟩
  · exact ⟨counterOut_of_not_diag hc _, counterOut_of_not_diag hc _, counterOut_of_not_diag hc _⟩

end Sys2Proof.Machine

/-! The decoder of 30_encoding.md by fields: which field values spell which transaction, and what the fields are of a
word cut at bit `TW`; the match and mask rows of the opcode table and the reserved words follow. -/

namespace Sys2Proof

/-! ### From fields to the transaction -/

/-- The field values that spell a transaction (30_encoding.md R47–R50); `decodeFields_eq_ok_iff` ties them to the
decoder. -/
def Instr.fields : Instr → TxnFields
  | .idle => { op := 0b00#2, rsv := false, d := false, t := 0 }
  | .edgeF t => { op := 0b01#2, rsv := false, d := false, t := t }
  | .edgeR t => { op := 0b01#2, rsv := false, d := true, t := t }
  | .poll => { op := 0b10#2, rsv := false, d := false, t := 0 }
  | .reset => { op := 0b11#2, rsv := false, d := false, t := 0 }

theorem decodeBare_eq_ok_iff (j i : Instr) (f : TxnFields) :
    decodeBare j f = .ok i ↔ j = i ∧ f.d = false ∧ f.t = 0 := by
  unfold decodeBare; cases f.d <;> by_cases ht : f.t = 0 <;> simp [ht]

theorem decodeBare_error_iff (j : Instr) (f : TxnFields) :
    (∃ e, decodeBare j f = .error e) ↔ f.d = true ∨ f.t ≠ 0 := by
  unfold decodeBare; cases f.d <;> by_cases ht : f.t = 0 <;> simp [ht]

/-- The four operation codes are all there are (30_encoding.md R48). -/
theorem op_cases (op : BitVec 2) : op = 0b00#2 ∨ op = 0b01#2 ∨ op = 0b10#2 ∨ op = 0b11#2 := by
  revert op; decide

theorem decodeFields_eq_ok_iff (f : TxnFields) (i : Instr) : decodeFields f = .ok i ↔ f = i.fields := by
  obtain ⟨op, rsv, d, t⟩ := f
  cases rsv with
  | true => cases i <;> simp [decodeFields, Instr.fields]
  | false =>
    obtain rfl | rfl | rfl | rfl := op_cases op
    · cases i <;> simp [decodeFields, decodeBare_eq_ok_iff, Instr.fields]
    · cases d <;> cases i <;> simp [decodeFields, Instr.fields]
    · cases i <;> simp [decodeFields, decodeBare_eq_ok_iff, Instr.fields]
    · cases i <;> simp [decodeFields, decodeBare_eq_ok_iff, Instr.fields]

/-- 30_encoding.md R51 on the fields: the two forms of a reserved word. -/
theorem decodeFields_error_iff (f : TxnFields) :
    (∃ e, decodeFields f = .error e) ↔ f.rsv = true ∨ (f.op ≠ 0b01#2 ∧ (f.d = true ∨ f.t ≠ 0)) := by
  obtain ⟨op, rsv, d, t⟩ := f
  cases rsv with
  | true => simp [decodeFields]
  | false => obtain rfl | rfl | rfl | rfl := op_cases op <;> simp [decodeFields, decodeBare_error_iff]

theorem decode_of_lt {tw w : Nat} (h : w < 2 ^ (tw + 4)) : decode tw w = decodeFields (txnFields tw w) := if_pos h

theorem decode_error_iff_forall_ne_ok (tw w : Nat) :
    (∃ e, decode tw w = .error e) ↔ ∀ i, decode tw w ≠ .ok i := by
  cases decode tw w <;> simp

/-! ### From the word's bits to the fields -/

theorem txnFields_rsv (tw w : Nat) : (txnFields tw w).rsv = w.testBit (tw + 1) := by
  simp [txnFields, Nat.testBit_eq_decide_div_mod_eq, beq_eq_decide]

theorem txnFields_d (tw w : Nat) : (txnFields tw w).d = w.testBit tw := by
  simp [txnFields, Nat.testBit_eq_decide_div_mod_eq, beq_eq_decide]

theorem txnFields_op_getLsbD (tw w i : Nat) :
    (txnFields tw w).op.getLsbD i = (decide (i < 2) && w.testBit (i + (tw + 2))) := by
  simp [txnFields, BitVec.getLsbD_ofNat, Nat.testBit_div_two_pow]

theorem txnFields_op_eq_edge_iff (tw w : Nat) :
    (txnFields tw w).op = 0b01#2 ↔ w.testBit (tw + 3) = false ∧ w.testBit (tw + 2) = true := by
  have two_bits : ∀ op : BitVec 2, op = 0b01#2 ↔ op.getLsbD 1 = false ∧ op.getLsbD 0 = true := by decide
  rw [two_bits, txnFields_op_getLsbD, txnFields_op_getLsbD, show 1 + (tw + 2) = tw + 3 by omega]
  simp

theorem mod_two_pow_ne_zero_iff (n w : Nat) : w % 2 ^ n ≠ 0 ↔ ∃ k, k < n ∧ w.testBit k = true := by
  constructor
  · intro h
    obtain ⟨k, hk⟩ := Nat.exists_testBit_of_ne_zero h
    exact ⟨k, by simpa using hk⟩
  · rintro ⟨k, hk, hb⟩ h
    have : (w % 2 ^ n).testBit k = true := by simp [hk, hb]
    simp [h] at this

/-- `D` and `T` together are the bits `[TW:0]`. -/
theorem txnFields_operand_ne_zero_iff (tw w : Nat) :
    ((txnFields tw w).d = true ∨ (txnFields tw w).t ≠ 0) ↔ ∃ k, k ≤ tw ∧ w.testBit k = true := by
  have ht : (txnFields tw w).t ≠ 0 ↔ ∃ k, k < tw ∧ w.testBit k = true := mod_two_pow_ne_zero_iff tw w
  rw [txnFields_d, ht]
  constructor
  · rintro (hd | ⟨k, hk, hb⟩)
    · exact ⟨tw, le_rfl, hd⟩
    · exact ⟨k, hk.le, hb⟩
  · rintro ⟨k, hk, hb⟩
    obtain hlt | rfl := hk.lt_or_eq
    · exact .inr ⟨k, hlt, hb⟩
    · exact .inl hb

/-- 30_encoding.md R51: `RSV = 1`, or an operation other than EDGE with one of the bits `[TW:0]` set. -/
def Reserved (tw w : Nat) : Prop :=
  w.testBit (tw + 1) = true ∨
    (¬ (w.testBit (tw + 3) = false ∧ w.testBit (tw + 2) = true) ∧ ∃ k, k ≤ tw ∧ w.testBit k = true)

theorem decode_error_iff_reserved {tw w : Nat} (h : w < 2 ^ (tw + 4)) :
    (∃ e, decode tw w = .error e) ↔ Reserved tw w := by
  rw [decode_of_lt h, decodeFields_error_iff, txnFields_rsv, txnFields_operand_ne_zero_iff, ne_eq,
    txnFields_op_eq_edge_iff, Reserved]

theorem decode_ok_of_not_reserved {tw w : Nat} (h : w < 2 ^ (tw + 4)) (hr : ¬ Reserved tw w) :
    ∃ i, decode tw w = .ok i := by
  rw [← decode_error_iff_reserved h, decode_error_iff_forall_ne_ok] at hr
  simpa using hr

namespace Machine

/-- A step with a word waiting is that word, issued on the state without it. -/
theorem step_of_turn {s : State} {a : Agent} {rest : List Agent} {w : Nat} {ws : List Nat}
    (ht : s.inp.turns = a :: rest) (hp : s.inp.pendingOf a = w :: ws) :
    step s = issue a w { s with inp := Inputs.setPending a ws { s.inp with turns := rest } } := by
  simp [step, take_of_turn ht hp]

theorem issue_of_decode_error {a : Agent} {w : Nat} {s : State} (h : ∃ e, decode s.cfg.tw w = .error e) :
    issue a w s = .refused .reservedEncoding := by
  obtain ⟨e, he⟩ := h
  simp [issue, he]

/-- Settles O4: the decoder rejects exactly the reserved words, and a step refuses what the decoder rejects. -/
theorem reservedWordsAreRefused : Obligations.ReservedWordsAreRefused := by
  unfold Obligations.ReservedWordsAreRefused
  intro s a rest w ws ht hp hw
  refine ⟨fun hr => ?_, decode_ok_of_not_reserved hw⟩
  rw [step_of_turn ht hp]
  exact issue_of_decode_error ((decode_error_iff_reserved hw).2 hr)

end Machine

/-! ### The rows of the opcode table, for `TW = 32` -/

/-- The fields of a word cut into its top four bits and its operand (30_encoding.md R47). -/
theorem txnFields_append {tw : Nat} (hi : BitVec 4) (lo : BitVec tw) :
    txnFields tw (hi ++ lo).toNat =
      { op := hi.extractLsb' 2 2, rsv := hi.getLsbD 1, d := hi.getLsbD 0, t := lo.toNat } := by
  have hop : (txnFields tw (hi ++ lo).toNat).op = hi.extractLsb' 2 2 := by
    ext i hi2
    rw [← BitVec.getLsbD_eq_getElem, txnFields_op_getLsbD, BitVec.testBit_toNat, BitVec.getLsbD_append]
    simp [hi2, show ¬ i + (tw + 2) < tw by omega, show i + (tw + 2) - tw = 2 + i by omega]
  have hrsv : (txnFields tw (hi ++ lo).toNat).rsv = hi.getLsbD 1 := by
    rw [txnFields_rsv, BitVec.testBit_toNat, BitVec.getLsbD_append]; simp
  have hd : (txnFields tw (hi ++ lo).toNat).d = hi.getLsbD 0 := by
    rw [txnFields_d, BitVec.testBit_toNat, BitVec.getLsbD_append]; simp
  have ht : (txnFields tw (hi ++ lo).toNat).t = lo.toNat := by
    calc (hi ++ lo).toNat % 2 ^ tw = ((hi ++ lo).setWidth tw).toNat := (BitVec.toNat_setWidth ..).symm
      _ = lo.toNat := by rw [BitVec.setWidth_append_eq_right]
  rw [← hop, ← hrsv, ← hd, ← ht]

/-- Among the fields with `RSV = 0`, the top four bits and the operand are the fields. -/
theorem txnFields_append_eq_iff {tw : Nat} (hi : BitVec 4) (lo : BitVec tw) (op : BitVec 2) (d : Bool) (t : Nat) :
    txnFields tw (hi ++ lo).toNat = { op := op, rsv := false, d := d, t := t } ↔
      hi = op ++ 0#1 ++ BitVec.ofBool d ∧ t = lo.toNat := by
  have top : ∀ (hi : BitVec 4) (op : BitVec 2) (d : Bool),
      (hi.extractLsb' 2 2 = op ∧ hi.getLsbD 1 = false ∧ hi.getLsbD 0 = d) ↔ hi = op ++ 0#1 ++ BitVec.ofBool d := by
    decide
  rw [txnFields_append, TxnFields.mk.injEq, ← top, eq_comm (a := t), and_assoc, and_assoc]

theorem bitVec_append_inj {m n : Nat} (a c : BitVec m) (b d : BitVec n) : a ++ b = c ++ d ↔ a = c ∧ b = d := by
  constructor
  · intro h
    refine ⟨?_, ?_⟩
    · rw [← BitVec.extractLsb'_append_eq_left (a := a) (b := b), h, BitVec.extractLsb'_append_eq_left]
    · rw [← BitVec.extractLsb'_append_eq_right (a := a) (b := b), h, BitVec.extractLsb'_append_eq_right]
  · rintro ⟨rfl, rfl⟩; rfl

/-- A row with the full mask fixes the whole word. -/
theorem full_mask_eq_iff (hi k : BitVec 4) (lo : BitVec 32) :
    (hi ++ lo) &&& 0xFFFFFFFFF#36 = k ++ 0#32 ↔ hi = k ∧ lo = 0#32 := by
  rw [show 0xFFFFFFFFF#36 = BitVec.allOnes 36 from rfl, BitVec.and_allOnes, bitVec_append_inj]

/-- A row with the mask of the top four bits fixes these and leaves the operand free. -/
theorem top_mask_eq_iff (hi k : BitVec 4) (lo : BitVec 32) :
    (hi ++ lo) &&& 0xF00000000#36 = k ++ 0#32 ↔ hi = k := by
  rw [show 0xF00000000#36 = BitVec.allOnes 4 ++ 0#32 from rfl, BitVec.and_append, BitVec.and_allOnes,
    BitVec.and_zero, BitVec.append_left_inj]

theorem decode_append_eq_ok_iff (hi : BitVec 4) (lo : BitVec 32) (i : Instr) :
    decode 32 (hi ++ lo).toNat = .ok i ↔ txnFields 32 (hi ++ lo).toNat = i.fields := by
  rw [decode_of_lt (hi ++ lo).isLt, decodeFields_eq_ok_iff]

theorem exists_append_eq (w : BitVec 36) : ∃ (hi : BitVec 4) (lo : BitVec 32), w = hi ++ lo :=
  ⟨_, _, (BitVec.extractLsb'_append_extractLsb' (w := 4) (len := 32) (x := w)).symm⟩

/-- The row of an operation without operand: the full mask selects it. -/
theorem decode_eq_bare_iff {i : Instr} {op : BitVec 2}
    (h : i.fields = { op := op, rsv := false, d := false, t := 0 }) (w : BitVec 36) :
    decode 32 w.toNat = .ok i ↔ w &&& 0xFFFFFFFFF#36 = (op ++ 0b00#2) ++ 0#32 := by
  obtain ⟨hi, lo, rfl⟩ := exists_append_eq w
  have hop : ∀ op : BitVec 2, op ++ 0#1 ++ BitVec.ofBool false = op ++ 0b00#2 := by decide
  have hlo : 0 = lo.toNat ↔ lo = 0#32 := by rw [eq_comm, ← BitVec.toNat_inj]; rfl
  rw [decode_append_eq_ok_iff, h, txnFields_append_eq_iff, hop, hlo, full_mask_eq_iff]

/-- The row of an edge: the mask of the top four bits selects it, and the operand is read off. -/
theorem decode_eq_edge_iff {i : Instr} {d : Bool} {t : Nat}
    (h : i.fields = { op := 0b01#2, rsv := false, d := d, t := t }) (w : BitVec 36) :
    decode 32 w.toNat = .ok i ↔
      w &&& 0xF00000000#36 = (0b010#3 ++ BitVec.ofBool d) ++ 0#32 ∧ t = (w.extractLsb' 0 32).toNat := by
  obtain ⟨hi, lo, rfl⟩ := exists_append_eq w
  rw [decode_append_eq_ok_iff, h, txnFields_append_eq_iff, top_mask_eq_iff, BitVec.extractLsb'_append_eq_right]
  rfl

/-! The five rows of spec/opcode_table.json. -/

theorem decode_eq_idle_iff (w : BitVec 36) :
    decode 32 w.toNat = .ok .idle ↔ w &&& 0xFFFFFFFFF#36 = 0x000000000#36 :=
  decode_eq_bare_iff (op := 0b00#2) rfl w

theorem decode_eq_edgeF_iff (w : BitVec 36) (t : Nat) : decode 32 w.toNat = .ok (.edgeF t) ↔
    w &&& 0xF00000000#36 = 0x400000000#36 ∧ t = (w.extractLsb' 0 32).toNat :=
  decode_eq_edge_iff (d := false) rfl w

theorem decode_eq_edgeR_iff (w : BitVec 36) (t : Nat) : decode 32 w.toNat = .ok (.edgeR t) ↔
    w &&& 0xF00000000#36 = 0x500000000#36 ∧ t = (w.extractLsb' 0 32).toNat :=
  decode_eq_edge_iff (d := true) rfl w

theorem decode_eq_poll_iff (w : BitVec 36) :
    decode 32 w.toNat = .ok .poll ↔ w &&& 0xFFFFFFFFF#36 = 0x800000000#36 :=
  decode_eq_bare_iff (op := 0b10#2) rfl w

theorem decode_eq_reset_iff (w : BitVec 36) :
    decode 32 w.toNat = .ok .reset ↔ w &&& 0xFFFFFFFFF#36 = 0xC00000000#36 :=
  decode_eq_bare_iff (op := 0b11#2) rfl w

theorem forall_instr_iff {p : Instr → Prop} :
    (∀ i, p i) ↔ p .idle ∧ (∀ t, p (.edgeF t)) ∧ (∀ t, p (.edgeR t)) ∧ p .poll ∧ p .reset := by
  constructor
  · exact fun h => ⟨h _, fun _ => h _, fun _ => h _, h _, h _⟩
  · rintro ⟨hidle, hedgeF, hedgeR, hpoll, hreset⟩ i
    cases i with
    | idle => exact hidle
    | edgeF t => exact hedgeF t
    | edgeR t => exact hedgeR t
    | poll => exact hpoll
    | reset => exact hreset

/-- Settles O3: one lemma per row, and a word is rejected when it spells none of the five. -/
theorem tableRowsDecodeByMatchAndMask : Obligations.TableRowsDecodeByMatchAndMask := by
  unfold Obligations.TableRowsDecodeByMatchAndMask
  intro w
  refine ⟨decode_eq_idle_iff w, decode_eq_edgeF_iff w, decode_eq_edgeR_iff w, decode_eq_poll_iff w,
    decode_eq_reset_iff w, ?_⟩
  rw [decode_error_iff_forall_ne_ok, forall_instr_iff]
  simp only [ne_eq, decode_eq_idle_iff, decode_eq_edgeF_iff, decode_eq_edgeR_iff, decode_eq_poll_iff,
    decode_eq_reset_iff, not_and, forall_eq_apply_imp_iff, imp_false]

end Sys2Proof

/-! The POLL response word of 30_encoding.md R53, field by field. -/

namespace Sys2Proof.Machine

open Sys2Proof

/-- A field above a byte is the field of the word without that byte. -/
theorem extractLsb'_append_byte {v : Nat} (x : BitVec v) (b : Byte) (k len : Nat) :
    (x ++ b).extractLsb' (k + 8) len = x.extractLsb' k len :=
  BitVec.extractLsb'_append_eq_of_le (by omega)

theorem lane_zero {v : Nat} (x : BitVec v) (b : Byte) : (x ++ b).extractLsb' (8 * 0) 8 = b :=
  BitVec.extractLsb'_append_eq_right

theorem lane_succ {v : Nat} (x : BitVec v) (b : Byte) (i : Nat) :
    (x ++ b).extractLsb' (8 * (i + 1)) 8 = x.extractLsb' (8 * i) 8 := extractLsb'_append_byte x b (8 * i) 8

/-- Six bytes below a header: byte `i`, counted from the least significant end, is the `i`-th. -/
theorem lane_of_six {v : Nat} (x : BitVec v) (d : Vector Byte Config.maxLen) (i : Nat) (h : i < Config.maxLen) :
    (x ++ d[5] ++ d[4] ++ d[3] ++ d[2] ++ d[1] ++ d[0]).extractLsb' (8 * i) 8 = d[i] := by
  match i, h with
  | 0, _ => rw [lane_zero]
  | 1, _ => rw [lane_succ, lane_zero]
  | 2, _ => rw [lane_succ, lane_succ, lane_zero]
  | 3, _ => rw [lane_succ, lane_succ, lane_succ, lane_zero]
  | 4, _ => rw [lane_succ, lane_succ, lane_succ, lane_succ, lane_zero]
  | 5, _ => rw [lane_succ, lane_succ, lane_succ, lane_succ, lane_succ, lane_zero]

/-- What stands above the six bytes starts at bit 48. -/
theorem extractLsb'_above_lanes {v : Nat} (x : BitVec v) (d : Vector Byte Config.maxLen) (k len : Nat) :
    (x ++ d[5] ++ d[4] ++ d[3] ++ d[2] ++ d[1] ++ d[0]).extractLsb' (k + 48) len =
      x.extractLsb' k len := by
  rw [extractLsb'_append_byte _ _ (k + 40)]
  simp only [extractLsb'_append_byte]

theorem respWord_lane (m : Message) {i : Nat} (h : i < Config.maxLen) :
    (respWord m).extractLsb' (8 * i) 8 = m.data[i] := lane_of_six _ m.data i h

theorem respWord_preambleBits (m : Message) : (respWord m).extractLsb' 48 8 = m.preambleBits :=
  (extractLsb'_above_lanes _ m.data 0 8).trans BitVec.extractLsb'_append_eq_right

theorem respWord_size (m : Message) : (respWord m).extractLsb' 56 3 = m.size :=
  (extractLsb'_above_lanes _ m.data 8 3).trans <|
    (extractLsb'_append_byte _ m.preambleBits 0 3).trans BitVec.extractLsb'_append_eq_right

theorem respWord_zeros (m : Message) : (respWord m).extractLsb' 59 4 = 0#4 :=
  (extractLsb'_above_lanes _ m.data 11 4).trans <| (extractLsb'_append_byte _ m.preambleBits 3 4).trans <|
    BitVec.extractLsb'_append_eq_of_le (xlo := m.size) le_rfl

theorem respWord_valid (m : Message) : (respWord m).extractLsb' 63 1 = 1#1 :=
  (extractLsb'_above_lanes _ m.data 15 1).trans <| (extractLsb'_append_byte _ m.preambleBits 7 1).trans <|
    BitVec.extractLsb'_append_eq_of_le (xlo := m.size) (by decide)

/-- Settles O34: the answer is `respWord` of the handoff message, or 0. -/
theorem responseLanesHoldTheMessage : Obligations.ResponseLanesHoldTheMessage := by
  unfold Obligations.ResponseLanesHoldTheMessage
  intro s hs
  refine ⟨pollMailbox s, if s.box.dataReady then respWord s.box.handoff else 0, ?_, ?_, fun hready => ?_,
    fun hempty => ?_⟩
  · rw [exec_poll, perform_next]; exact ⟨hs, rfl⟩
  · rw [pollMailbox_eq]
  · rw [if_pos hready]
    exact ⟨respWord_valid _, respWord_zeros _, respWord_size _, respWord_preambleBits _, fun _ => respWord_lane _⟩
  · simp [hempty]

end Sys2Proof.Machine

/-! The BitTimingClassifier's outcomes that carry no bit (40_bit_timing_classifier.md R64, R66, R68): a filtered edge, a
glitch and an out-of-range interval, each with its whole next state. -/

namespace Sys2Proof.Machine

open Sys2Proof

/-! ### The class of an interval -/

theorem classify_glitch {zbs : Bool} {e lo hi : Nat} (h : e < lo) : classify zbs e lo hi = .glitch := if_pos h

theorem classify_outOfRange {e lo hi : Nat} (hlo : lo ≤ e) (hhi : 2 * hi < e) :
    classify true e lo hi = .outOfRange := by
  simp [classify, Nat.not_lt.2 hlo, hhi]

/-- Without the out-of-range check (`ZBS_CHECK = 0`) nothing bounds a zero from above. -/
theorem classify_zero_unchecked {e lo hi : Nat} (hlo : lo ≤ e) (hhi : hi ≤ e) : classify false e lo hi = .zero := by
  simp [classify, Nat.not_lt.2 hlo, Nat.not_lt.2 hhi]

/-! ### The stages of an edge before any bit -/

theorem exec_edge_of_inRange {s : State} (hc : s.cfg.inRange = true) (d : Bool) (t : Nat) :
    exec (edgeInstr d t) s = .next (edgeStep d t s) := by
  rw [exec_edge, perform_next]
  exact ⟨hc, rfl⟩

theorem edgeStep_of_not_accepts {s : State} {d : Bool} (h : ¬ s.Accepts d) (t : Nat) :
    edgeStep d t s = s.begin.emit .filtered :=
  if_neg ((trigAccepts_iff s.rx d).not.2 h)

theorem edgeStep_of_accepts {s : State} {d : Bool} {t : Nat} (h : s.Accepts d) (ht : t < 2 ^ s.cfg.tw) :
    edgeStep d t s = acceptedEdge t s.begin := by
  calc edgeStep d t s = acceptedEdge (timeOperand s.cfg.tw t) s.begin := if_pos ((trigAccepts_iff s.rx d).2 h)
    _ = acceptedEdge t s.begin := by rw [timeOperand_of_lt ht]

theorem acceptedEdge_glitch {s : State} {t : Nat} (h : s.elapsedAt t < s.rx.bitMin) :
    acceptedEdge t s = (s.emit .glitch).countGlitch := by
  simp only [acceptedEdge, elapsed_eq_elapsedAt, classify_glitch h]

theorem acceptedEdge_outOfRange {s : State} {t : Nat} (hz : s.cfg.zbsCheck = true) (hlo : s.rx.bitMin ≤ s.elapsedAt t)
    (hhi : 2 * s.rx.bitMax < s.elapsedAt t) : acceptedEdge t s = rejectOutOfRange (s.setLastTs t) := by
  simp only [acceptedEdge, elapsed_eq_elapsedAt, hz, classify_outOfRange hlo hhi]

/-- A transaction that emits one event and does nothing else shows exactly that event's bit. -/
theorem begin_emit (e : Event) (s : State) : s.begin.emit e = s.withEvents e.mask := by
  simp [State.emit, State.begin, State.withEvents, Outputs.quiet]

/-! ### The obligations -/

/-- Settles O15: outside WAIT_START_BIT the filter accepts only `edgePolarity`; any other edge emits FILTERED. -/
theorem filteredEdgeChangesNoRegister : Obligations.FilteredEdgeChangesNoRegister := by
  unfold Obligations.FilteredEdgeChangesNoRegister
  intro s d t hc _ hstate hpol
  have hfilter : ¬ s.Accepts d := not_or.2 ⟨hstate, hpol⟩
  rw [exec_edge_of_inRange hc, edgeStep_of_not_accepts hfilter, begin_emit, mask_filtered]
  rfl

/-- Settles O16: a glitch ends the edge before the time reference moves, and `countUp` is the `DIAG` condition. -/
theorem glitchChangesOnlyItsTally : Obligations.GlitchChangesOnlyItsTally := by
  unfold Obligations.GlitchChangesOnlyItsTally
  intro s d t hc ht hacc hshort
  have hglitch : acceptedEdge t s.begin = (s.begin.emit .glitch).countGlitch := acceptedEdge_glitch hshort
  rw [exec_edge_of_inRange hc, edgeStep_of_accepts hacc ht, hglitch, begin_emit, mask_glitch]
  rfl

/-- Settles O17: the edge moves the time reference and then `huntReset` writes what R91 lists; without the check the
class of a long interval is a zero. -/
theorem outOfRangeIntervalHuntsAgain : Obligations.OutOfRangeIntervalHuntsAgain := by
  unfold Obligations.OutOfRangeIntervalHuntsAgain
  refine ⟨fun s d t hc ht hacc hz hlo hhi => ?_, fun e lo hi hlo hhi => classify_zero_unchecked hlo hhi⟩
  have hlong : acceptedEdge t s.begin = rejectOutOfRange (s.begin.setLastTs t) := acceptedEdge_outOfRange hz hlo hhi
  have hevent : s.begin.emit .zbsReset = s.withEvents 0x0004 := by
    rw [begin_emit, mask_zbsReset]
    rfl
  rw [exec_edge_of_inRange hc, edgeStep_of_accepts hacc ht, hlong, ← hevent]
  rfl

end Sys2Proof.Machine

/-! The EdgeSynchronizer (41_edge_synchronizer.md R73, R78, R79, R83, R85, R86): the trigger mode, the first half-bit of
a pair, and the start bit that opens a packet. -/

namespace Sys2Proof.Machine

open Sys2Proof

/-! ### The trigger mode -/

theorem trigMode_waitStartBit {r : Receiver} (h : r.state = .waitStartBit) : trigMode r = 0b11#2 := if_pos h

theorem trigMode_of_ne_waitStartBit {r : Receiver} (h : r.state ≠ .waitStartBit) :
    trigMode r = if r.edgePolarity then 0b10#2 else 0b01#2 := if_neg h

/-- Settles O14: one canonical edge, chosen by the polarity, everywhere but in WAIT_START_BIT. -/
theorem triggerModeFollowsTheState : Obligations.TriggerModeFollowsTheState := by
  unfold Obligations.TriggerModeFollowsTheState
  refine fun s => ⟨fun hstate => trigMode_waitStartBit hstate, fun hstate hpol => ?_, fun hstate hpol => ?_⟩
  all_goals
    rw [State.trigModeOut, trigMode_of_ne_waitStartBit hstate, hpol]
    rfl

/-! ### A bit in WAIT_START_BIT -/

/-- A bit's own events in the numbers of 30_encoding.md R54, and its time as the new reference. -/
theorem atBit_eq_withEvents {s : State} {t : Nat} (ht : t < 2 ^ s.cfg.tw) (b : Bool) :
    State.atBit b t s = State.setLastTs t (s.withEvents (if b then 0x0018 else 0x0008)) := by
  have hevents : (if b then Event.bit.mask ||| Event.bitVal.mask else Event.bit.mask) =
      (if b then 0x0018 else 0x0008 : BitVec 16) := by
    cases b <;> decide
  rw [State.atBit, hevents, timeOperand_of_lt ht]
  rfl

/-- An edge that carries a bit is the per-state step and the post-bit check, on the state with the bit's events. -/
theorem exec_of_carriesBit {s : State} {d b : Bool} {t : Nat} (h : s.CarriesBit d t b) :
    exec (edgeInstr d t) s = .next (postBitCheck b (perStateStep b (s.elapsedAt t)
      (State.setLastTs t (s.withEvents (if b then 0x0018 else 0x0008))))) := by
  have ⟨_, ht, _⟩ := h
  have hstart : State.setLastTs t s.begin = s.atEdge t := by rw [State.atEdge, timeOperand_of_lt ht]
  rw [carriesBit_exec h, hstart, classifiedBit_eq, atBit_eq_withEvents ht]

theorem perStateStep_waitStartBit {s : State} (h : s.rx.state = .waitStartBit) (b : Bool) (e : Nat) :
    perStateStep b e s = halfBitStep b e s := by
  simp only [perStateStep, h]

/-- In WAIT_START_BIT the per-state step is the half-bit table (41_edge_synchronizer.md R77). -/
theorem exec_of_carriesBit_waitStartBit {s : State} {d b : Bool} {t : Nat} (hstate : s.rx.state = .waitStartBit)
    (h : s.CarriesBit d t b) :
    exec (edgeInstr d t) s = .next (postBitCheck b (halfBitStep b (s.elapsedAt t)
      (State.setLastTs t (s.withEvents (if b then 0x0018 else 0x0008))))) := by
  rw [exec_of_carriesBit h, perStateStep_waitStartBit (by exact hstate)]

/-! ### The rows of the half-bit table -/

theorem halfBitStep_h0_one {s : State} (h : s.rx.halfBit = .h0) (e : Nat) :
    halfBitStep true e s = { s with rx := { s.rx with halfBit := .h1, bit1 := e } } := by
  simp only [halfBitStep, h]

theorem halfBitStep_h0_zero {s : State} (h : s.rx.halfBit = .h0) (e : Nat) :
    halfBitStep false e s = { s with rx := { s.rx with halfBit := .h4 } } := by
  simp only [halfBitStep, h]

/-- A second zero half-bit is the start bit; only after an out-of-phase pair (H3) it toggles the polarity. -/
theorem halfBitStep_second_zero {s : State} {flip : Bool}
    (h : (flip = true ∧ s.rx.halfBit = .h3) ∨ (flip = false ∧ s.rx.halfBit = .h4)) (e : Nat) :
    halfBitStep false e s = acceptStart flip s := by
  obtain ⟨rfl, hh⟩ | ⟨rfl, hh⟩ := h <;> simp only [halfBitStep, hh]

/-! ### The start bit -/

theorem acceptStart_ev (flip : Bool) (s : State) :
    (acceptStart flip s).out.ev = s.out.ev ||| (if flip then 0x00C0 else 0x0080) := by
  rw [acceptStart_out, mask_flip, mask_start]
  cases flip
  · rfl
  · exact BitVec.or_assoc ..

/-- The start bit is a zero and `acceptStart` has left WAIT_START_BIT, so the post-bit check clears the count that
`wPreambleBits` has just kept. -/
theorem postBitCheck_acceptStart (flip : Bool) (s : State) :
    postBitCheck false (acceptStart flip s) =
      { s with
        rx := { openPacket flip s.cfg s.rx with preambleBitCount := 0 }
        out := { s.out with ev := s.out.ev ||| (if flip then 0x00C0 else 0x0080) } } := by
  have hstate : (acceptStart flip s).rx.state ≠ .waitStartBit := by simp
  rw [postBitCheck_zero hstate, acceptStart_rx, ← acceptStart_ev]
  cases flip <;> rfl

/-! ### The obligations -/

/-- Settles O21: rows R78 and R79 of the half-bit table; the post-bit check does nothing in WAIT_START_BIT. -/
theorem firstHalfBitOfAPair : Obligations.FirstHalfBitOfAPair := by
  unfold Obligations.FirstHalfBitOfAPair
  intro s d t b hstate hhalf hbit
  refine ⟨fun hb => ?_, fun hb => ?_⟩ <;> subst hb
  · rw [exec_of_carriesBit_waitStartBit hstate hbit, halfBitStep_h0_one (by exact hhalf),
      postBitCheck_sync (by exact hstate)]
    rfl
  · rw [exec_of_carriesBit_waitStartBit hstate hbit, halfBitStep_h0_zero (by exact hhalf),
      postBitCheck_sync (by exact hstate)]
    rfl

/-- Settles O24: a zero in H3 or H4 is `acceptStart`, which toggles the polarity and gives FLIP through H3 only. -/
theorem startBitOpensAPacket : Obligations.StartBitOpensAPacket := by
  unfold Obligations.StartBitOpensAPacket
  intro s d t hstate hbit flip hhalf
  have hevents : (0x0008 ||| (if flip then 0x00C0 else 0x0080) : BitVec 16) = if flip then 0x00C8 else 0x0088 := by
    cases flip <;> decide
  rw [exec_of_carriesBit_waitStartBit hstate hbit, halfBitStep_second_zero (by exact hhalf), postBitCheck_acceptStart,
    ← hevents]
  rfl

end Sys2Proof.Machine

/-! The PacketAssembler inside a packet (42_packet_assembler.md R93, R94): a data bit in WAIT_DATA and the bit after a
byte in WAIT_END_BIT, each with its whole next state. -/

namespace Sys2Proof.Machine

open Sys2Proof

/-! ### The count of ones inside a packet -/

/-- The post-bit check while at most nine ones are counted (42_packet_assembler.md R95, R96);
`postBitCheck_eq_tallyOnes` ties it to the model. -/
def State.tallyOnes (b : Bool) (s : State) : State :=
  { s with rx := { s.rx with preambleBitCount := if b then s.rx.preambleBitCount + 1 else 0 } }

theorem postBitCheck_eq_tallyOnes {s : State} (h : s.rx.state ≠ .waitStartBit) (hp : s.rx.preambleBitCount.toNat ≤ 9)
    (b : Bool) : postBitCheck b s = State.tallyOnes b s := by
  cases b with
  | false => exact postBitCheck_zero h
  | true => exact postBitCheck_one h hp

/-! ### The data step and the end-bit step, case by case -/

theorem dataStep_of_bitCount_ne {s : State} (h : s.rx.bitCount + 1 ≠ 8) (b : Bool) :
    dataStep b s = { s with rx := shiftIn b s.rx } := if_neg h

theorem dataStep_byte {s : State} (h : s.rx.bitCount + 1 = 8) (hsize : s.rx.working.size.toNat ≠ Config.maxLen)
    (b : Bool) : dataStep b s = State.emit .byte { s with rx := appendByte (shiftIn b s.rx) } :=
  (if_pos h).trans (if_neg hsize)

theorem dataStep_full {s : State} (h : s.rx.bitCount + 1 = 8) (hsize : s.rx.working.size.toNat = Config.maxLen)
    (b : Bool) : dataStep b s = dropOversized { s with rx := shiftIn b s.rx } :=
  (if_pos h).trans (if_pos hsize)

theorem endBitStep_commit {s : State} (h : s.rx.checksum = 0) :
    endBitStep true s = commit { s with rx := goPreamble s.cfg s.rx } := by
  simp [endBitStep, checksumValid, h]

theorem endBitStep_reject {s : State} (h : s.rx.checksum ≠ 0) :
    endBitStep true s = checksumReject { s with rx := goPreamble s.cfg s.rx } := by
  simp [endBitStep, checksumValid, show ¬ s.rx.checksum = 0#8 from h]

theorem endBitStep_full {s : State} (h : s.rx.working.size.toNat = Config.maxLen) :
    endBitStep false s = dropOversized s := if_pos h

theorem endBitStep_continue {s : State} (h : s.rx.working.size.toNat ≠ Config.maxLen) :
    endBitStep false s = { s with rx := { s.rx with state := .waitData, bitCount := 0, tempByte := 0 } } := if_neg h

/-! ### A bit inside a packet -/

theorem perStateStep_waitData {s : State} (h : s.rx.state = .waitData) (b : Bool) (e : Nat) :
    perStateStep b e s = dataStep b s := by
  simp only [perStateStep, h]

theorem perStateStep_waitEndBit {s : State} (h : s.rx.state = .waitEndBit) (b : Bool) (e : Nat) :
    perStateStep b e s = endBitStep b s := by
  simp only [perStateStep, h]

/-- Inside a packet the per-state step neither enters WAIT_START_BIT nor counts a one. -/
theorem perStateStep_inPacket {s : State} (h : inPacket s.rx) (b : Bool) (e : Nat) :
    (perStateStep b e s).rx.state ≠ .waitStartBit ∧
      (perStateStep b e s).rx.preambleBitCount = s.rx.preambleBitCount := by
  obtain hdata | hend := h
  · rw [perStateStep_waitData hdata]
    by_cases hlast : s.rx.bitCount + 1 = 8
    · by_cases hsize : s.rx.working.size.toNat = Config.maxLen
      · rw [dataStep_full hlast hsize]; simp
      · rw [dataStep_byte hlast hsize]; simp
    · rw [dataStep_of_bitCount_ne hlast]; simp [hdata]
  · rw [perStateStep_waitEndBit hend]
    cases b with
    | true =>
      by_cases hsum : s.rx.checksum = 0
      · rw [endBitStep_commit hsum]; simp
      · rw [endBitStep_reject hsum]; simp
    | false =>
      by_cases hsize : s.rx.working.size.toNat = Config.maxLen
      · rw [endBitStep_full hsize]; simp
      · rw [endBitStep_continue hsize]; simp

/-- With at most nine ones counted, an edge inside a packet is the per-state step and the count of ones. -/
theorem exec_of_carriesBit_inPacket {s : State} {d b : Bool} {t : Nat} (hstate : inPacket s.rx)
    (h : s.CarriesBit d t b) (hp : s.rx.preambleBitCount.toNat ≤ 9) :
    exec (edgeInstr d t) s = .next (State.tallyOnes b (perStateStep b (s.elapsedAt t)
      (State.setLastTs t (s.withEvents (if b then 0x0018 else 0x0008))))) := by
  obtain ⟨hne, hcount⟩ := perStateStep_inPacket
    (s := State.setLastTs t (s.withEvents (if b then 0x0018 else 0x0008))) hstate b (s.elapsedAt t)
  rw [exec_of_carriesBit h, postBitCheck_eq_tallyOnes hne (hcount ▸ hp)]

theorem exec_of_carriesBit_waitData {s : State} {d b : Bool} {t : Nat} (hstate : s.rx.state = .waitData)
    (h : s.CarriesBit d t b) (hp : s.rx.preambleBitCount.toNat ≤ 9) :
    exec (edgeInstr d t) s = .next (State.tallyOnes b (dataStep b
      (State.setLastTs t (s.withEvents (if b then 0x0018 else 0x0008))))) := by
  rw [exec_of_carriesBit_inPacket (.inl hstate) h hp, perStateStep_waitData (by exact hstate)]

theorem exec_of_carriesBit_waitEndBit {s : State} {d b : Bool} {t : Nat} (hstate : s.rx.state = .waitEndBit)
    (h : s.CarriesBit d t b) (hp : s.rx.preambleBitCount.toNat ≤ 9) :
    exec (edgeInstr d t) s = .next (State.tallyOnes b (endBitStep b
      (State.setLastTs t (s.withEvents (if b then 0x0018 else 0x0008))))) := by
  rw [exec_of_carriesBit_inPacket (.inr hstate) h hp, perStateStep_waitEndBit (by exact hstate)]

/-! ### What the steps write -/

/-- A byte that has a place is stored there (42_packet_assembler.md R93). -/
theorem appendByte_of_lt {r : Receiver} (h : r.working.size.toNat < Config.maxLen) :
    appendByte r =
      { r with
        state := .waitEndBit, checksum := r.checksum ^^^ r.tempByte
        working := { r.working with
          data := r.working.data.set r.working.size.toNat r.tempByte h, size := r.working.size + 1 } } := by
  have hset : r.working.data.setIfInBounds r.working.size.toNat r.tempByte =
      r.working.data.set r.working.size.toNat r.tempByte h := by
    ext i hi
    rw [Vector.getElem_setIfInBounds, Vector.getElem_set]
  rw [← hset]
  rfl

/-- The commit as one write of the mailbox, its events in the numbers of 30_encoding.md R54. -/
theorem commit_eq (s : State) :
    commit s =
      { s with
        box := { handoff := s.rx.working, dataReady := true }
        out := { s.out with
          ev := s.out.ev ||| (if s.box.dataReady then 0x1800 else 0x0800), notify := true } } := by
  have hev : (commit s).out.ev = s.out.ev ||| (if s.box.dataReady then 0x1800 else 0x0800) := by
    rw [commit_out, mask_overwrite, mask_commit]
    split
    · exact BitVec.or_assoc ..
    · rfl
  rw [← hev, commit_out]
  unfold commit
  split <;> rfl

/-! The events of a bit together with the one its step adds, in the numbers of 30_encoding.md R54. -/

theorem bitEvents_or_byte (b : Bool) :
    (if b then 0x0018 else 0x0008) ||| Event.byte.mask = if b then 0x0118 else 0x0108 := by
  cases b <;> decide

theorem bitEvents_or_overflow (b : Bool) :
    (if b then 0x0018 else 0x0008) ||| Event.overflow.mask = if b then 0x0218 else 0x0208 := by
  cases b <;> decide

theorem bitEvents_or_csumErr : 0x0018 ||| Event.csumErr.mask = 0x0418 := by decide

theorem bitEvents_or_commit (dataReady : Bool) :
    (0x0018 ||| (if dataReady then 0x1800 else 0x0800) : BitVec 16) = if dataReady then 0x1818 else 0x0818 := by
  cases dataReady <;> decide

/-! ### The obligations -/

/-- Settles O27: the three cases of `dataStep`; the bit is a case split only where its value is written. -/
theorem dataBitIsShiftedIn : Obligations.DataBitIsShiftedIn := by
  unfold Obligations.DataBitIsShiftedIn
  intro s d t b hstate hbit hones
  refine ⟨fun hmid => ?_, fun hlast hroom => ?_, fun hlast hfull => ?_⟩ <;>
    rw [exec_of_carriesBit_waitData hstate hbit hones]
  · rw [dataStep_of_bitCount_ne (by exact hmid)]
    cases b <;> rfl
  · rw [dataStep_byte (by exact hlast) (by exact hroom.ne), appendByte_of_lt (by exact hroom), ← bitEvents_or_byte]
    cases b <;> rfl
  · rw [dataStep_full (by exact hlast) (by exact hfull), ← bitEvents_or_overflow]
    cases b <;> rfl

/-- Settles O28: the four cases of `endBitStep`; OVERWRITE is `commit` reading the old `dataReady`. -/
theorem endBitEndsOrContinuesThePacket : Obligations.EndBitEndsOrContinuesThePacket := by
  unfold Obligations.EndBitEndsOrContinuesThePacket
  intro s d t b hstate hbit hones
  refine ⟨fun hb hsum => ?_, fun hb hsum => ?_, fun hb hfull => ?_, fun hb hroom => ?_⟩ <;>
    rw [exec_of_carriesBit_waitEndBit hstate hbit hones] <;> subst hb
  · rw [endBitStep_commit (by exact hsum), commit_eq, ← bitEvents_or_commit]
    rfl
  · rw [endBitStep_reject (by exact hsum), ← bitEvents_or_csumErr]
    rfl
  · have hevents : 0x0008 ||| Event.overflow.mask = 0x0208 := bitEvents_or_overflow false
    rw [endBitStep_full (by exact hfull), ← hevents]
    rfl
  · rw [endBitStep_continue (by exact hroom)]
    rfl

end Sys2Proof.Machine

/-! The PacketHandoff mailbox (44_packet_handoff.md R106–R110): IDLE and POLL with their whole next states, and who
writes the handoff message. -/

namespace Sys2Proof.Machine

open Sys2Proof

theorem perform_of_inRange {s : State} (hc : s.cfg.inRange = true) (f : State → State) : perform f s = .next (f s) :=
  if_pos hc

/-! ### IDLE and POLL -/

/-- Settles O36: IDLE is `State.begin`, which writes the outputs only. -/
theorem idleChangesNoRegister : Obligations.IdleChangesNoRegister := by
  unfold Obligations.IdleChangesNoRegister
  refine ⟨rfl, rfl, fun s hc => ?_⟩
  rw [exec_idle, perform_of_inRange hc]
  rfl

/-- POLL of an unread message takes it out of the mailbox (44_packet_handoff.md R109). -/
theorem pollMailbox_ready {s : State} (h : s.box.dataReady = true) : pollMailbox s =
    { s with
      box := { s.box with dataReady := false }
      out := { ev := 0, resp := some (respWord s.box.handoff), notify := false } } := by
  rw [pollMailbox_eq, if_pos h]

/-- POLL of a read mailbox changes nothing but the outputs (44_packet_handoff.md R109). -/
theorem pollMailbox_empty {s : State} (h : s.box.dataReady = false) :
    pollMailbox s = { s with out := { ev := 0, resp := some 0, notify := false } } := by
  have hbox : { s.box with dataReady := false } = s.box := by rw [← h]
  rw [pollMailbox_eq, hbox, h]
  rfl

/-- Settles O33: the two values of `dataReady`; `respWord` is the response written out. -/
theorem pollReadsAndClearsTheMailbox : Obligations.PollReadsAndClearsTheMailbox := by
  unfold Obligations.PollReadsAndClearsTheMailbox
  refine ⟨rfl, rfl, fun s hc => ⟨fun hready => ?_, fun hempty => ?_⟩⟩
  · rw [exec_poll, perform_of_inRange hc, pollMailbox_ready hready]
    rfl
  · rw [exec_poll, perform_of_inRange hc, pollMailbox_empty hempty]

/-! ### Who writes the handoff message -/

/-- From the state `s` to the state `u` nothing was committed: no COMMIT, no pulse, the handoff message kept. -/
structure NoCommit (s u : State) : Prop where
  commit : Event.isIn .commit u.out.ev = Event.isIn .commit s.out.ev
  notify : u.out.notify = s.out.notify
  handoff : u.box.handoff = s.box.handoff

theorem NoCommit.refl (s : State) : NoCommit s s := ⟨rfl, rfl, rfl⟩

theorem NoCommit.trans {s u v : State} (h : NoCommit s u) (h' : NoCommit u v) : NoCommit s v :=
  ⟨h'.commit.trans h.commit, h'.notify.trans h.notify, h'.handoff.trans h.handoff⟩

/-- Every transaction starts without events and pulse, so what it has not committed it shows as not committed. -/
theorem NoCommit.of_begin {s t : State} (h : NoCommit s.begin t) :
    Event.isIn .commit t.out.ev = false ∧ t.out.notify = false ∧ t.box.handoff = s.box.handoff :=
  ⟨h.commit.trans (isIn_zero _), h.notify, h.handoff⟩

/-- The transaction from the state `s` to the state `t` committed: the whole working message of `s` replaced the handoff
message, read or not (44_packet_handoff.md R106–R108). -/
structure WholeCommit (s t : State) : Prop where
  commit : t.emitted .commit
  notify : t.out.notify = true
  dataReady : t.box.dataReady = true
  handoff : t.box.handoff = s.rx.working
  overwrite : t.emitted .overwrite ↔ s.box.dataReady = true

/-! Neither POLL nor the stages of an edge before and after the per-state step commit. -/

theorem noCommit_pollMailbox (s : State) : NoCommit s.begin (pollMailbox s) := by
  rw [pollMailbox_eq]
  exact ⟨rfl, rfl, rfl⟩

theorem noCommit_atBit (b : Bool) (t : Nat) (s : State) : NoCommit s.begin (State.atBit b t s) := by
  refine ⟨?_, rfl, rfl⟩
  cases b <;> simp

/-- The post-bit check sets no event but PREAMBLE (42_packet_assembler.md R95, R96). -/
theorem postBitCheck_isIn {e : Event} (he : e ≠ .preamble) (b : Bool) (s : State) :
    Event.isIn e (postBitCheck b s).out.ev = Event.isIn e s.out.ev := by
  obtain ⟨h, -⟩ | ⟨h, -⟩ | ⟨h, -⟩ | ⟨h, -⟩ := postBitCheck_cases b s <;> simp [h, he]

theorem noCommit_postBitCheck (b : Bool) (s : State) : NoCommit s (postBitCheck b s) := by
  obtain ⟨-, -, hbox, -, -, hnotify⟩ := postBitCheck_frame b s
  exact ⟨postBitCheck_isIn (by decide) b s, hnotify, by rw [hbox]⟩

/-- Of the operations in `perStateStep_cases` only `commit` writes the mailbox, pulses or emits COMMIT. -/
theorem perStateStep_commit_or_noCommit (b : Bool) (e : Nat) (s : State) :
    perStateStep b e s = commit { s with rx := goPreamble s.cfg s.rx } ∨ NoCommit s (perStateStep b e s) := by
  obtain ⟨h, -⟩ | ⟨h, -⟩ | ⟨h, -⟩ | ⟨h, -⟩ | ⟨h, -⟩ | ⟨h, -⟩ | ⟨h, -⟩ | ⟨h, -⟩ | ⟨h, -⟩ | ⟨h, -⟩ | ⟨h, -⟩ | ⟨h, -⟩ |
    ⟨h, -⟩ | ⟨h, -⟩ | ⟨hcommit, -⟩ | ⟨h, -⟩ | ⟨h, -⟩ | ⟨h, -⟩ := perStateStep_cases b e s
  on_goal 15 => exact .inl hcommit
  all_goals
    right
    rw [h]
    constructor <;> simp

/-- Before its per-state step a bit has set no event but BIT and BITVAL, so OVERWRITE tells the old `dataReady`. -/
theorem commit_atBit_overwrite (b : Bool) (t : Nat) (s : State) (r : Receiver) :
    Event.isIn .overwrite (commit { State.atBit b t s with rx := r }).out.ev = s.box.dataReady := by
  cases hready : s.box.dataReady <;> cases b <;> simp [hready]

/-- A bit whose per-state step commits is a whole-record commit; the post-bit check leaves it as it is. -/
theorem wholeCommit_of_perStateStep {b : Bool} {e t : Nat} {s : State}
    (h : perStateStep b e (State.atBit b t s) =
      commit { State.atBit b t s with rx := goPreamble s.cfg (State.atBit b t s).rx }) :
    WholeCommit s (postBitCheck b (perStateStep b e (State.atBit b t s))) := by
  obtain ⟨-, -, hbox, -, -, hnotify⟩ := postBitCheck_frame b (perStateStep b e (State.atBit b t s))
  constructor
  · rw [State.emitted, postBitCheck_isIn (by decide), h]; simp
  · rw [hnotify, h]; simp
  · rw [hbox, h]; simp
  · rw [hbox, h]; simp
  · rw [State.emitted, postBitCheck_isIn (by decide), h, commit_atBit_overwrite]

theorem exec_edge_commit {d : Bool} {τ : Nat} {s t : State} (h : exec (edgeInstr d τ) s = .next t) :
    NoCommit s.begin t ∨ WholeCommit s t := by
  obtain ⟨-, rfl | rfl | rfl | ⟨b, e, -, rfl⟩⟩ := exec_edge_cases h
  iterate 3
    · left
      constructor <;> simp
  · obtain hcommit | hno := perStateStep_commit_or_noCommit b e (State.atBit b τ s)
    · exact .inr (wholeCommit_of_perStateStep hcommit)
    · exact .inl (((noCommit_atBit b τ s).trans hno).trans (noCommit_postBitCheck b _))

/-- Settles O43: IDLE and POLL commit nothing, RESET clears the mailbox, and an edge is as in `exec_edge_commit`. -/
theorem handoffIsWrittenWholeByCommit : Obligations.HandoffIsWrittenWholeByCommit := by
  unfold Obligations.HandoffIsWrittenWholeByCommit
  intro i s t h
  obtain rfl | rfl | rfl | ⟨d, τ, rfl⟩ := instr_cases i
  · rw [exec_idle, perform_next] at h
    obtain ⟨-, rfl⟩ := h
    exact .inl (NoCommit.refl _).of_begin
  · rw [exec_poll, perform_next] at h
    obtain ⟨-, rfl⟩ := h
    exact .inl (noCommit_pollMailbox s).of_begin
  · rw [exec_reset, perform_next] at h
    obtain ⟨-, rfl⟩ := h
    exact .inr (.inr ⟨rfl, isIn_zero _, rfl, rfl⟩)
  · obtain hno | hcommit := exec_edge_commit h
    · exact .inl hno.of_begin
    · exact .inr (.inl ⟨⟨d, τ, rfl⟩, hcommit.commit, hcommit.notify, hcommit.dataReady, hcommit.handoff,
        hcommit.overwrite⟩)

end Sys2Proof.Machine

/-! The RESET transaction (70_reset_and_hazards.md R133, R136): it forgets the state before it, but for the
parameters, the inputs and counters that do not exist. -/

namespace Sys2Proof.Machine

open Sys2Proof

/-- RESET leads back to power-on from every state; only the counters and the inputs can show what was before it. -/
theorem resetBlock_eq (s : State) :
    resetBlock s = { State.powerOn s.cfg with diag := resetDiag s.cfg s.diag, inp := s.inp } := rfl

theorem resetDiag_idem (c : Config) (d : Diag) : resetDiag c (resetDiag c d) = resetDiag c d := by
  cases hc : c.diag <;> simp [resetDiag, hc]

theorem resetBlock_idem (s : State) : resetBlock (resetBlock s) = resetBlock s := by
  rw [resetBlock_eq (resetBlock s), resetBlock_cfg, resetBlock_diag, resetBlock_inp, resetDiag_idem, resetBlock_eq]

/-- After RESET a rising edge is awaited (41_edge_synchronizer.md R73). -/
theorem resetBlock_trigModeOut (s : State) : (resetBlock s).trigModeOut = 0b10#2 := by
  rw [State.trigModeOut, trigMode_of_ne_waitStartBit (by simp)]
  simp

/-- Settles O37: `resetBlock` writes power-on values, of which each clause reads its part, and it is idempotent. -/
theorem resetWritesEveryRegister : Obligations.ResetWritesEveryRegister := by
  unfold Obligations.ResetWritesEveryRegister
  refine ⟨rfl, rfl, fun s hc => ⟨resetBlock s, ?_, ?_, resetBlock_trigModeOut s, rfl, ?_⟩⟩
  · rw [exec_reset, perform_of_inRange hc]
  · rw [exec_reset, perform_of_inRange (by rwa [resetBlock_cfg]), resetBlock_idem]
  · rw [resetBlock_eq]
    rfl

end Sys2Proof.Machine

/-! The round trip of 30_encoding.md R47–R52: a number decodes to a transaction exactly when it is that transaction's
word and the operand fits. -/

namespace Sys2Proof

/-! ### The word of a transaction, cut at bit `TW` -/

theorem encode_eq_encodeFields (tw : Nat) (i : Instr) :
    encode tw i = encodeFields tw i.fields.op i.fields.d i.fields.t := by
  cases i <;> rfl

theorem Instr.fields_eq (i : Instr) :
    i.fields = { op := i.fields.op, rsv := false, d := i.fields.d, t := i.fields.t } := by
  cases i <;> rfl

/-- A transaction is well-formed when its `T` field is a `TW`-bit number; without operand that field is 0. -/
theorem wf_iff_fields (tw : Nat) (i : Instr) : i.wf tw = true ↔ i.fields.t < 2 ^ tw := by
  cases i <;> simp [Instr.wf, Instr.fields]

theorem encodeFields_eq_append {tw : Nat} (op : BitVec 2) (d : Bool) (lo : BitVec tw) :
    encodeFields tw op d lo.toNat = ((op ++ 0#1 ++ BitVec.ofBool d) ++ lo).toNat := by
  have htop : ∀ (op : BitVec 2) (d : Bool), (op ++ 0#1 ++ BitVec.ofBool d).toNat = op.toNat * 4 + d.toNat := by decide
  rw [BitVec.toNat_append, htop, ← Nat.shiftLeft_add_eq_or_of_lt lo.isLt, Nat.shiftLeft_eq, encodeFields, pow_add]
  ring

theorem exists_append_toNat_eq {tw w : Nat} (h : w < 2 ^ (tw + 4)) :
    ∃ (hi : BitVec 4) (lo : BitVec tw), w = (hi ++ lo).toNat := by
  refine ⟨(BitVec.ofNat (4 + tw) w).extractLsb' tw 4, (BitVec.ofNat (4 + tw) w).extractLsb' 0 tw, ?_⟩
  rw [BitVec.extractLsb'_append_extractLsb', BitVec.toNat_ofNat, Nat.mod_eq_of_lt (by rwa [Nat.add_comm])]

/-! ### The round trip -/

/-- On words the decoder is the inverse of the encoder: `txnFields_append_eq_iff` reads the fields that
`encodeFields_eq_append` writes. -/
theorem decode_append_iff {tw : Nat} (hi : BitVec 4) (lo : BitVec tw) (i : Instr) :
    decode tw (hi ++ lo).toNat = .ok i ↔
      hi = i.fields.op ++ 0#1 ++ BitVec.ofBool i.fields.d ∧ i.fields.t = lo.toNat := by
  have hlt : (hi ++ lo).toNat < 2 ^ (tw + 4) := (hi ++ lo).isLt.trans_eq (by rw [Nat.add_comm])
  rw [decode_of_lt hlt, decodeFields_eq_ok_iff, i.fields_eq, txnFields_append_eq_iff]

theorem decode_encode {tw : Nat} {i : Instr} (h : i.wf tw = true) : decode tw (encode tw i) = .ok i := by
  have ht : i.fields.t = (BitVec.ofNat tw i.fields.t).toNat := by
    rw [BitVec.toNat_ofNat, Nat.mod_eq_of_lt ((wf_iff_fields tw i).1 h)]
  rw [encode_eq_encodeFields, ht, encodeFields_eq_append, decode_append_iff]
  exact ⟨rfl, ht⟩

theorem lt_of_decode_eq_ok {tw w : Nat} {i : Instr} (h : decode tw w = .ok i) : w < 2 ^ (tw + 4) := by
  by_contra hw
  simp [decode, hw] at h

theorem encode_of_decode {tw w : Nat} {i : Instr} (h : decode tw w = .ok i) : encode tw i = w ∧ i.wf tw = true := by
  obtain ⟨hi, lo, rfl⟩ := exists_append_toNat_eq (lt_of_decode_eq_ok h)
  obtain ⟨rfl, ht⟩ := (decode_append_iff hi lo i).1 h
  exact ⟨by rw [encode_eq_encodeFields, ht, encodeFields_eq_append], (wf_iff_fields tw i).2 (ht ▸ lo.isLt)⟩

/-- Settles O1: `decode_encode`, which needs no lower bound on `TW`. -/
theorem decodeOfEncodeIsTheInstruction : Obligations.DecodeOfEncodeIsTheInstruction := by
  unfold Obligations.DecodeOfEncodeIsTheInstruction
  exact fun _ _ _ hwf => decode_encode hwf

/-- Settles O2: a word that decodes is cut at bit `TW`, and both parts are those of the encoding. -/
theorem encodeOfDecodeIsTheWord : Obligations.EncodeOfDecodeIsTheWord := by
  unfold Obligations.EncodeOfDecodeIsTheWord
  exact fun _ _ _ h => encode_of_decode h

/-- The table decoder reads back the word of a well-formed transaction of `TW = 32`. -/
theorem decodeTableWord_encode {i : Instr} (h : i.wf 32 = true) {w : Nat} (hw : encode 32 i = w) :
    decodeTableWord 40 w = some i := by
  have hlt : w < 2 ^ 40 := (lt_of_decode_eq_ok (hw ▸ decode_encode h)).trans (by decide)
  rw [decodeTableWord, Nat.mod_eq_of_lt hlt, ← hw, decode_encode h]

/-- Settles O5: each of the six words is the encoding of its transaction. -/
theorem writtenOutWordsDecode : Obligations.WrittenOutWordsDecode := by
  unfold Obligations.WrittenOutWordsDecode
  refine ⟨?_, ?_, ?_, ?_, ?_, ?_⟩ <;> exact decodeTableWord_encode (by decide) (by decide)

end Sys2Proof

/-! The seven invariants of 10_state.md R29: what they say in each receive state, and that every step keeps them. -/

namespace Sys2Proof.Machine

open Sys2Proof

/-! ### What a transaction that answers has done -/

theorem exec_idle_eq {s t : State} (h : exec .idle s = .next t) : t = s.begin := by
  rw [exec_idle, perform_next] at h
  exact h.2.symm

theorem exec_poll_eq {s t : State} (h : exec .poll s = .next t) : t =
    { s with
      box := { s.box with dataReady := false }
      out := { ev := 0, resp := some (if s.box.dataReady then respWord s.box.handoff else 0), notify := false } } := by
  rw [exec_poll, perform_next, pollMailbox_eq] at h
  exact h.2.symm

theorem exec_reset_eq {s t : State} (h : exec .reset s = .next t) : t = resetBlock s := by
  rw [exec_reset, perform_next] at h
  exact h.2.symm

/-- The next state of IDLE, POLL and RESET; that of an edge is in `exec_edge_cases`. -/
theorem exec_cases {i : Instr} {s t : State} (h : exec i s = .next t) :
    (i = .idle ∧ t = s.begin) ∨
    (i = .poll ∧ t =
      { s with
        box := { s.box with dataReady := false }
        out := { ev := 0, resp := some (if s.box.dataReady then respWord s.box.handoff else 0), notify := false } }) ∨
    (i = .reset ∧ t = resetBlock s) ∨ ∃ d τ, i = edgeInstr d τ := by
  obtain rfl | rfl | rfl | hedge := instr_cases i
  · exact .inl ⟨rfl, exec_idle_eq h⟩
  · exact .inr (.inl ⟨rfl, exec_poll_eq h⟩)
  · exact .inr (.inr (.inl ⟨rfl, exec_reset_eq h⟩))
  · exact .inr (.inr (.inr hedge))

theorem perStateStep_cfg (b : Bool) (e : Nat) (s : State) : (perStateStep b e s).cfg = s.cfg :=
  (perStateStep_frame b e s).1

theorem postBitCheck_cfg (b : Bool) (s : State) : (postBitCheck b s).cfg = s.cfg := (postBitCheck_frame b s).1

theorem postBitCheck_box (b : Bool) (s : State) : (postBitCheck b s).box = s.box := by
  obtain ⟨-, -, hbox, -⟩ := postBitCheck_frame b s
  exact hbox

/-! ### The invariants, receive state by receive state -/

/-- The codes of both registers are legal in every receiver; the other six invariants are conditions. -/
theorem legalState_iff {c : Config} {r : Receiver} : LegalState c r ↔
    (r.halfBit ≠ .h0 → r.state = .waitStartBit) ∧
    (r.bitMin = (thrPair c (phaseOf r.state)).lo ∧ r.bitMax = (thrPair c (phaseOf r.state)).hi) ∧ bitCountLegal r ∧
    (inPacket r → r.checksum = xorFirst r.working.size.toNat r.working.data) ∧
    (inPacket r → r.preambleBitCount.toNat ≤ r.bitCount.toNat ∧ r.bitCount.toNat ≤ 8) ∧
    (c.syncAlways = true → r.state ≠ .waitStartBitFull) := by
  constructor
  · rintro ⟨-, hhalf, hthr, hcount, hxor, hones, hsync⟩
    exact ⟨hhalf, hthr, hcount, hxor, hones, hsync⟩
  · rintro ⟨hhalf, hthr, hcount, hxor, hones, hsync⟩
    have hcodes : r.state.code.toNat ≤ 4 ∧ r.halfBit.code ∈ [0#3, 1#3, 3#3, 4#3] :=
      ⟨by cases r.state <;> decide, by cases r.halfBit <;> decide⟩
    exact ⟨hcodes, hhalf, hthr, hcount, hxor, hones, hsync⟩

theorem legal_waitPreamble_iff {c : Config} {r : Receiver} (h : r.state = .waitPreamble) :
    LegalState c r ↔ r.halfBit = .h0 ∧ r.bitMin = c.pre.lo ∧ r.bitMax = c.pre.hi ∧ r.bitCount = 0 := by
  simp [legalState_iff, bitCountLegal, inPacket, phaseOf, h, and_assoc]

theorem legal_waitStartBit_iff {c : Config} {r : Receiver} (h : r.state = .waitStartBit) :
    LegalState c r ↔ r.bitMin = c.half.lo ∧ r.bitMax = c.half.hi ∧ r.bitCount = 0 := by
  simp [legalState_iff, bitCountLegal, inPacket, phaseOf, h, and_assoc]

theorem legal_waitStartBitFull_iff {c : Config} {r : Receiver} (h : r.state = .waitStartBitFull) :
    LegalState c r ↔
      r.halfBit = .h0 ∧ r.bitMin = c.pre.lo ∧ r.bitMax = c.pre.hi ∧ r.bitCount = 0 ∧ c.syncAlways = false := by
  simp [legalState_iff, bitCountLegal, inPacket, phaseOf, h, and_assoc]

theorem legal_waitData_iff {c : Config} {r : Receiver} (h : r.state = .waitData) :
    LegalState c r ↔
      r.halfBit = .h0 ∧ r.bitMin = c.full.lo ∧ r.bitMax = c.full.hi ∧ r.bitCount.toNat ≤ 7 ∧
      r.working.size.toNat ≤ 5 ∧ r.checksum = xorFirst r.working.size.toNat r.working.data ∧
      r.preambleBitCount.toNat ≤ r.bitCount.toNat := by
  simp only [legalState_iff, bitCountLegal, inPacket, phaseOf, h, thrPair_full]
  simp [and_assoc]
  omega

theorem legal_waitEndBit_iff {c : Config} {r : Receiver} (h : r.state = .waitEndBit) :
    LegalState c r ↔
      r.halfBit = .h0 ∧ r.bitMin = c.full.lo ∧ r.bitMax = c.full.hi ∧ r.bitCount = 8 ∧
      1 ≤ r.working.size.toNat ∧ r.working.size.toNat ≤ 6 ∧
      r.checksum = xorFirst r.working.size.toNat r.working.data ∧ r.preambleBitCount.toNat ≤ 8 := by
  simp only [legalState_iff, bitCountLegal, inPacket, phaseOf, h, thrPair_full]
  simp +contextual [and_assoc]

theorem LegalState.bitCount_eq_zero {c : Config} {r : Receiver} (h : LegalState c r) (hout : ¬ inPacket r) :
    r.bitCount = 0 := by
  obtain ⟨-, -, hzero⟩ := h.bitCounts
  exact hzero hout

/-- Outside a packet no invariant speaks of the count of ones. -/
theorem legal_of_other_count {c : Config} {r : Receiver} (h : LegalState c r) (hout : ¬ inPacket r) (n : Byte) :
    LegalState c { r with preambleBitCount := n } :=
  ⟨h.codes, h.halfBitOnlyInSync, h.thresholds, h.bitCounts, h.runningXor, fun hin => absurd hin hout, h.syncAlways⟩

/-- The time reference is in no invariant. -/
theorem legal_of_other_lastTs {c : Config} {r : Receiver} (h : LegalState c r) (t : Nat) :
    LegalState c { r with lastTs := t } :=
  ⟨h.codes, h.halfBitOnlyInSync, h.thresholds, h.bitCounts, h.runningXor, h.onesInByte, h.syncAlways⟩

theorem legal_huntReset (c : Config) (r : Receiver) : LegalState c (huntReset c r) :=
  (legal_waitPreamble_iff rfl).2 ⟨rfl, rfl, rfl, rfl⟩

/-- The receiver after a RESET, and at power-on. -/
theorem legal_resetReceiver (c : Config) (r : Receiver) : LegalState c (resetReceiver c r) :=
  (legal_waitPreamble_iff rfl).2 ⟨rfl, rfl, rfl, rfl⟩

/-! ### One more byte in the running XOR -/

theorem xorFirst_setIfInBounds {d : Vector Byte Config.maxLen} {n : Nat} (h : n < Config.maxLen) (x : Byte) :
    xorFirst (n + 1) (d.setIfInBounds n x) = xorFirst n d ^^^ x := by
  have hlen : n < d.toList.length := by simpa using h
  rw [xorFirst, xorFirst, Vector.toList_setIfInBounds, List.take_succ_eq_append_getElem (by simpa using h),
    List.getElem_set_self, List.take_set_of_le le_rfl, List.foldl_append]
  rfl

theorem size_succ_toNat {n : BitVec 3} (h : n.toNat < 6) : (n + 1).toNat = n.toNat + 1 := by
  rw [BitVec.toNat_add]
  exact Nat.mod_eq_of_lt (by simp; omega)

theorem bitCount_succ_toNat {n : BitVec 4} (h : n.toNat < 15) : (n + 1).toNat = n.toNat + 1 := by
  rw [BitVec.toNat_add]
  exact Nat.mod_eq_of_lt (by simp; omega)

/-! ### The stages of a classified bit -/

/-- The receiver with the bit counted as the post-bit check counts it (42_packet_assembler.md R95, R96), before that
check decides whether a preamble is complete; `postBitCheck_rx_cases` ties it to the model. -/
def countBit (b : Bool) (r : Receiver) : Receiver :=
  { r with preambleBitCount := if b then satSucc r.preambleBitCount else 0 }

/-- The post-bit check on the receiver: nothing while synchronising; otherwise the count, after which a one may enter a
start-bit state. -/
theorem postBitCheck_rx_cases (b : Bool) (s : State) :
    ((postBitCheck b s).rx = s.rx ∧ s.rx.state = .waitStartBit) ∨
    ((postBitCheck b s).rx = countBit b s.rx ∧ s.rx.state ≠ .waitStartBit ∧
      (b = true → s.rx.preambleBitCount.toNat ≤ 9)) ∨
    ((postBitCheck b s).rx = enterSync s.cfg (countBit b s.rx) ∧ s.rx.state ≠ .waitStartBit ∧ b = true ∧
      10 ≤ s.rx.preambleBitCount.toNat ∧ (s.cfg.syncAlways = true ∨ s.rx.checksum ≠ 0)) ∨
    ((postBitCheck b s).rx = enterFull s.cfg (countBit b s.rx) ∧ s.rx.state ≠ .waitStartBit ∧ b = true ∧
      10 ≤ s.rx.preambleBitCount.toNat ∧ s.cfg.syncAlways = false ∧ s.rx.checksum = 0) := by
  obtain ⟨h, hstate⟩ | ⟨h, hstate, rfl⟩ | ⟨h, hstate, rfl, hfew⟩ | ⟨h, hstate, rfl, hones⟩ :=
    postBitCheck_cases b s
  · exact .inl ⟨by rw [h], hstate⟩
  · exact .inr (.inl ⟨by rw [h]; rfl, hstate, nofun⟩)
  · exact .inr (.inl ⟨by rw [h]; rfl, hstate, fun _ => hfew⟩)
  · have hrx : (postBitCheck true s).rx =
        if s.cfg.syncAlways || s.rx.checksum != 0 then enterSync s.cfg (countBit true s.rx)
        else enterFull s.cfg (countBit true s.rx) := by rw [h]; rfl
    by_cases hsync : s.cfg.syncAlways = true ∨ s.rx.checksum ≠ 0
    · exact .inr (.inr (.inl ⟨by rw [hrx, if_pos (by simpa using hsync)], hstate, rfl, hones, hsync⟩))
    · obtain ⟨hno, hsum⟩ : s.cfg.syncAlways = false ∧ s.rx.checksum = 0 := by simpa using hsync
      exact .inr (.inr (.inr ⟨by rw [hrx, if_neg (by simp [hno, hsum])], hstate, rfl, hones, hno, hsum⟩))

theorem countBit_true_toNat (r : Receiver) :
    (countBit true r).preambleBitCount.toNat = min (r.preambleBitCount.toNat + 1) 255 := satSucc_toNat _

/-- The half-bit table on the receiver: it stays in WAIT_START_BIT, fails the synchronisation, or opens a packet, and
this only on a zero. -/
theorem halfBitStep_rx_cases (b : Bool) (e : Nat) (s : State) :
    (∃ half bit1 bit2, (halfBitStep b e s).rx = { s.rx with halfBit := half, bit1 := bit1, bit2 := bit2 }) ∨
    (∃ bit2, (halfBitStep b e s).rx = huntReset s.cfg { s.rx with bit2 := bit2 }) ∨
    (b = false ∧ ∃ flip, (halfBitStep b e s).rx = openPacket flip s.cfg s.rx) := by
  cases hh : s.rx.halfBit <;> cases b <;> simp only [halfBitStep, hh]
  case h0.false | h0.true | h1.false => exact .inl ⟨_, _, _, rfl⟩
  case h1.true =>
    unfold pairOfOnes
    simp only
    split
    · exact .inr (.inl ⟨e, rfl⟩)
    · exact .inl ⟨_, _, _, rfl⟩
  case h3.true | h4.true => exact .inr (.inl ⟨s.rx.bit2, rfl⟩)
  case h3.false => exact .inr (.inr ⟨trivial, true, acceptStart_rx true s⟩)
  case h4.false => exact .inr (.inr ⟨trivial, false, acceptStart_rx false s⟩)

/-- The start bit is a zero: a packet opens with nothing counted. -/
theorem legal_countBit_openPacket (flip : Bool) (c : Config) (r : Receiver) :
    LegalState c (countBit false (openPacket flip c r)) :=
  (legal_waitData_iff rfl).2 ⟨rfl, rfl, rfl, Nat.zero_le _, Nat.zero_le _, rfl, le_rfl⟩

theorem legal_countBit_halfBitStep {s : State} (h : s.Legal) (hs : s.rx.state = .waitStartBit) (b : Bool) (e : Nat) :
    LegalState s.cfg (countBit b (halfBitStep b e s).rx) := by
  have ⟨hlo, hhi, hcount⟩ := (legal_waitStartBit_iff hs).1 h
  obtain ⟨half, bit1, bit2, hrx⟩ | ⟨bit2, hrx⟩ | ⟨rfl, flip, hrx⟩ := halfBitStep_rx_cases b e s <;> rw [hrx]
  · exact (legal_waitStartBit_iff (by exact hs)).2 ⟨hlo, hhi, hcount⟩
  · exact legal_of_other_count (legal_huntReset _ _) (by simp) _
  · exact legal_countBit_openPacket _ _ _

/-- A data bit raises `bitCount` and at most as much the count of ones. -/
theorem legal_countBit_dataStep {s : State} (h : s.Legal) (hs : s.rx.state = .waitData) (b : Bool) :
    LegalState s.cfg (countBit b (dataStep b s).rx) := by
  have ⟨hhalf, hlo, hhi, hcount, hsize, hxor, hones⟩ := (legal_waitData_iff hs).1 h
  have hroom : s.rx.working.size.toNat < Config.maxLen := Nat.lt_succ_of_le hsize
  have hcount' : (s.rx.bitCount + 1).toNat = s.rx.bitCount.toNat + 1 := bitCount_succ_toNat (by omega)
  have hones' : (countBit b s.rx).preambleBitCount.toNat ≤ s.rx.bitCount.toNat + 1 := by
    cases b with
    | false => exact Nat.zero_le _
    | true => rw [countBit_true_toNat]; omega
  by_cases hlast : s.rx.bitCount + 1 = 8
  · have hseven : s.rx.bitCount.toNat + 1 = 8 := by rw [← hcount', hlast]; rfl
    have hsize' : (s.rx.working.size + 1).toNat = s.rx.working.size.toNat + 1 := size_succ_toNat hroom
    rw [dataStep_byte hlast hroom.ne]
    refine (legal_waitEndBit_iff rfl).2 ⟨hhalf, hlo, hhi, hlast, ?_, ?_, ?_, hones'.trans hseven.le⟩
    · exact hsize'.symm ▸ Nat.succ_le_succ (Nat.zero_le _)
    · exact hsize'.symm ▸ hroom
    · exact (congrArg (· ^^^ _) hxor).trans ((xorFirst_setIfInBounds hroom _).symm.trans
        (congrArg (xorFirst · _) hsize'.symm))
  · have hbefore : s.rx.bitCount.toNat ≠ 7 := fun h7 => hlast (BitVec.eq_of_toNat_eq (by rw [hcount', h7]; rfl))
    rw [dataStep_of_bitCount_ne hlast]
    refine (legal_waitData_iff (by exact hs)).2 ⟨hhalf, hlo, hhi, ?_, hsize, hxor, ?_⟩
    · exact hcount'.trans_le (by omega)
    · exact hones'.trans hcount'.symm.le

/-- After an end bit the block hunts again, or a zero opens the next byte. -/
theorem legal_countBit_endBitStep {s : State} (h : s.Legal) (hs : s.rx.state = .waitEndBit) (b : Bool) :
    LegalState s.cfg (countBit b (endBitStep b s).rx) := by
  obtain ⟨hhalf, hlo, hhi, -, -, hsize, hxor, -⟩ := (legal_waitEndBit_iff hs).1 h
  have hhunt : LegalState s.cfg (countBit b (goPreamble s.cfg s.rx)) :=
    (legal_waitPreamble_iff rfl).2 ⟨hhalf, rfl, rfl, rfl⟩
  cases b with
  | true =>
    by_cases hsum : s.rx.checksum = 0
    · rw [endBitStep_commit hsum, commit_rx]; exact hhunt
    · rw [endBitStep_reject hsum]; exact hhunt
  | false =>
    by_cases hfull : s.rx.working.size.toNat = Config.maxLen
    · rw [endBitStep_full hfull]; exact hhunt
    · rw [endBitStep_continue hfull]
      have hroom : s.rx.working.size.toNat ≤ 5 := Nat.le_of_lt_succ (lt_of_le_of_ne hsize hfull)
      exact (legal_waitData_iff rfl).2 ⟨hhalf, hlo, hhi, Nat.zero_le _, hroom, hxor, le_rfl⟩

/-- The per-state step keeps the invariants, with the bit counted. -/
theorem legal_countBit_perStateStep {s : State} (h : s.Legal) (b : Bool) (e : Nat) :
    LegalState s.cfg (countBit b (perStateStep b e s).rx) := by
  cases hs : s.rx.state with
  | waitPreamble =>
    simp only [perStateStep, hs, preambleStep]
    exact legal_of_other_count h (by simp [hs]) _
  | waitStartBit =>
    rw [perStateStep_waitStartBit hs]
    exact legal_countBit_halfBitStep h hs b e
  | waitStartBitFull =>
    simp only [perStateStep, hs, fullStartStep]
    cases b with
    | true => exact legal_of_other_count h (by simp [hs]) _
    | false => exact legal_countBit_openPacket false _ _
  | waitData =>
    rw [perStateStep_waitData hs]
    exact legal_countBit_dataStep h hs b
  | waitEndBit =>
    rw [perStateStep_waitEndBit hs]
    exact legal_countBit_endBitStep h hs b

/-- The post-bit check keeps the invariants: more than `PRE_LIMIT` ones are never counted inside a packet. -/
theorem legal_postBitCheck {s : State} {b : Bool} (h : LegalState s.cfg (countBit b s.rx)) :
    (postBitCheck b s).Legal := by
  have hout (hb : b = true) (hones : 10 ≤ s.rx.preambleBitCount.toNat) : ¬ inPacket (countBit b s.rx) := fun hin => by
    have hle := h.onesInByte hin
    subst hb
    rw [countBit_true_toNat] at hle
    omega
  unfold State.Legal
  rw [postBitCheck_cfg]
  obtain ⟨hrx, hstate⟩ | ⟨hrx, -⟩ | ⟨hrx, -, hb, hones, -⟩ | ⟨hrx, hstate, hb, hones, hno, -⟩ :=
    postBitCheck_rx_cases b s <;> rw [hrx]
  · exact legal_of_other_count h (by simp [countBit, hstate]) s.rx.preambleBitCount
  · exact h
  · exact (legal_waitStartBit_iff rfl).2 ⟨rfl, rfl, h.bitCount_eq_zero (hout hb hones)⟩
  · have hhalf : (countBit b s.rx).halfBit = .h0 := by
      by_contra hne
      exact hstate (h.halfBitOnlyInSync hne)
    exact (legal_waitStartBitFull_iff rfl).2 ⟨hhalf, rfl, rfl, h.bitCount_eq_zero (hout hb hones), hno⟩

/-! ### Transactions and steps -/

theorem legal_exec {i : Instr} {s t : State} (h : s.Legal) (he : exec i s = .next t) : t.Legal := by
  obtain ⟨-, rfl⟩ | ⟨-, rfl⟩ | ⟨-, rfl⟩ | ⟨d, τ, rfl⟩ := exec_cases he
  · exact h
  · exact h
  · exact legal_resetReceiver _ _
  · obtain ⟨-, rfl | rfl | rfl | ⟨b, e, -, rfl⟩⟩ := exec_edge_cases he
    · exact h
    · exact h
    · exact legal_huntReset _ _
    · have hbit : (State.atBit b τ s).Legal := legal_of_other_lastTs h _
      refine legal_postBitCheck ?_
      rw [perStateStep_cfg]
      exact legal_countBit_perStateStep hbit b e

/-- Settles O52: a step is one transaction on the state without the word it took, and every transaction keeps the
invariants. -/
theorem stepKeepsTheLegalState : Obligations.StepKeepsTheLegalState := by
  unfold Obligations.StepKeepsTheLegalState
  intro s t h hstep
  obtain ⟨i, he⟩ := step_next hstep
  exact legal_exec (s := { s with inp := s.inp.take.2 }) h he

/-- What holds at power-on and is kept by every step holds after every run from there. -/
theorem reachable_induction {p : State → Prop}
    (hpowerOn : ∀ (c : Config) (q : Inputs), c.inRange = true → p { State.powerOn c with inp := q })
    (hstep : ∀ s t : State, p s → step s = .next t → p t) {s : State} (h : s.Reachable) : p s := by
  obtain ⟨c, q, n, hc, hrun⟩ := h
  have hkept : ∀ (n : Nat) (r : State), p r → Host.Core.run core n r = .next s → p s := by
    intro n
    induction n with
    | zero => intro r hr hrun; cases hrun; exact hr
    | succ n ih =>
      intro r hr hrun
      cases hnext : step r with
      | next r' =>
        have hrest : Host.Core.run core (n + 1) r = Host.Core.run core n r' := by
          simp only [Host.Core.run, core, hnext]
        exact ih r' (hstep r r' hr hnext) (hrest ▸ hrun)
      | fault f => cases f
      | refused f =>
        have hstop : Host.Core.run core (n + 1) r = .refused f := by
          simp only [Host.Core.run, core, hnext]
        rw [hstop] at hrun
        cases hrun
  exact hkept n _ (hpowerOn c q hc) hrun

theorem legal_powerOn (c : Config) : LegalState c (Receiver.powerOn c) :=
  (legal_waitPreamble_iff rfl).2 ⟨rfl, rfl, rfl, rfl⟩

/-- Settles O53: power-on is legal and every step keeps the invariants. -/
theorem everyReachableStateIsLegal : Obligations.EveryReachableStateIsLegal := by
  unfold Obligations.EveryReachableStateIsLegal
  intro s h
  exact reachable_induction (fun c _ _ => legal_powerOn c) stepKeepsTheLegalState h

end Sys2Proof.Machine

/-! What the invariants of 10_state.md R29 exclude: the events an edge can give, who commits, and the bounds of the
mailbox, the preamble count and the registers. -/

namespace Sys2Proof.Machine

open Sys2Proof

/-! ### Which per-state step gives which event -/

/-- Before its per-state step a bit shows BIT and BITVAL only. -/
theorem isIn_atBit {e : Event} (hbit : e ≠ .bit) (hval : e ≠ .bitVal) (b : Bool) (t : Nat) (s : State) :
    Event.isIn e (State.atBit b t s).out.ev = false := by
  cases b <;> simp [hbit, hval]

/-- The events of the per-state steps. The others come from the stages before them or, PREAMBLE, after them. -/
def Event.ofPerStateStep : Event → Bool
  | .filtered => false
  | .glitch => false
  | .zbsReset => false
  | .bit => false
  | .bitVal => false
  | .preamble => false
  | .syncFail => true
  | .flip => true
  | .start => true
  | .byte => true
  | .overflow => true
  | .csumErr => true
  | .commit => true
  | .overwrite => true

/-- A per-state step neither sets nor clears the events of the other stages. -/
theorem perStateStep_isIn {ev : Event} (hev : ev.ofPerStateStep = false) (b : Bool) (e : Nat) (s : State) :
    Event.isIn ev (perStateStep b e s).out.ev = Event.isIn ev s.out.ev := by
  have hne (ev' : Event) (h : ev'.ofPerStateStep = true) : ev ≠ ev' := by
    rintro rfl
    rw [hev] at h
    cases h
  obtain ⟨h, -⟩ | ⟨h, -⟩ | ⟨h, -⟩ | ⟨h, -⟩ | ⟨h, -⟩ | ⟨h, -⟩ | ⟨h, -⟩ | ⟨h, -⟩ | ⟨h, -⟩ | ⟨h, -⟩ | ⟨h, -⟩ | ⟨h, -⟩ |
    ⟨h, -⟩ | ⟨h, -⟩ | ⟨h, -⟩ | ⟨h, -⟩ | ⟨h, -⟩ | ⟨h, -⟩ := perStateStep_cases b e s
  all_goals
    simp [h, apply_ite (Event.isIn ev), hne .syncFail rfl, hne .flip rfl, hne .start rfl, hne .byte rfl,
      hne .overflow rfl, hne .csumErr rfl, hne .commit rfl, hne .overwrite rfl]

/-- The mailbox is written by a commit only, and a commit is a one in WAIT_END_BIT with checksum 0. -/
theorem perStateStep_box_or_commit (b : Bool) (e : Nat) (s : State) :
    ((perStateStep b e s).box = s.box ∧ Event.isIn .commit (perStateStep b e s).out.ev = Event.isIn .commit s.out.ev) ∨
    (perStateStep b e s = commit { s with rx := goPreamble s.cfg s.rx } ∧ s.rx.state = .waitEndBit ∧ b = true ∧
      s.rx.checksum = 0) := by
  obtain ⟨h, -⟩ | ⟨h, -⟩ | ⟨h, -⟩ | ⟨h, -⟩ | ⟨h, -⟩ | ⟨h, -⟩ | ⟨h, -⟩ | ⟨h, -⟩ | ⟨h, -⟩ | ⟨h, -⟩ | ⟨h, -⟩ | ⟨h, -⟩ |
    ⟨h, -⟩ | ⟨h, -⟩ | hcommit | ⟨h, -⟩ | ⟨h, -⟩ | ⟨h, -⟩ := perStateStep_cases b e s
  on_goal 15 => exact .inr hcommit
  all_goals
    left
    rw [h]
    simp

theorem perStateStep_of_overflow {b : Bool} {e : Nat} {s : State} (hs : Event.isIn .overflow s.out.ev = false)
    (hev : Event.isIn .overflow (perStateStep b e s).out.ev = true) :
    inPacket s.rx ∧ s.rx.working.size.toNat = Config.maxLen := by
  obtain ⟨h, -⟩ | ⟨h, -⟩ | ⟨h, -⟩ | ⟨h, -⟩ | ⟨h, -⟩ | ⟨h, -⟩ | ⟨h, -⟩ | ⟨h, -⟩ | ⟨h, -⟩ | ⟨h, -⟩ | ⟨h, -⟩ | ⟨h, -⟩ |
    ⟨-, hdata, -, hfull⟩ | ⟨h, -⟩ | ⟨h, -⟩ | ⟨h, -⟩ | ⟨-, hend, -, hfull⟩ | ⟨h, -⟩ := perStateStep_cases b e s
  on_goal 13 => exact ⟨.inl hdata, hfull⟩
  on_goal 16 => exact ⟨.inr hend, hfull⟩
  all_goals
    rw [h] at hev
    simp [apply_ite (Event.isIn .overflow), hs] at hev

/-! ### The whole edge -/

/-- An edge either commits, with all that a commit presupposes, or keeps the mailbox and shows no COMMIT. -/
theorem exec_edge_box_or_commit {d : Bool} {τ : Nat} {s t : State} (h : exec (edgeInstr d τ) s = .next t) :
    (t.box = s.box ∧ Event.isIn .commit t.out.ev = false) ∨
    (t = postBitCheck true (commit { State.atBit true τ s with rx := goPreamble s.cfg (State.atBit true τ s).rx }) ∧
      s.rx.state = .waitEndBit ∧ s.rx.checksum = 0) := by
  obtain ⟨-, rfl | rfl | rfl | ⟨b, e, -, rfl⟩⟩ := exec_edge_cases h
  iterate 3 exact .inl (by simp)
  obtain ⟨hkept, hev⟩ | ⟨hcommit, hstate, rfl, hsum⟩ := perStateStep_box_or_commit b e (State.atBit b τ s)
  · left
    rw [postBitCheck_box, postBitCheck_isIn (by decide), hkept, hev]
    exact ⟨rfl, isIn_atBit (by decide) (by decide) b τ s⟩
  · exact .inr ⟨by rw [hcommit]; rfl, hstate, hsum⟩

theorem exec_edge_of_commit {d : Bool} {τ : Nat} {s t : State} (h : exec (edgeInstr d τ) s = .next t)
    (hc : t.emitted .commit) :
    t = postBitCheck true (commit { State.atBit true τ s with rx := goPreamble s.cfg (State.atBit true τ s).rx }) ∧
      s.rx.state = .waitEndBit ∧ s.rx.checksum = 0 := by
  obtain ⟨-, hno⟩ | hcommit := exec_edge_box_or_commit h
  · rw [State.emitted, hno] at hc
    cases hc
  · exact hcommit

theorem exec_edge_box_of_not_commit {d : Bool} {τ : Nat} {s t : State} (h : exec (edgeInstr d τ) s = .next t)
    (hc : Event.isIn .commit t.out.ev = false) : t.box = s.box := by
  obtain ⟨hbox, -⟩ | ⟨rfl, -⟩ := exec_edge_box_or_commit h
  · exact hbox
  · rw [postBitCheck_isIn (by decide)] at hc
    simp at hc

/-- A commit hands over the working message as it is. -/
theorem exec_edge_box_of_commit {d : Bool} {τ : Nat} {s t : State} (h : exec (edgeInstr d τ) s = .next t)
    (hc : t.emitted .commit) : t.box = { handoff := s.rx.working, dataReady := true } := by
  obtain ⟨rfl, -, -⟩ := exec_edge_of_commit h hc
  rw [postBitCheck_box, commit_box]
  rfl

/-! ### The invariants of 43_checksum_validator.md R105 -/

theorem mailboxValid_cleared (s : State) (hbox : s.box = { handoff := clearedMessage, dataReady := false }) :
    s.MailboxValid := by
  unfold State.MailboxValid
  rw [hbox]
  exact ⟨rfl, Nat.zero_le _, nofun⟩

/-- A committed message has XOR 0 and 1 to `MAXLEN` bytes: the checksum is its XOR and was tested. -/
theorem mailboxValid_of_commit {d : Bool} {τ : Nat} {s t : State} (hlegal : s.Legal)
    (h : exec (edgeInstr d τ) s = .next t) (hc : t.emitted .commit) : t.MailboxValid := by
  obtain ⟨-, hstate, hsum⟩ := exec_edge_of_commit h hc
  obtain ⟨-, -, -, -, hpos, hsize, hxor, -⟩ := (legal_waitEndBit_iff hstate).1 hlegal
  unfold State.MailboxValid
  rw [exec_edge_box_of_commit h hc]
  exact ⟨hxor.symm.trans hsum, hsize, fun _ => hpos⟩

theorem mailboxValid_exec {i : Instr} {s t : State} (hlegal : s.Legal) (h : s.MailboxValid)
    (he : exec i s = .next t) : t.MailboxValid := by
  obtain ⟨-, rfl⟩ | ⟨-, rfl⟩ | ⟨-, rfl⟩ | ⟨d, τ, rfl⟩ := exec_cases he
  · exact h
  · obtain ⟨hxor, hsize, -⟩ := h
    exact ⟨hxor, hsize, nofun⟩
  · exact mailboxValid_cleared _ rfl
  · cases hc : Event.isIn .commit t.out.ev with
    | true => exact mailboxValid_of_commit hlegal he hc
    | false =>
      unfold State.MailboxValid
      rw [exec_edge_box_of_not_commit he hc]
      exact h

/-- Settles O55: only a commit brings a message into the mailbox, and it commits only checked messages. -/
theorem stepKeepsTheMailboxValid : Obligations.StepKeepsTheMailboxValid := by
  unfold Obligations.StepKeepsTheMailboxValid
  intro s t hlegal h hstep
  obtain ⟨i, he⟩ := step_next hstep
  exact mailboxValid_exec (s := { s with inp := s.inp.take.2 }) hlegal h he

/-- Settles O50: WAIT_DATA has room by the invariants, and a commit hands over a message of WAIT_END_BIT. -/
theorem overflowOnlyAtAnEndBit : Obligations.OverflowOnlyAtAnEndBit := by
  unfold Obligations.OverflowOnlyAtAnEndBit
  intro s t d τ hlegal h
  refine ⟨fun hover => ?_, fun hc => ?_⟩
  · obtain ⟨-, rfl | rfl | rfl | ⟨b, e, -, rfl⟩⟩ := exec_edge_cases h
    iterate 3 simp [State.emitted] at hover
    rw [State.emitted, postBitCheck_isIn (by decide)] at hover
    obtain ⟨hdata | hend, hfull⟩ := perStateStep_of_overflow (isIn_atBit (by decide) (by decide) b τ s) hover
    · obtain ⟨-, hroom⟩ := hlegal.bitCounts.1 hdata
      exact absurd (hfull.symm.trans_le hroom) (by decide)
    · exact ⟨hend, hfull⟩
  · obtain ⟨-, hstate, -⟩ := exec_edge_of_commit h hc
    obtain ⟨-, -, -, -, hpos, hsize, -, -⟩ := (legal_waitEndBit_iff hstate).1 hlegal
    rw [exec_edge_box_of_commit h hc]
    exact ⟨hpos, hsize⟩

/-! ### Where a preamble is completed -/

/-- At most eight ones are counted inside a packet (42_packet_assembler.md R97). -/
theorem preambleBitCount_le_of_inPacket {c : Config} {r : Receiver} (h : LegalState c r) (hin : inPacket r) :
    r.preambleBitCount.toNat ≤ 8 := by
  obtain ⟨hle, hle8⟩ := h.onesInByte hin
  exact hle.trans hle8

/-- The per-state step never enters WAIT_START_BIT. -/
theorem perStateStep_waitStartBit_inv {b : Bool} {e : Nat} {s : State}
    (h : (perStateStep b e s).rx.state = .waitStartBit) :
    s.rx.state = .waitStartBit ∧ (perStateStep b e s).rx.preambleBitCount = s.rx.preambleBitCount := by
  cases hs : s.rx.state with
  | waitPreamble =>
    simp [perStateStep, preambleStep, hs] at h
  | waitStartBit =>
    rw [perStateStep_waitStartBit hs] at h ⊢
    obtain ⟨half, bit1, bit2, hrx⟩ | ⟨bit2, hrx⟩ | ⟨rfl, flip, hrx⟩ := halfBitStep_rx_cases b e s <;> rw [hrx] at h ⊢
    · exact ⟨rfl, rfl⟩
    · cases h
    · cases h
  | waitStartBitFull => cases b <;> simp [perStateStep, fullStartStep, hs] at h
  | waitData => exact absurd h (perStateStep_inPacket (.inl hs) b e).1
  | waitEndBit => exact absurd h (perStateStep_inPacket (.inr hs) b e).1

/-- The per-state step never enters WAIT_START_BIT_FULL, and a one in it does nothing. -/
theorem perStateStep_waitStartBitFull_inv {b : Bool} {e : Nat} {s : State}
    (h : (perStateStep b e s).rx.state = .waitStartBitFull) :
    s.rx.state = .waitStartBitFull ∧ b = true ∧ perStateStep b e s = s := by
  obtain ⟨h', hs⟩ | ⟨h', hs, -⟩ | ⟨h', hs, -⟩ | ⟨h', hs, -⟩ | ⟨h', -⟩ | ⟨h', hs, -⟩ | ⟨h', -⟩ | ⟨h', -⟩ | ⟨h', -⟩ |
    ⟨h', hs, hb⟩ | ⟨h', -⟩ | ⟨h', hs, -⟩ | ⟨h', -⟩ | ⟨h', -⟩ | ⟨h', -⟩ | ⟨h', -⟩ | ⟨h', -⟩ | ⟨h', -⟩ :=
    perStateStep_cases b e s
  on_goal 10 => exact ⟨hs, hb, h'⟩
  all_goals
    rw [h'] at h
    simp_all

/-- A preamble is completed only while hunting or in the full-bit wait, where the per-state step of a one does
nothing. -/
theorem perStateStep_of_ten_ones {e : Nat} {s : State} (h : s.Legal)
    (hstate : (perStateStep true e s).rx.state ≠ .waitStartBit)
    (hones : 10 ≤ (perStateStep true e s).rx.preambleBitCount.toNat) :
    perStateStep true e s = s ∧ (s.rx.state = .waitPreamble ∨ s.rx.state = .waitStartBitFull) := by
  have hout : ¬ inPacket s.rx := fun hin => by
    have hle := preambleBitCount_le_of_inPacket h hin
    rw [(perStateStep_inPacket hin true e).2] at hones
    omega
  cases hs : s.rx.state with
  | waitPreamble => simp [perStateStep, preambleStep, hs]
  | waitStartBit =>
    rw [perStateStep_waitStartBit hs] at hstate hones
    obtain ⟨half, bit1, bit2, hrx⟩ | ⟨bit2, hrx⟩ | ⟨hb, -⟩ := halfBitStep_rx_cases true e s
    · exact absurd hs (by rwa [hrx] at hstate)
    · rw [hrx, huntReset_preambleBitCount] at hones
      cases hones
    · cases hb
  | waitStartBitFull => simp [perStateStep, fullStartStep, hs]
  | waitData => exact absurd (.inl hs) hout
  | waitEndBit => exact absurd (.inr hs) hout

/-- Settles O49: inside a packet the per-state step keeps the count of ones, and the post-bit check counts one more at
most. -/
theorem noPreambleInsideAPacket : Obligations.NoPreambleInsideAPacket := by
  unfold Obligations.NoPreambleInsideAPacket
  intro s t d τ hlegal hin h
  have hle : s.rx.preambleBitCount.toNat ≤ 8 := preambleBitCount_le_of_inPacket hlegal hin
  refine ⟨hle, ?_⟩
  obtain ⟨-, rfl | rfl | rfl | ⟨b, e, -, rfl⟩⟩ := exec_edge_cases h
  · exact ⟨by simp, hle.trans (by decide)⟩
  · exact ⟨by simp, hle.trans (by decide)⟩
  · exact ⟨by simp, Nat.zero_le _⟩
  · obtain ⟨hstate, hcount⟩ := perStateStep_inPacket (s := State.atBit b τ s) hin b e
    have hle' : (perStateStep b e (State.atBit b τ s)).rx.preambleBitCount.toNat ≤ 8 := hcount ▸ hle
    rw [postBitCheck_eq_tallyOnes hstate (hle'.trans (by decide))]
    refine ⟨?_, ?_⟩
    · exact (perStateStep_isIn rfl b e _).trans (isIn_atBit (by decide) (by decide) b τ s)
    · cases b with
      | false => exact Nat.zero_le _
      | true =>
        have := Nat.mod_le ((perStateStep true e (State.atBit true τ s)).rx.preambleBitCount.toNat + 1) (2 ^ 8)
        simp only [State.tallyOnes, if_true, BitVec.toNat_add]
        exact this.trans (Nat.succ_le_succ hle')

/-! ### The preamble count -/

theorem preambleCounted_of_hunting {s : State} (hstate : s.rx.state = .waitPreamble)
    (hones : s.rx.preambleBitCount.toNat ≤ Config.preLimit) : s.PreambleCounted := by
  simp [State.PreambleCounted, hstate, hones]

/-- The post-bit check after a per-state step: in WAIT_START_BIT the count stands still, and where it passes `PRE_LIMIT`
the per-state step has done nothing, so the registers before this edge tell which start-bit state is entered. -/
theorem preambleCounted_classifiedBit {s : State} (hlegal : s.Legal) (h : s.PreambleCounted) (b : Bool) (e : Nat) :
    (postBitCheck b (perStateStep b e s)).PreambleCounted := by
  obtain ⟨hhunt, hsync, hfull⟩ := h
  have hcfg := perStateStep_cfg b e s
  unfold State.PreambleCounted
  rw [postBitCheck_cfg, hcfg]
  obtain ⟨hrx, hstate⟩ | ⟨hrx, hstate, hfew⟩ | ⟨hrx, hstate, rfl, hones, hwhy⟩ | ⟨hrx, hstate, rfl, hones, hno, hsum⟩ :=
    postBitCheck_rx_cases b (perStateStep b e s) <;> rw [hrx]
  · obtain ⟨hs, hcount⟩ := perStateStep_waitStartBit_inv hstate
    simp [hstate, hcount, hsync hs]
  · have hle : (countBit b (perStateStep b e s).rx).preambleBitCount.toNat ≤ Config.preLimit := by
      cases b with
      | false => exact Nat.zero_le _
      | true =>
        have := hfew rfl
        rw [countBit_true_toNat, Config.preLimit]
        omega
    refine ⟨fun _ => hle, fun hs => absurd hs hstate, fun hs => ?_⟩
    obtain ⟨hs', rfl, hself⟩ := perStateStep_waitStartBitFull_inv hs
    have hmany := (hfull hs').1
    rw [hself, countBit_true_toNat, Config.preLimit] at hle
    rw [Config.preLimit] at hmany
    omega
  · obtain ⟨hself, hs | hs⟩ := perStateStep_of_ten_ones hlegal hstate hones
    · have := hhunt hs
      rw [hself] at hones
      rw [Config.preLimit] at this
      simp [hself, Config.preLimit, countBit_true_toNat]
      omega
    · obtain ⟨-, hsum, hno⟩ := hfull hs
      rw [hself] at hwhy
      simp [hsum, hno] at hwhy
  · have hmany : Config.preLimit < (countBit true (perStateStep true e s).rx).preambleBitCount.toNat := by
      rw [countBit_true_toNat, Config.preLimit]
      omega
    exact ⟨nofun, nofun, fun _ => ⟨hmany, hsum, hcfg ▸ hno⟩⟩

theorem preambleCounted_exec {i : Instr} {s t : State} (hlegal : s.Legal) (h : s.PreambleCounted)
    (he : exec i s = .next t) : t.PreambleCounted := by
  obtain ⟨-, rfl⟩ | ⟨-, rfl⟩ | ⟨-, rfl⟩ | ⟨d, τ, rfl⟩ := exec_cases he
  · exact h
  · exact h
  · exact preambleCounted_of_hunting rfl (Nat.zero_le _)
  · obtain ⟨-, rfl | rfl | rfl | ⟨b, e, -, rfl⟩⟩ := exec_edge_cases he
    · exact h
    · exact h
    · exact preambleCounted_of_hunting rfl (Nat.zero_le _)
    · exact preambleCounted_classifiedBit (s := State.atBit b τ s) (legal_of_other_lastTs hlegal _) h b e

/-- Settles O56: RESET and the out-of-range interval hunt with count 0, and a bit is `preambleCounted_classifiedBit`. -/
theorem stepKeepsThePreambleCount : Obligations.StepKeepsThePreambleCount := by
  unfold Obligations.StepKeepsThePreambleCount
  intro s t hlegal h hstep
  obtain ⟨i, he⟩ := step_next hstep
  exact preambleCounted_exec (s := { s with inp := s.inp.take.2 }) hlegal h he

/-! ### The register widths -/

theorem inRange_of_exec {i : Instr} {s t : State} (h : exec i s = .next t) : s.cfg.inRange = true := by
  obtain rfl | rfl | rfl | ⟨d, τ, rfl⟩ := instr_cases i
  · rw [exec_idle, perform_next] at h
    exact h.1
  · rw [exec_poll, perform_next] at h
    exact h.1
  · rw [exec_reset, perform_next] at h
    exact h.1
  · exact (exec_edge_cases h).1

theorem thrPair_lt {c : Config} (h : c.inRange = true) (p : ThrPhase) :
    (thrPair c p).lo < 2 ^ c.tw ∧ (thrPair c p).hi < 2 ^ c.tw := by
  obtain ⟨⟨⟨⟨-, hpre⟩, hhalf⟩, hfull⟩, -⟩ :
      (((1 ≤ c.tw ∧ c.pre.lo < 2 ^ c.tw ∧ c.pre.hi < 2 ^ c.tw) ∧ c.half.lo < 2 ^ c.tw ∧ c.half.hi < 2 ^ c.tw) ∧
        c.full.lo < 2 ^ c.tw ∧ c.full.hi < 2 ^ c.tw) ∧ c.maxBitDiff < 2 ^ c.tw := by
    simpa [Config.inRange, ThrPair.fits] using h
  cases p
  · exact hpre
  · exact hhalf
  · exact hfull

theorem withinWidths_perStateStep {s : State} (hc : s.cfg.inRange = true) (h : s.WithinWidths) (b : Bool) {e : Nat}
    (he : e < 2 ^ s.cfg.tw) : (perStateStep b e s).WithinWidths := by
  obtain ⟨hmin, hmax, hlast, hbit1, hbit2, hsize, hhand⟩ := h
  obtain ⟨hprelo, hprehi⟩ := thrPair_lt hc .pre
  obtain ⟨hfulllo, hfullhi⟩ := thrPair_lt hc .full
  rw [thrPair_pre] at hprelo hprehi
  rw [thrPair_full] at hfulllo hfullhi
  have hsucc (hne : s.rx.working.size.toNat ≠ Config.maxLen) : (s.rx.working.size + 1).toNat ≤ Config.maxLen := by
    have hlt := lt_of_le_of_ne hsize hne
    rw [size_succ_toNat hlt]
    exact hlt
  obtain ⟨h, -⟩ | ⟨h, -⟩ | ⟨h, -⟩ | ⟨h, -⟩ | ⟨h, -⟩ | ⟨h, -⟩ | ⟨h, -⟩ | ⟨h, -⟩ | ⟨h, -⟩ | ⟨h, -⟩ | ⟨h, -⟩ | ⟨h, -⟩ |
    ⟨h, -⟩ | ⟨h, -, -, hne⟩ | ⟨h, -⟩ | ⟨h, -⟩ | ⟨h, -⟩ | ⟨h, -⟩ := perStateStep_cases b e s
  on_goal 14 => have hsize' := hsucc hne
  all_goals
    rw [h]
    simp_all [State.WithinWidths]

/-- The post-bit check writes no time register but the thresholds. -/
theorem withinWidths_postBitCheck {s : State} (hc : s.cfg.inRange = true) (h : s.WithinWidths) (b : Bool) :
    (postBitCheck b s).WithinWidths := by
  have ⟨_, _, hlast, hbit1, hbit2, hsize, hhand⟩ := h
  unfold State.WithinWidths
  rw [postBitCheck_cfg, postBitCheck_box]
  obtain ⟨hrx, -⟩ | ⟨hrx, -⟩ | ⟨hrx, -⟩ | ⟨hrx, -⟩ := postBitCheck_rx_cases b s <;> rw [hrx]
  · exact h
  · exact h
  · exact ⟨(thrPair_lt hc .half).1, (thrPair_lt hc .half).2, hlast, hbit1, hbit2, hsize, hhand⟩
  · exact ⟨(thrPair_lt hc .pre).1, (thrPair_lt hc .pre).2, hlast, hbit1, hbit2, hsize, hhand⟩

theorem withinWidths_exec {i : Instr} {s t : State} (h : s.WithinWidths) (he : exec i s = .next t) :
    t.WithinWidths := by
  have ⟨hmin, hmax, _, hbit1, hbit2, hsize, hhand⟩ := h
  have hc : s.cfg.inRange = true := inRange_of_exec he
  obtain ⟨-, rfl⟩ | ⟨-, rfl⟩ | ⟨-, rfl⟩ | ⟨d, τ, rfl⟩ := exec_cases he
  · exact h
  · exact h
  · have hzero : 0 < 2 ^ s.cfg.tw := by positivity
    exact ⟨(thrPair_lt hc .pre).1, (thrPair_lt hc .pre).2, hzero, hzero, hzero, Nat.zero_le _, Nat.zero_le _⟩
  · obtain ⟨-, rfl | rfl | rfl | ⟨b, e, hlt, rfl⟩⟩ := exec_edge_cases he
    · exact h
    · exact h
    · exact ⟨(thrPair_lt hc .pre).1, (thrPair_lt hc .pre).2, timeOperand_lt _ _, hbit1, hbit2, hsize, hhand⟩
    · have hstart : (State.atBit b τ s).WithinWidths :=
        ⟨hmin, hmax, timeOperand_lt _ _, hbit1, hbit2, hsize, hhand⟩
      have hstep := withinWidths_perStateStep (s := State.atBit b τ s) hc hstart b hlt
      exact withinWidths_postBitCheck (by rwa [perStateStep_cfg]) hstep b

/-- Settles O54: times and elapsed times are taken modulo `2 ^ TW`, thresholds are parameters in range, and a byte is
appended only where it has a place. -/
theorem stepKeepsRegisterWidths : Obligations.StepKeepsRegisterWidths := by
  unfold Obligations.StepKeepsRegisterWidths
  intro s t h hstep
  obtain ⟨i, he⟩ := step_next hstep
  exact withinWidths_exec (s := { s with inp := s.inp.take.2 }) h he

/-- Settles O51: at power-on the block hunts with every count 0 and an empty, read mailbox. -/
theorem powerOnStateIsLegal : Obligations.PowerOnStateIsLegal := by
  unfold Obligations.PowerOnStateIsLegal
  refine ⟨fun c hc => ?_, rfl, by decide⟩
  refine ⟨legal_powerOn c, ?_, mailboxValid_cleared _ rfl, preambleCounted_of_hunting rfl (Nat.zero_le _)⟩
  have hzero : 0 < 2 ^ c.tw := by positivity
  exact ⟨(thrPair_lt hc .pre).1, (thrPair_lt hc .pre).2, hzero, hzero, hzero, Nat.zero_le _, Nat.zero_le _⟩

/-! ### The event vectors -/

/-- The event vectors a classified bit can have before the post-bit check (60_exceptions.md R120). -/
def stepEvents : List (BitVec 16) :=
  [0x0008, 0x0018, 0x0038, 0x0088, 0x00C8, 0x0108, 0x0118, 0x0208, 0x0418, 0x0818, 0x1818]

/-- Each per-state step adds its own events to BIT and BITVAL; the overflow of WAIT_DATA, which the invariants exclude,
is the only one of another form. -/
theorem perStateStep_ev_mem {s : State} (hlegal : s.Legal) (b : Bool) (e τ : Nat) :
    (perStateStep b e (State.atBit b τ s)).out.ev ∈ stepEvents := by
  have hbit : (State.atBit b τ s).out.ev = if b then 0x0018 else 0x0008 := by
    rw [State.atBit_ev]
    cases b <;> decide
  obtain ⟨h, -⟩ | ⟨h, -, -, rfl⟩ | ⟨h, -, -, rfl⟩ | ⟨h, -, -, rfl, -⟩ | ⟨h, -, -, rfl, -⟩ | ⟨h, -, -, rfl⟩ |
    ⟨h, -, -, rfl⟩ | ⟨h, -, -, rfl⟩ | ⟨h, -, -, rfl⟩ | ⟨h, -, rfl⟩ | ⟨h, -, rfl⟩ | ⟨h, -⟩ | ⟨-, hdata, -, hfull⟩ |
    ⟨h, -⟩ | ⟨h, -, rfl, -⟩ | ⟨h, -, rfl, -⟩ | ⟨h, -, rfl, -⟩ | ⟨h, -, rfl, -⟩ :=
      perStateStep_cases b e (State.atBit b τ s)
  on_goal 15 => cases hready : s.box.dataReady
  on_goal 14 => cases b
  on_goal 13 =>
    obtain ⟨-, hroom⟩ := hlegal.bitCounts.1 hdata
    exact absurd (hfull.symm.trans_le hroom) (by decide)
  on_goal 12 => cases b
  on_goal 1 => cases b
  all_goals
    rw [h]
    simp only [acceptStart_ev, commit_eq, syncFail_out, dropOversized_out, checksumReject_out, State.emit_out, hbit]
    simp [stepEvents, mask_syncFail, mask_byte, mask_overflow, mask_csumErr, *]

/-- PREAMBLE comes with BIT and BITVAL alone: the per-state step before it has done nothing. -/
theorem classifiedBit_ev_mem {s : State} (hlegal : s.Legal) (b : Bool) (e τ : Nat) :
    (postBitCheck b (perStateStep b e (State.atBit b τ s))).out.ev ∈ 0x2018 :: stepEvents := by
  have hmem := List.mem_cons_of_mem 0x2018 (perStateStep_ev_mem hlegal b e τ)
  obtain ⟨h, -⟩ | ⟨h, -⟩ | ⟨h, -⟩ | ⟨h, hstate, rfl, hones⟩ :=
    postBitCheck_cases b (perStateStep b e (State.atBit b τ s)) <;> rw [h]
  · exact hmem
  · exact hmem
  · exact hmem
  · have hlegal' : (State.atBit true τ s).Legal := legal_of_other_lastTs hlegal _
    obtain ⟨hself, -⟩ := perStateStep_of_ten_ones hlegal' hstate hones
    have hev : (0x2018 : BitVec 16) = Event.bit.mask ||| Event.bitVal.mask ||| Event.preamble.mask := by decide
    simp [hself, hev]

/-- Settles O48: FILTERED, GLITCH and ZBS_RESET stand alone, and a bit gives the events of its stages. -/
theorem eventVectorIsOneOfFifteen : Obligations.EventVectorIsOneOfFifteen := by
  unfold Obligations.EventVectorIsOneOfFifteen
  intro s t d τ hlegal h
  obtain ⟨-, rfl | rfl | rfl | ⟨b, e, -, rfl⟩⟩ := exec_edge_cases h
  · simp [mask_filtered]
  · simp [mask_glitch]
  · simp [mask_zbsReset]
  · have hmem := classifiedBit_ev_mem hlegal b e τ
    refine (?_ : 0x2018 :: stepEvents ⊆ _) hmem
    decide

end Sys2Proof.Machine

/-! The step (00_scope.md R2, R5; 20_memory.md R41–R45): which transaction it runs, when it stops, and what it leaves in
the inputs. -/

namespace Sys2Proof.Machine

open Sys2Proof

/-! ### Issuing a word -/

theorem issue_of_decode_ok {a : Agent} {w : Nat} {i : Instr} {s : State} (h : decode s.cfg.tw w = .ok i) :
    issue a w s = if mayIssue a i then exec i s else .refused .foreignTransaction := by
  simp only [issue, h]

theorem step_of_take {s : State} {a : Agent} {w : Nat} {q : Inputs} (h : s.inp.take = (some (a, w), q)) :
    step s = issue a w { s with inp := q } := by
  simp only [step, h]

theorem step_of_take_none {s : State} {q : Inputs} (h : s.inp.take = (none, q)) :
    step s = exec .idle { s with inp := q } := by
  simp only [step, h]

/-- Settles O6: the word is taken, decodes, and its agent may issue it. -/
theorem stepRunsTheDecodedTransaction : Obligations.StepRunsTheDecodedTransaction := by
  unfold Obligations.StepRunsTheDecodedTransaction
  intro s a rest w ws i hturn hword hdecode hmay
  rw [step_of_turn hturn hword, issue_of_decode_ok (by exact hdecode), if_pos hmay]

/-- Settles O7: `mayIssue` is false for every transaction of the other agent. -/
theorem foreignTransactionsAreRefused : Obligations.ForeignTransactionsAreRefused := by
  unfold Obligations.ForeignTransactionsAreRefused
  intro s a rest w ws i hturn hword hdecode hforeign
  have hmay : ¬ mayIssue a i = true := by
    obtain ⟨rfl, rfl | rfl⟩ | ⟨rfl, ⟨t, rfl⟩ | ⟨t, rfl⟩⟩ := hforeign <;> simp [mayIssue]
  rw [step_of_turn hturn hword, issue_of_decode_ok (by exact hdecode), if_neg hmay]

/-- Settles O8: both cycles take no word, so they are an IDLE. -/
theorem cycleWithoutWordIsIdle : Obligations.CycleWithoutWordIsIdle := by
  unfold Obligations.CycleWithoutWordIsIdle
  refine fun s hc => ⟨fun hturn => ?_, fun a rest hturn hnone => ?_⟩
  · have htake : s.inp.take = (none, s.inp) := by simp [Inputs.take, hturn]
    rw [step_of_take_none htake, exec_idle, perform_of_inRange hc]
    rfl
  · have htake : s.inp.take = (none, { s.inp with turns := rest }) := by simp [Inputs.take, hturn, hnone]
    rw [step_of_take_none htake, exec_idle, perform_of_inRange (by exact hc)]
    rfl

/-- The agent that `withFetchWord` picks by the word's operation may issue what the word decodes to. -/
theorem mayIssue_agentOfWord {tw w : Nat} {i : Instr} (h : decode tw w = .ok i) :
    mayIssue (agentOfWord tw w) i = true := by
  have hfields : txnFields tw w = i.fields := by
    rwa [decode_of_lt (lt_of_decode_eq_ok h), decodeFields_eq_ok_iff] at h
  rw [agentOfWord, hfields]
  cases i <;> rfl

theorem decodeTableWord_eq_some_iff {nbits w : Nat} {i : Instr} :
    decodeTableWord nbits w = some i ↔ decode 32 (w % 2 ^ nbits) = .ok i := by
  unfold decodeTableWord
  split <;> simp_all

/-- Settles O9: the word pushed is the word taken, by an agent that may issue it. -/
theorem fetchWordIsRunNext : Obligations.FetchWordIsRunNext := by
  unfold Obligations.FetchWordIsRunNext
  intro s w i htw hword
  have hdecode : decode s.cfg.tw (w % 2 ^ 40) = .ok i := by rwa [htw, ← decodeTableWord_eq_some_iff]
  rw [step_of_take (by exact take_push _ _ s.inp), issue_of_decode_ok (by exact hdecode),
    if_pos (mayIssue_agentOfWord hdecode)]
  rfl

/-! ### When a step stops -/

theorem exec_of_not_inRange {s : State} (h : s.cfg.inRange = false) (i : Instr) :
    exec i s = .refused .configOutOfRange := by
  have hperform (f : State → State) : perform f s = .refused .configOutOfRange := if_neg (by simp [h])
  obtain rfl | rfl | rfl | ⟨d, τ, rfl⟩ := instr_cases i
  · exact hperform State.begin
  · exact hperform pollMailbox
  · exact hperform resetBlock
  · rw [exec_edge, hperform]

/-- Settles O10: a step without a word is an IDLE; a word decodes or not, and its agent may issue it or not. -/
theorem stepStopsOnlyForNamedReasons : Obligations.StepStopsOnlyForNamedReasons := by
  unfold Obligations.StepStopsOnlyForNamedReasons
  refine ⟨fun s hc => ?_, fun s i hc => exec_of_not_inRange hc i⟩
  cases htake : s.inp.take with | mk word q => ?_
  obtain _ | ⟨a, w⟩ := word
  · rw [step_of_take_none htake]
    exact .inl (exec_completes .idle _ hc)
  · rw [step_of_take htake]
    cases hdecode : decode s.cfg.tw w with
    | error e => exact .inr (.inl ⟨a, w, q, e, rfl, hdecode, issue_of_decode_error ⟨e, hdecode⟩⟩)
    | ok i =>
      rw [issue_of_decode_ok (by exact hdecode)]
      by_cases hmay : mayIssue a i = true
      · rw [if_pos hmay]
        exact .inl (exec_completes i _ hc)
      · exact .inr (.inr ⟨a, w, q, i, rfl, hdecode, by simpa using hmay, if_neg hmay⟩)

/-! ### What a step keeps -/

theorem exec_frame {i : Instr} {s t : State} (h : exec i s = .next t) : t.cfg = s.cfg ∧ t.inp = s.inp := by
  obtain ⟨-, rfl⟩ | ⟨-, rfl⟩ | ⟨-, rfl⟩ | ⟨d, τ, rfl⟩ := exec_cases h
  · exact ⟨rfl, rfl⟩
  · exact ⟨rfl, rfl⟩
  · exact ⟨rfl, rfl⟩
  · rw [exec_edge, perform_next] at h
    obtain ⟨-, rfl⟩ := h
    obtain ⟨hcfg, hinp, -⟩ := edgeStep_frame d τ s
    exact ⟨hcfg, hinp⟩

/-- Settles O11: no transaction writes the parameters or the inputs, and `take_queues` is what taking a word does. -/
theorem stepKeepsParametersAndIssueOrder : Obligations.StepKeepsParametersAndIssueOrder := by
  unfold Obligations.StepKeepsParametersAndIssueOrder
  intro s t h
  obtain ⟨i, he⟩ := step_next h
  obtain ⟨hcfg, hinp⟩ := exec_frame he
  rw [hinp]
  exact ⟨hcfg, take_queues s.inp⟩

/-- Settles O45: every transaction starts with `State.begin`, which overwrites the outputs. -/
theorem outputsAreNotReadBack : Obligations.OutputsAreNotReadBack := by
  unfold Obligations.OutputsAreNotReadBack
  intro i s o
  obtain rfl | rfl | rfl | ⟨d, τ, rfl⟩ := instr_cases i
  · rfl
  · rw [exec_poll, exec_poll]; rfl
  · rfl
  · rw [exec_edge, exec_edge]; rfl

end Sys2Proof.Machine

/-! The classes of an interval (40_bit_timing_classifier.md R71, R72). -/

namespace Sys2Proof.Machine

open Sys2Proof

/-! ### The four classes -/

/-- Settles O12: `classify_cases` gives each class with its conditions, and these exclude each other. -/
theorem classifierGivesTheFourClasses : Obligations.ClassifierGivesTheFourClasses := by
  unfold Obligations.ClassifierGivesTheFourClasses
  intro zbs e lo hi
  obtain ⟨hk, h1⟩ | ⟨hk, h1, h2, h3⟩ | ⟨hk, h1, h2, h3⟩ | ⟨hk, h1, h2, h3⟩ := classify_cases zbs e lo hi <;>
    rw [hk] <;> simp <;> grind

/-- The order in which the classes are decided. -/
theorem classify_eq_ite (zbs : Bool) (e lo hi : Nat) : classify zbs e lo hi =
    if e < lo then .glitch else if zbs = true ∧ 2 * hi < e then .outOfRange else if e < hi then .one else .zero := by
  simp [classify]

/-- Settles O13: `classify` with the thresholds of REF written out. -/
theorem referenceClassesAtTheBoundaries : Obligations.ReferenceClassesAtTheBoundaries := by
  unfold Obligations.ReferenceClassesAtTheBoundaries
  intro e
  simp only [classify_eq_ite, Config.ref]
  refine ⟨trivial, ?_, ?_, ?_, ?_⟩ <;> grind

end Sys2Proof.Machine

/-! Bits outside a packet, with their whole next states: the preamble and the full-bit wait (42_packet_assembler.md R92,
R95; 41_edge_synchronizer.md R75, R76, R88), the second half-bit of a pair (R80–R82, R84), and the first edge after
power-on. -/

namespace Sys2Proof.Machine

open Sys2Proof

/-! ### The state a bit starts from -/

theorem perStateStep_waitPreamble {s : State} (h : s.rx.state = .waitPreamble) (b : Bool) (e : Nat) :
    perStateStep b e s = s := by
  simp only [perStateStep, h, preambleStep]

theorem perStateStep_waitStartBitFull {s : State} (h : s.rx.state = .waitStartBitFull) (b : Bool) (e : Nat) :
    perStateStep b e s = fullStartStep b s := by
  simp only [perStateStep, h]

/-- In WAIT_PREAMBLE the per-state step does nothing (42_packet_assembler.md R92). -/
theorem exec_of_carriesBit_waitPreamble {s : State} {d b : Bool} {t : Nat} (hstate : s.rx.state = .waitPreamble)
    (h : s.CarriesBit d t b) :
    exec (edgeInstr d t) s =
      .next (postBitCheck b (State.setLastTs t (s.withEvents (if b then 0x0018 else 0x0008)))) := by
  rw [exec_of_carriesBit h, perStateStep_waitPreamble (by exact hstate)]

theorem exec_of_carriesBit_waitStartBitFull {s : State} {d b : Bool} {t : Nat}
    (hstate : s.rx.state = .waitStartBitFull) (h : s.CarriesBit d t b) :
    exec (edgeInstr d t) s = .next (postBitCheck b
      (fullStartStep b (State.setLastTs t (s.withEvents (if b then 0x0018 else 0x0008))))) := by
  rw [exec_of_carriesBit h, perStateStep_waitStartBitFull (by exact hstate)]

theorem bitEvents_or_preamble : 0x0018 ||| Event.preamble.mask = 0x2018 := by decide

theorem bitEvents_or_syncFail : 0x0018 ||| Event.syncFail.mask = 0x0038 := by decide

theorem bitEvents_or_start : (0x0008 ||| 0x0080 : BitVec 16) = 0x0088 := by decide

/-! ### The preamble -/

/-- Settles O19: the post-bit check with at most ten ones. -/
theorem preambleBitsAreCounted : Obligations.PreambleBitsAreCounted := by
  unfold Obligations.PreambleBitsAreCounted
  intro s d t b hstate hbit
  rw [exec_of_carriesBit_waitPreamble hstate hbit]
  have hne : s.rx.state ≠ .waitStartBit := by simp [hstate]
  refine ⟨fun hb => ?_, fun hb hfew => ?_⟩ <;> subst hb
  · rw [postBitCheck_zero (by exact hne)]
    rfl
  · rw [postBitCheck_one (by exact hne) (by exact Nat.le_of_lt_succ hfew)]
    rfl

/-! Which start-bit state a completed preamble enters (42_packet_assembler.md R95, 90_conflicts.md C4). -/

theorem enterStart_of_sync {s : State} (h : s.cfg.syncAlways = true ∨ s.rx.checksum ≠ 0) :
    enterStart s = State.emit .preamble { s with rx := enterSync s.cfg s.rx } := by
  have hif : (s.cfg.syncAlways || s.rx.checksum != 0) = true := by simpa using h
  simp only [enterStart, hif, if_true]

theorem enterStart_of_full {s : State} (hno : s.cfg.syncAlways = false) (hsum : s.rx.checksum = 0) :
    enterStart s = State.emit .preamble { s with rx := enterFull s.cfg s.rx } := by
  have hif : ¬ (s.cfg.syncAlways || s.rx.checksum != 0) = true := by simp [hno, hsum]
  simp only [enterStart, if_neg hif]

/-- Entered again, the full-bit wait only gets its thresholds written. -/
theorem enterFull_of_waitStartBitFull {c : Config} {r : Receiver} (h : r.state = .waitStartBitFull) :
    enterFull c r = { r with bitMin := c.pre.lo, bitMax := c.pre.hi } := by
  obtain ⟨state⟩ := r
  subst h
  rfl

/-- Settles O20: the post-bit check with more than ten ones, for the two start-bit states. -/
theorem preambleEntersAStartBitState : Obligations.PreambleEntersAStartBitState := by
  unfold Obligations.PreambleEntersAStartBitState
  intro s d t hstate hbit hones
  have hne : s.rx.state ≠ .waitStartBit := by simp [hstate]
  rw [exec_of_carriesBit_waitPreamble hstate hbit, postBitCheck_preamble (by exact hne) (by exact hones),
    ← bitEvents_or_preamble]
  refine ⟨fun hsync => ?_, fun hno hsum => ?_⟩
  · rw [enterStart_of_sync (by exact hsync)]
    rfl
  · rw [enterStart_of_full (by exact hno) (by exact hsum)]
    rfl

/-- Settles O25: the full-bit wait opens a packet on a zero; a one is one more of the preamble. -/
theorem fullBitWaitForTheStartBit : Obligations.FullBitWaitForTheStartBit := by
  unfold Obligations.FullBitWaitForTheStartBit
  intro s d t b hstate hbit
  have hne : s.rx.state ≠ .waitStartBit := by simp [hstate]
  rw [exec_of_carriesBit_waitStartBitFull hstate hbit]
  refine ⟨fun hb => ?_, fun hb hones hno hsum => ?_⟩ <;> subst hb
  · have hzero (u : State) : fullStartStep false u = acceptStart false u := rfl
    rw [hzero, postBitCheck_acceptStart, ← bitEvents_or_start]
    rfl
  · have hone (u : State) : fullStartStep true u = u := rfl
    rw [hone, postBitCheck_preamble (by exact hne) (by exact hones),
      enterStart_of_full (by exact hno) (by exact hsum), ← bitEvents_or_preamble]
    rw [enterFull_of_waitStartBitFull (by exact hstate)]
    rfl

/-! ### The second half-bit of a pair -/

theorem halfBitStep_h1_zero {s : State} (h : s.rx.halfBit = .h1) (e : Nat) :
    halfBitStep false e s = { s with rx := { s.rx with halfBit := .h3 } } := by
  simp only [halfBitStep, h]

theorem halfBitStep_pair {s : State} (h : s.rx.halfBit = .h1) {e : Nat}
    (hdiff : ((e : Int) - (s.rx.bit1 : Int)).natAbs ≤ s.cfg.maxBitDiff) :
    halfBitStep true e s = { s with rx := { s.rx with bit2 := e, halfBit := .h0 } } := by
  rw [← absDiff_eq_natAbs] at hdiff
  simp only [halfBitStep, h, pairOfOnes, Nat.not_lt.2 hdiff, if_false]

theorem halfBitStep_unequal_pair {s : State} (h : s.rx.halfBit = .h1) {e : Nat}
    (hdiff : s.cfg.maxBitDiff < ((e : Int) - (s.rx.bit1 : Int)).natAbs) :
    halfBitStep true e s = syncFail { s with rx := { s.rx with bit2 := e } } := by
  rw [← absDiff_eq_natAbs] at hdiff
  simp only [halfBitStep, h, pairOfOnes, hdiff, if_true]

theorem halfBitStep_one_after_zero {s : State} (h : s.rx.halfBit = .h3 ∨ s.rx.halfBit = .h4) (e : Nat) :
    halfBitStep true e s = syncFail s := by
  obtain h | h := h <;> simp only [halfBitStep, h]

/-- After `SyncFail()` the one that failed is the first of a new preamble (41_edge_synchronizer.md R87). -/
theorem postBitCheck_syncFail (s : State) :
    postBitCheck true (syncFail s) =
      { s with
        rx := { huntReset s.cfg s.rx with preambleBitCount := 1 }
        out := { s.out with ev := s.out.ev ||| Event.syncFail.mask } } := by
  have hstate : (syncFail s).rx.state ≠ .waitStartBit := by simp
  rw [postBitCheck_one hstate (by simp)]
  rfl

/-- Settles O22: rows R80 and R81 of the half-bit table; only a failing pair leaves WAIT_START_BIT. -/
theorem secondHalfBitAfterAOne : Obligations.SecondHalfBitAfterAOne := by
  unfold Obligations.SecondHalfBitAfterAOne
  intro s d t b hstate hhalf hbit
  rw [exec_of_carriesBit_waitStartBit hstate hbit]
  refine ⟨fun hb hdiff => ?_, fun hb hdiff => ?_, fun hb => ?_⟩ <;> subst hb
  · rw [halfBitStep_pair (by exact hhalf) (by exact hdiff), postBitCheck_sync (by exact hstate)]
    rfl
  · rw [halfBitStep_unequal_pair (by exact hhalf) (by exact hdiff), postBitCheck_syncFail, ← bitEvents_or_syncFail]
    rfl
  · rw [halfBitStep_h1_zero (by exact hhalf), postBitCheck_sync (by exact hstate)]
    rfl

/-- Settles O23: rows R82 and R84 of the half-bit table. -/
theorem oneAfterAZeroHalfBitFails : Obligations.OneAfterAZeroHalfBitFails := by
  unfold Obligations.OneAfterAZeroHalfBitFails
  intro s d t hstate hhalf hbit
  rw [exec_of_carriesBit_waitStartBit hstate hbit, halfBitStep_one_after_zero (by exact hhalf), postBitCheck_syncFail,
    ← bitEvents_or_syncFail]
  rfl

/-! ### The first edge -/

theorem elapsedAt_powerOn {c : Config} {t : Nat} (ht : t < 2 ^ c.tw) : (State.powerOn c).elapsedAt t = t := by
  rw [← elapsed_eq_elapsedAt]
  simp [elapsed, subMod, State.powerOn, Receiver.powerOn, Nat.mod_eq_of_lt ht]

/-- A rising edge at power-on that is no glitch and not out of range carries a bit, which is counted while hunting. -/
theorem exec_powerOn_bit {c : Config} {t : Nat} {b : Bool} (h : (State.powerOn c).CarriesBit true t b) :
    ∃ u, exec (.edgeR t) (State.powerOn c) = .next u ∧ u.rx.state = .waitPreamble ∧ u.rx.lastTs = t := by
  obtain ⟨hzero, hone⟩ := preambleBitsAreCounted (State.powerOn c) true t b rfl h
  cases b with
  | false => exact ⟨_, hzero rfl, rfl, rfl⟩
  | true => exact ⟨_, hone rfl (by decide : (0 : Nat) < 10), rfl, rfl⟩

/-- Settles O18: power-on waits for a rising edge with lastTs 0, so the elapsed time is the timestamp itself. -/
theorem firstEdgeAfterPowerOn : Obligations.FirstEdgeAfterPowerOn := by
  unfold Obligations.FirstEdgeAfterPowerOn
  intro c t hc ht
  have helapsed := elapsedAt_powerOn ht
  have haccepts : (State.powerOn c).Accepts true := .inr rfl
  refine ⟨filteredEdgeChangesNoRegister (State.powerOn c) false t hc ht nofun nofun, ?_⟩
  by_cases hglitch : t < c.pre.lo
  · exact ⟨_, glitchChangesOnlyItsTally (State.powerOn c) true t hc ht haccepts (helapsed.trans_lt hglitch), rfl,
      fun _ => ⟨rfl, rfl⟩, fun hle => absurd hglitch (Nat.not_lt.2 hle)⟩
  · have hlo : c.pre.lo ≤ t := Nat.le_of_not_lt hglitch
    by_cases hlong : c.zbsCheck = true ∧ 2 * c.pre.hi < t
    · exact ⟨_, outOfRangeIntervalHuntsAgain.1 (State.powerOn c) true t hc ht haccepts hlong.1
        (hlo.trans_eq helapsed.symm) (hlong.2.trans_eq helapsed.symm), rfl, fun hlt => absurd hlt hglitch, fun _ => rfl⟩
    · have hbit : (State.powerOn c).CarriesBit true t (decide (t < c.pre.hi)) := by
        refine ⟨hc, ht, haccepts, ?_⟩
        rw [helapsed]
        exact ⟨hlo, hlong, decide_eq_true_iff⟩
      obtain ⟨u, hu, hstate, hlast⟩ := exec_powerOn_bit hbit
      exact ⟨u, hu, hstate, fun hlt => absurd hlt hglitch, fun _ => hlast⟩

end Sys2Proof.Machine

/-! What an edge reads: neither the mailbox, the counters nor the outputs reach the receiver (10_state.md R27), and of
the clock only differences do (40_bit_timing_classifier.md R65). -/

namespace Sys2Proof.Machine

open Sys2Proof

/-! ### Reception without the mailbox -/

/-- Two states with the same parameters and receiver registers, and the same events but for OVERWRITE. -/
structure SameReception (s u : State) : Prop where
  cfg : u.cfg = s.cfg
  rx : u.rx = s.rx
  events : ∀ e : Event, e ≠ .overwrite → Event.isIn e u.out.ev = Event.isIn e s.out.ev

/-- The second state is the first with another mailbox, counters, outputs and inputs. -/
theorem SameReception.exists_eq {s u : State} (h : SameReception s u) :
    ∃ b g o q, u = { s with box := b, diag := g, out := o, inp := q } := by
  obtain ⟨hcfg, hrx, -⟩ := h
  exact ⟨u.box, u.diag, u.out, u.inp, by rw [← hcfg, ← hrx]⟩

theorem SameReception.withRx {s u : State} (h : SameReception s u) (r : Receiver) :
    SameReception { s with rx := r } { u with rx := r } := ⟨h.cfg, rfl, h.events⟩

theorem SameReception.emit {s u : State} (h : SameReception s u) (e : Event) :
    SameReception (s.emit e) (u.emit e) :=
  ⟨h.cfg, h.rx, fun e' he => by simp [h.events e' he]⟩

theorem SameReception.commit {s u : State} (h : SameReception s u) : SameReception (commit s) (commit u) := by
  refine ⟨by simp [h.cfg], by simp [h.rx], fun e he => ?_⟩
  simp [apply_ite (Event.isIn e), h.events e he, he]

theorem SameReception.acceptStart {s u : State} (h : SameReception s u) (flip : Bool) :
    SameReception (acceptStart flip s) (acceptStart flip u) := by
  refine ⟨by simp [h.cfg], by simp [h.cfg, h.rx], fun e he => ?_⟩
  simp [apply_ite (Event.isIn e), h.events e he]

/-! The remaining operations write receiver registers and emit one event. -/

theorem SameReception.syncFail {s u : State} (h : SameReception s u) : SameReception (syncFail s) (syncFail u) := by
  obtain ⟨b, g, o, q, rfl⟩ := h.exists_eq
  exact (h.withRx (huntReset s.cfg s.rx)).emit .syncFail

theorem SameReception.rejectOutOfRange {s u : State} (h : SameReception s u) :
    SameReception (rejectOutOfRange s) (rejectOutOfRange u) := by
  obtain ⟨b, g, o, q, rfl⟩ := h.exists_eq
  exact (h.withRx (huntReset s.cfg s.rx)).emit .zbsReset

theorem SameReception.dropOversized {s u : State} (h : SameReception s u) :
    SameReception (dropOversized s) (dropOversized u) := by
  obtain ⟨b, g, o, q, rfl⟩ := h.exists_eq
  exact ⟨rfl, rfl, ((h.withRx (goPreamble s.cfg s.rx)).emit .overflow).events⟩

theorem SameReception.checksumReject {s u : State} (h : SameReception s u) :
    SameReception (checksumReject s) (checksumReject u) :=
  ⟨h.cfg, h.rx, (h.emit .csumErr).events⟩

theorem SameReception.enterStart {s u : State} (h : SameReception s u) :
    SameReception (enterStart s) (enterStart u) := by
  obtain ⟨b, g, o, q, rfl⟩ := h.exists_eq
  exact (h.withRx (Machine.enterStart s).rx).emit .preamble

/-! The stages of an edge. -/

theorem pairOfOnes_of_unequal {e : Nat} {s : State} (h : s.cfg.maxBitDiff < absDiff e s.rx.bit1) :
    pairOfOnes e s = syncFail { s with rx := { s.rx with bit2 := e } } := if_pos h

theorem pairOfOnes_of_equal {e : Nat} {s : State} (h : ¬ s.cfg.maxBitDiff < absDiff e s.rx.bit1) :
    pairOfOnes e s = { s with rx := { s.rx with bit2 := e, halfBit := .h0 } } := if_neg h

theorem SameReception.halfBitStep {s u : State} (h : SameReception s u) (b : Bool) (e : Nat) :
    SameReception (halfBitStep b e s) (halfBitStep b e u) := by
  obtain ⟨box, g, o, q, rfl⟩ := h.exists_eq
  unfold Machine.halfBitStep
  cases s.rx.halfBit <;> cases b
  case h0.false | h0.true | h1.false => exact h.withRx _
  case h1.true =>
    by_cases hdiff : s.cfg.maxBitDiff < absDiff e s.rx.bit1
    · rw [pairOfOnes_of_unequal hdiff, pairOfOnes_of_unequal (by exact hdiff)]
      exact (h.withRx _).syncFail
    · rw [pairOfOnes_of_equal hdiff, pairOfOnes_of_equal (by exact hdiff)]
      exact h.withRx _
  case h3.true | h4.true => exact h.syncFail
  case h3.false | h4.false => exact h.acceptStart _

theorem SameReception.dataStep {s u : State} (h : SameReception s u) (b : Bool) :
    SameReception (dataStep b s) (dataStep b u) := by
  obtain ⟨box, g, o, q, rfl⟩ := h.exists_eq
  by_cases hlast : s.rx.bitCount + 1 = 8
  · by_cases hfull : s.rx.working.size.toNat = Config.maxLen
    · rw [dataStep_full hlast hfull, dataStep_full (by exact hlast) (by exact hfull)]
      exact (h.withRx _).dropOversized
    · rw [dataStep_byte hlast hfull, dataStep_byte (by exact hlast) (by exact hfull)]
      exact (h.withRx _).emit .byte
  · rw [dataStep_of_bitCount_ne hlast, dataStep_of_bitCount_ne (by exact hlast)]
    exact h.withRx _

theorem SameReception.endBitStep {s u : State} (h : SameReception s u) (b : Bool) :
    SameReception (endBitStep b s) (endBitStep b u) := by
  obtain ⟨box, g, o, q, rfl⟩ := h.exists_eq
  cases b with
  | true =>
    by_cases hsum : s.rx.checksum = 0
    · rw [endBitStep_commit hsum, endBitStep_commit (by exact hsum)]
      exact (h.withRx _).commit
    · rw [endBitStep_reject hsum, endBitStep_reject (by exact hsum)]
      exact (h.withRx _).checksumReject
  | false =>
    by_cases hfull : s.rx.working.size.toNat = Config.maxLen
    · rw [endBitStep_full hfull, endBitStep_full (by exact hfull)]
      exact h.dropOversized
    · rw [endBitStep_continue hfull, endBitStep_continue (by exact hfull)]
      exact h.withRx _

theorem SameReception.perStateStep {s u : State} (h : SameReception s u) (b : Bool) (e : Nat) :
    SameReception (perStateStep b e s) (perStateStep b e u) := by
  unfold Machine.perStateStep
  rw [h.rx]
  cases s.rx.state with
  | waitPreamble => exact h
  | waitStartBit => exact h.halfBitStep b e
  | waitStartBitFull =>
    cases b with
    | false => exact h.acceptStart false
    | true => exact h
  | waitData => exact h.dataStep b
  | waitEndBit => exact h.endBitStep b

theorem SameReception.postBitCheck {s u : State} (h : SameReception s u) (b : Bool) :
    SameReception (postBitCheck b s) (postBitCheck b u) := by
  obtain ⟨box, g, o, q, rfl⟩ := h.exists_eq
  by_cases hstate : s.rx.state = .waitStartBit
  · rwa [postBitCheck_sync hstate, postBitCheck_sync (by exact hstate)]
  cases b with
  | false =>
    rw [postBitCheck_zero hstate, postBitCheck_zero (by exact hstate)]
    exact h.withRx _
  | true =>
    by_cases hfew : s.rx.preambleBitCount.toNat ≤ 9
    · rw [postBitCheck_one hstate hfew, postBitCheck_one (by exact hstate) (by exact hfew)]
      exact h.withRx _
    · have hmany : 10 ≤ s.rx.preambleBitCount.toNat := by omega
      rw [postBitCheck_preamble hstate hmany, postBitCheck_preamble (by exact hstate) (by exact hmany)]
      exact (h.withRx _).enterStart

theorem SameReception.classifiedBit {s u : State} (h : SameReception s u) (b : Bool) (e : Nat) :
    SameReception (classifiedBit b e s) (classifiedBit b e u) := by
  cases b with
  | false => exact ((h.emit .bit).perStateStep false e).postBitCheck false
  | true => exact (((h.emit .bit).emit .bitVal).perStateStep true e).postBitCheck true

theorem SameReception.acceptedEdge {s u : State} (h : SameReception s u) (t : Nat) :
    SameReception (acceptedEdge t s) (acceptedEdge t u) := by
  obtain ⟨box, g, o, q, rfl⟩ := h.exists_eq
  have hlast := h.withRx { s.rx with lastTs := t }
  unfold Machine.acceptedEdge
  cases hk : classify s.cfg.zbsCheck (elapsed s.cfg s.rx t) s.rx.bitMin s.rx.bitMax <;> simp only [hk]
  case glitch => exact ⟨rfl, rfl, (h.emit .glitch).events⟩
  case outOfRange => exact hlast.rejectOutOfRange
  case one => exact hlast.classifiedBit true _
  case zero => exact hlast.classifiedBit false _

theorem SameReception.edgeStep {s u : State} (h : SameReception s u) (d : Bool) (t : Nat) :
    SameReception (edgeStep d t s) (edgeStep d t u) := by
  obtain ⟨box, g, o, q, rfl⟩ := h.exists_eq
  have hbegin : SameReception s.begin (State.begin { s with box := box, diag := g, out := o, inp := q }) :=
    ⟨rfl, rfl, fun _ _ => rfl⟩
  unfold Machine.edgeStep
  cases ha : trigAccepts s.rx d <;> simp only [State.begin_rx, ha]
  · exact hbegin.emit .filtered
  · exact hbegin.acceptedEdge _

/-- Settles O46: every stage of an edge reads parameters and receiver registers only, but for `commit`, whose OVERWRITE
tells `dataReady`. -/
theorem mailboxDoesNotReachTheReceiver : Obligations.MailboxDoesNotReachTheReceiver := by
  unfold Obligations.MailboxDoesNotReachTheReceiver
  intro s t d τ b g o q h
  rw [exec_edge, perform_next] at h
  obtain ⟨hc, rfl⟩ := h
  have hbegin : SameReception s.begin (State.begin { s with box := b, diag := g, out := o, inp := q }) :=
    ⟨rfl, rfl, fun _ _ => rfl⟩
  have hsame : SameReception (edgeStep d τ s) (edgeStep d τ { s with box := b, diag := g, out := o, inp := q }) :=
    hbegin.edgeStep d τ
  exact ⟨_, exec_edge_of_inRange (by exact hc) d τ, hsame.rx, hsame.events⟩

/-! ### Reception without the time of day -/

theorem commit_setLastTs (t : Nat) (s : State) : commit (s.setLastTs t) = (commit s).setLastTs t := by
  rw [commit_eq, commit_eq]
  rfl

theorem pairOfOnes_setLastTs (e t : Nat) (s : State) :
    pairOfOnes e (s.setLastTs t) = (pairOfOnes e s).setLastTs t := by
  by_cases hdiff : s.cfg.maxBitDiff < absDiff e s.rx.bit1
  · rw [pairOfOnes_of_unequal hdiff, pairOfOnes_of_unequal (by exact hdiff)]
    rfl
  · rw [pairOfOnes_of_equal hdiff, pairOfOnes_of_equal (by exact hdiff)]
    rfl

theorem halfBitStep_setLastTs (b : Bool) (e t : Nat) (s : State) :
    halfBitStep b e (s.setLastTs t) = (halfBitStep b e s).setLastTs t := by
  unfold halfBitStep
  rw [State.setLastTs_rx]
  cases s.rx.halfBit <;> cases b
  case h1.true =>
    exact pairOfOnes_setLastTs e t s
  all_goals rfl

theorem dataStep_setLastTs (b : Bool) (t : Nat) (s : State) :
    dataStep b (s.setLastTs t) = (dataStep b s).setLastTs t := by
  by_cases hlast : s.rx.bitCount + 1 = 8
  · by_cases hfull : s.rx.working.size.toNat = Config.maxLen
    · rw [dataStep_full hlast hfull, dataStep_full (by exact hlast) (by exact hfull)]
      rfl
    · rw [dataStep_byte hlast hfull, dataStep_byte (by exact hlast) (by exact hfull)]
      rfl
  · rw [dataStep_of_bitCount_ne hlast, dataStep_of_bitCount_ne (by exact hlast)]
    rfl

theorem endBitStep_setLastTs (b : Bool) (t : Nat) (s : State) :
    endBitStep b (s.setLastTs t) = (endBitStep b s).setLastTs t := by
  cases b with
  | true =>
    by_cases hsum : s.rx.checksum = 0
    · rw [endBitStep_commit hsum, endBitStep_commit (by exact hsum), ← commit_setLastTs]
      rfl
    · rw [endBitStep_reject hsum, endBitStep_reject (by exact hsum)]
      rfl
  | false =>
    by_cases hfull : s.rx.working.size.toNat = Config.maxLen
    · rw [endBitStep_full hfull, endBitStep_full (by exact hfull)]
      rfl
    · rw [endBitStep_continue hfull, endBitStep_continue (by exact hfull)]
      rfl

/-- No per-state step reads or writes the time reference. -/
theorem perStateStep_setLastTs (b : Bool) (e t : Nat) (s : State) :
    perStateStep b e (s.setLastTs t) = (perStateStep b e s).setLastTs t := by
  unfold perStateStep
  rw [State.setLastTs_rx]
  cases s.rx.state with
  | waitPreamble => rfl
  | waitStartBit => exact halfBitStep_setLastTs b e t s
  | waitStartBitFull => cases b <;> rfl
  | waitData => exact dataStep_setLastTs b t s
  | waitEndBit => exact endBitStep_setLastTs b t s

theorem enterStart_setLastTs (t : Nat) (s : State) : enterStart (s.setLastTs t) = (enterStart s).setLastTs t := by
  by_cases hsync : s.cfg.syncAlways = true ∨ s.rx.checksum ≠ 0
  · rw [enterStart_of_sync hsync, enterStart_of_sync (by exact hsync)]
    rfl
  · obtain ⟨hno, hsum⟩ : s.cfg.syncAlways = false ∧ s.rx.checksum = 0 := by simpa using hsync
    rw [enterStart_of_full hno hsum, enterStart_of_full (by exact hno) (by exact hsum)]
    rfl

theorem postBitCheck_setLastTs (b : Bool) (t : Nat) (s : State) :
    postBitCheck b (s.setLastTs t) = (postBitCheck b s).setLastTs t := by
  by_cases hstate : s.rx.state = .waitStartBit
  · rw [postBitCheck_sync hstate, postBitCheck_sync (by exact hstate)]
  cases b with
  | false =>
    rw [postBitCheck_zero hstate, postBitCheck_zero (by exact hstate)]
    rfl
  | true =>
    by_cases hfew : s.rx.preambleBitCount.toNat ≤ 9
    · rw [postBitCheck_one hstate hfew, postBitCheck_one (by exact hstate) (by exact hfew)]
      rfl
    · have hmany : 10 ≤ s.rx.preambleBitCount.toNat := by omega
      rw [postBitCheck_preamble hstate hmany, postBitCheck_preamble (by exact hstate) (by exact hmany),
        ← enterStart_setLastTs]
      rfl

theorem classifiedBit_setLastTs (b : Bool) (e t : Nat) (s : State) :
    classifiedBit b e (s.setLastTs t) = (classifiedBit b e s).setLastTs t := by
  have hevents : (if b then ((s.setLastTs t).emit .bit).emit .bitVal else (s.setLastTs t).emit .bit) =
      State.setLastTs t (if b then (s.emit .bit).emit .bitVal else s.emit .bit) := by cases b <;> rfl
  simp only [classifiedBit, hevents, perStateStep_setLastTs, postBitCheck_setLastTs]

/-- The state with the time reference moved by `k` on the clock of `TW` bits. -/
def State.shiftLastTs (k : Nat) (s : State) : State := s.setLastTs ((s.rx.lastTs + k) % 2 ^ s.cfg.tw)

theorem subMod_add_mod (tw a b k : Nat) : subMod tw ((a + k) % 2 ^ tw) ((b + k) % 2 ^ tw) = subMod tw a b := by
  rw [subMod_eq_int, subMod_eq_int]
  congr 1
  push_cast
  rw [← Int.sub_emod, add_sub_add_right_eq_sub]

theorem elapsed_shiftLastTs (s : State) (t k : Nat) :
    elapsed (s.shiftLastTs k).cfg (s.shiftLastTs k).rx ((t + k) % 2 ^ s.cfg.tw) = elapsed s.cfg s.rx t :=
  subMod_add_mod _ _ _ _

/-- An accepted edge and its time reference, both moved by `k`: the class and the elapsed time are the same, and the new
time reference is moved too. -/
theorem acceptedEdge_shiftLastTs (t k : Nat) (s : State) :
    acceptedEdge ((t + k) % 2 ^ s.cfg.tw) (s.shiftLastTs k) = (acceptedEdge t s).shiftLastTs k := by
  have hlast : State.setLastTs ((t + k) % 2 ^ s.cfg.tw) (s.shiftLastTs k) =
      State.setLastTs ((t + k) % 2 ^ s.cfg.tw) (s.setLastTs t) := rfl
  have hbit (b : Bool) (e : Nat) :
      classifiedBit b e (State.setLastTs ((t + k) % 2 ^ s.cfg.tw) (s.setLastTs t)) =
        (classifiedBit b e (s.setLastTs t)).shiftLastTs k := by
    rw [classifiedBit_setLastTs, classifiedBit_setLastTs, State.shiftLastTs, State.setLastTs_cfg,
      (classifiedBit_frame b e s).1]
    rfl
  have hclass : classify (s.shiftLastTs k).cfg.zbsCheck (elapsed s.cfg s.rx t) (s.shiftLastTs k).rx.bitMin
      (s.shiftLastTs k).rx.bitMax = classify s.cfg.zbsCheck (elapsed s.cfg s.rx t) s.rx.bitMin s.rx.bitMax := rfl
  simp only [acceptedEdge, elapsed_shiftLastTs, hlast, hclass]
  cases classify s.cfg.zbsCheck (elapsed s.cfg s.rx t) s.rx.bitMin s.rx.bitMax with
  | glitch => rfl
  | outOfRange => rfl
  | one => exact hbit true _
  | zero => exact hbit false _

/-- Settles O47: `acceptedEdge_shiftLastTs` for an accepted edge; a filtered one does not read the clock. -/
theorem onlyTimeDifferencesMatter : Obligations.OnlyTimeDifferencesMatter := by
  unfold Obligations.OnlyTimeDifferencesMatter
  intro s u d t k ht h
  rw [exec_edge, perform_next] at h
  obtain ⟨hc, rfl⟩ := h
  have hmod : (t + k) % 2 ^ s.cfg.tw < 2 ^ s.cfg.tw := Nat.mod_lt _ (by positivity)
  have hcfg : (edgeStep d t s).cfg = s.cfg := (edgeStep_frame d t s).1
  have hshift : edgeStep d ((t + k) % 2 ^ s.cfg.tw) (s.shiftLastTs k) = (edgeStep d t s).shiftLastTs k := by
    by_cases ha : s.Accepts d
    · rw [edgeStep_of_accepts (by exact ha) (by exact hmod), edgeStep_of_accepts ha ht, ← acceptedEdge_shiftLastTs]
      rfl
    · rw [edgeStep_of_not_accepts (by exact ha), edgeStep_of_not_accepts ha]
      rfl
  rw [State.shiftLastTs, State.shiftLastTs, hcfg] at hshift
  exact (exec_edge_of_inRange (by exact hc) d _).trans (congrArg Host.Outcome.next hshift)

end Sys2Proof.Machine

/-! The mailbox between the two agents (10_state.md R27; 20_memory.md R39, R43; 44_packet_handoff.md R109–R113): who
writes it, and what a POLL answers. -/

namespace Sys2Proof.Machine

open Sys2Proof

/-! ### One transaction on the mailbox -/

/-- POLL completes and answers the unread message. -/
theorem exec_poll_of_ready {s : State} (hc : s.cfg.inRange = true) (hready : s.box.dataReady = true) :
    ∃ t, exec .poll s = .next t ∧ t.out.resp = some (respWord s.box.handoff) ∧ t.box.dataReady = false ∧
      t.box.handoff = s.box.handoff ∧ t.rx = s.rx := by
  refine ⟨pollMailbox s, by rw [exec_poll, perform_of_inRange hc], ?_⟩
  rw [pollMailbox_ready hready]
  exact ⟨rfl, rfl, rfl, rfl⟩

/-- Settles O35: a POLL leaves `dataReady` 0, and a POLL of a read mailbox answers 0. -/
theorem secondPollReturnsNothing : Obligations.SecondPollReturnsNothing := by
  unfold Obligations.SecondPollReturnsNothing
  intro s t h
  have hc : t.cfg.inRange = true := by
    rw [(exec_frame h).1]
    exact inRange_of_exec h
  have hread : t.box.dataReady = false := by rw [exec_poll_eq h]
  rw [exec_poll, perform_of_inRange hc, pollMailbox_empty hread]

/-- An edge sets `dataReady` by a commit and never clears it. -/
theorem exec_edge_dataReady {d : Bool} {τ : Nat} {s t : State} (h : exec (edgeInstr d τ) s = .next t) :
    t.box.dataReady = (s.box.dataReady || Event.isIn .commit t.out.ev) := by
  cases hc : Event.isIn .commit t.out.ev with
  | true => rw [exec_edge_box_of_commit h hc, Bool.or_true]
  | false => rw [exec_edge_box_of_not_commit h hc, Bool.or_false]

theorem Diag.tallied_of_not_diag {c : Config} (hc : c.diag = false) (d : Diag) (ev : BitVec 16) :
    d.tallied c ev = d := by
  simp [Diag.tallied, countUp, hc]

/-- Settles O40: `edgeStep_frame`, the mailbox and the counters of an edge, and the host transactions written out. -/
theorem ownershipOfTheState : Obligations.OwnershipOfTheState := by
  unfold Obligations.OwnershipOfTheState
  refine fun s t => ⟨fun d τ h => ?_, fun h => ?_, fun h => ?_, fun h => ?_⟩
  · obtain ⟨hcfg, hinp⟩ := exec_frame h
    have hresp : t.out.resp = none := by
      rw [exec_edge, perform_next] at h
      obtain ⟨-, rfl⟩ := h
      obtain ⟨-, -, hresp⟩ := edgeStep_frame d τ s
      exact hresp
    refine ⟨hcfg, hinp, hresp, fun hready => ?_, exec_edge_box_of_not_commit h, fun hno => ?_⟩
    · rw [exec_edge_dataReady h, hready, Bool.true_or]
    · rw [exec_edge_diag h, Diag.tallied_of_not_diag hno]
  · rw [exec_poll_eq h]
    exact ⟨rfl, rfl, rfl, rfl, rfl, rfl⟩
  · rw [exec_reset_eq h]
    exact ⟨rfl, rfl, rfl, fun hno => if_neg (by simp [hno])⟩
  · rw [exec_idle_eq h]
    exact ⟨rfl, rfl, rfl, rfl, rfl⟩

/-! ### A POLL after a commit -/

theorem undisturbedRun_keeps {is : List Instr} {s t : State} (h : UndisturbedRun is s t) :
    t.cfg = s.cfg ∧ t.box = s.box := by
  induction is generalizing s with
  | nil => cases h; exact ⟨rfl, rfl⟩
  | cons i is ih =>
    obtain ⟨hpoll, hreset, s', he, hno, hrest⟩ := h
    obtain ⟨hcfg, hbox⟩ := ih hrest
    have hbox' : s'.box = s.box := by
      obtain ⟨-, rfl⟩ | ⟨rfl, -⟩ | ⟨rfl, -⟩ | ⟨d, τ, rfl⟩ := exec_cases he
      · rfl
      · exact absurd rfl hpoll
      · exact absurd rfl hreset
      · exact exec_edge_box_of_not_commit he hno
    exact ⟨hcfg.trans (exec_frame he).1, hbox.trans hbox'⟩

/-- Settles O39: the commit leaves the working message unread in the mailbox, where the run keeps it. -/
theorem pollDeliversTheLastCommit : Obligations.PollDeliversTheLastCommit := by
  unfold Obligations.PollDeliversTheLastCommit
  intro s u t i is he hc hrun
  obtain ⟨hcfg, hbox⟩ := undisturbedRun_keeps hrun
  obtain ⟨hno, -⟩ | ⟨-, -, -, hready, hhand, -⟩ | ⟨-, hno, -⟩ := handoffIsWrittenWholeByCommit i s u he
  · rw [State.emitted, hno] at hc; cases hc
  · have hin : t.cfg.inRange = true := by
      rw [hcfg, (exec_frame he).1]
      exact inRange_of_exec he
    obtain ⟨v, hv, hresp, hread, -, -⟩ := exec_poll_of_ready hin (hbox ▸ hready)
    exact ⟨v, hv, by rw [hresp, hbox, hhand], hread⟩
  · rw [State.emitted, hno] at hc; cases hc

/-- A one in WAIT_END_BIT with checksum 0 commits, however many ones are counted. -/
theorem exec_edge_commits {s : State} {d : Bool} {t : Nat} (hstate : s.rx.state = .waitEndBit)
    (hsum : s.rx.checksum = 0) (h : s.CarriesBit d t true) :
    ∃ u, exec (edgeInstr d t) s = .next u ∧ u.box = { handoff := s.rx.working, dataReady := true } := by
  refine ⟨_, exec_of_carriesBit h, ?_⟩
  rw [postBitCheck_box, perStateStep_waitEndBit (by exact hstate), endBitStep_commit (by exact hsum), commit_box]
  rfl

/-- Settles O38: both orders commit the same message, and the POLL reads what stands in the mailbox in its turn; the
receiver does not see the POLL. -/
theorem pollAndCommitInEitherOrder : Obligations.PollAndCommitInEitherOrder := by
  unfold Obligations.PollAndCommitInEitherOrder
  intro s d t hstate hsum hbit
  have ⟨hc, _⟩ := hbit
  have hpoll : exec .poll s = .next (pollMailbox s) := by rw [exec_poll, perform_of_inRange hc]
  have hs1 := exec_poll_eq hpoll
  obtain ⟨u1, hu1, hbox1⟩ := exec_edge_commits hstate hsum hbit
  obtain ⟨s2, hs2, hbox2⟩ := exec_edge_commits (s := pollMailbox s) (d := d) (t := t) (by rwa [hs1]) (by rwa [hs1])
    (by rw [hs1]; exact hbit)
  have hc1 : u1.cfg.inRange = true := by rwa [(exec_frame hu1).1]
  obtain ⟨u2, hu2, hresp2, hread2, hhand2, hrx2⟩ := exec_poll_of_ready hc1 (by rw [hbox1])
  have hrx : s2.rx = u1.rx := by
    obtain ⟨v, hv, hrx, -⟩ := mailboxDoesNotReachTheReceiver s u1 d t (pollMailbox s).box (pollMailbox s).diag
      (pollMailbox s).out (pollMailbox s).inp hu1
    have hsame : { s with box := (pollMailbox s).box, diag := (pollMailbox s).diag, out := (pollMailbox s).out,
                          inp := (pollMailbox s).inp } = pollMailbox s := by rw [hs1]
    rw [hsame, hs2] at hv
    cases hv
    exact hrx
  refine ⟨pollMailbox s, s2, u1, u2, hpoll, hs2, hu1, hu2, by rw [hs1], by rw [hbox2], by rw [hresp2, hbox1], hread2,
    ?_, by rw [hhand2, hbox1], hrx.trans hrx2.symm⟩
  rw [hbox2, hs1]

/-! ### Who writes `dataReady` -/

/-- One transaction leaves a message unread exactly if it commits, or is no POLL and no RESET and finds one. -/
theorem exec_dataReady_iff {i : Instr} {s t : State} (h : exec i s = .next t) :
    t.box.dataReady = true ↔ (s.box.dataReady = true ∧ i ≠ .poll ∧ i ≠ .reset) ∨ t.emitted .commit := by
  obtain ⟨rfl, rfl⟩ | ⟨rfl, rfl⟩ | ⟨rfl, rfl⟩ | ⟨d, τ, rfl⟩ := exec_cases h
  · simp [State.emitted]
  · simp [State.emitted]
  · simp [State.emitted]
  · have hne : edgeInstr d τ ≠ .poll ∧ edgeInstr d τ ≠ .reset := by cases d <;> simp [edgeInstr]
    rw [exec_edge_dataReady h]
    simp [State.emitted, hne]

/-- The run has a commit with no POLL and no RESET after it. -/
def CommitPending (is : List Instr) (s t : State) : Prop :=
  ∃ before i after s1 s2, is = before ++ i :: after ∧ ExecRun before s s1 ∧ exec i s1 = .next s2 ∧
    s2.emitted .commit ∧ ExecRun after s2 t ∧ ∀ j ∈ after, j ≠ .poll ∧ j ≠ .reset

theorem commitPending_cons_iff {i : Instr} {is : List Instr} {s s' t : State} (he : exec i s = .next s')
    (hrun : ExecRun is s' t) :
    CommitPending (i :: is) s t ↔
      (s'.emitted .commit ∧ ∀ j ∈ is, j ≠ .poll ∧ j ≠ .reset) ∨ CommitPending is s' t := by
  constructor
  · rintro ⟨before, j, after, s1, s2, hsplit, hbefore, hj, hc, hafter, hno⟩
    cases before with
    | nil =>
      cases hsplit
      cases hbefore
      rw [he] at hj
      cases hj
      exact .inl ⟨hc, hno⟩
    | cons x before =>
      cases hsplit
      obtain ⟨s'', he', hbefore⟩ := hbefore
      rw [he] at he'
      cases he'
      exact .inr ⟨before, j, after, s1, s2, rfl, hbefore, hj, hc, hafter, hno⟩
  · rintro (⟨hc, hno⟩ | ⟨before, j, after, s1, s2, rfl, hbefore, hj, hc, hafter, hno⟩)
    · exact ⟨[], i, is, s, s', rfl, rfl, he, hc, hrun, hno⟩
    · exact ⟨i :: before, j, after, s1, s2, rfl, ⟨s', he, hbefore⟩, hj, hc, hafter, hno⟩

/-- After a run a message is unread exactly if the run has a commit pending, or found one unread and did not read it. -/
theorem execRun_dataReady_iff {is : List Instr} {s t : State} (h : ExecRun is s t) :
    t.box.dataReady = true ↔
      (s.box.dataReady = true ∧ ∀ j ∈ is, j ≠ .poll ∧ j ≠ .reset) ∨ CommitPending is s t := by
  induction is generalizing s with
  | nil =>
    cases h
    simp [CommitPending]
  | cons i is ih =>
    obtain ⟨s', he, hrun⟩ := h
    rw [ih hrun, commitPending_cons_iff he hrun, exec_dataReady_iff he, List.forall_mem_cons]
    tauto

/-- Settles O42: one transaction, and by induction every run. -/
theorem dataReadyHasThreeWriters : Obligations.DataReadyHasThreeWriters := by
  unfold Obligations.DataReadyHasThreeWriters
  refine ⟨fun s t => ⟨fun d τ h => exec_edge_dataReady h, fun h => ?_, fun h => ?_, fun h => ?_, rfl⟩,
    fun s t is hread hrun => ?_⟩
  · rw [exec_poll_eq h]
  · rw [exec_reset_eq h]; rfl
  · rw [exec_idle_eq h]; rfl
  · rw [execRun_dataReady_iff hrun, hread]
    simp [CommitPending]

/-! ### Who writes the checksum -/

/-- What the per-state step does to the checksum, told by the events it adds to those of the bit. -/
structure ChecksumWritten (s t : State) : Prop where
  start : t.emitted .start → t.rx.checksum = 0
  byte : t.emitted .byte → t.rx.checksum = s.rx.checksum ^^^ t.rx.tempByte
  kept : Event.isIn .start t.out.ev = false → Event.isIn .byte t.out.ev = false → t.rx.checksum = s.rx.checksum
  commit : t.emitted .commit → t.rx.checksum = 0
  csumErr : t.emitted .csumErr → t.rx.checksum ≠ 0

/-- The events of a bit say nothing of the checksum. -/
theorem isIn_atBit_of_checksum (b : Bool) (τ : Nat) (s : State) :
    Event.isIn .start (State.atBit b τ s).out.ev = false ∧ Event.isIn .byte (State.atBit b τ s).out.ev = false ∧
    Event.isIn .commit (State.atBit b τ s).out.ev = false ∧ Event.isIn .csumErr (State.atBit b τ s).out.ev = false :=
  ⟨isIn_atBit (by decide) (by decide) .., isIn_atBit (by decide) (by decide) .., isIn_atBit (by decide) (by decide) ..,
    isIn_atBit (by decide) (by decide) ..⟩

/-- Of the operations in `perStateStep_cases` the start bit and the byte write the checksum and emit their event, and
the two outcomes of an end bit 1 tell whether it is 0; the others write none and emit none of these events. -/
theorem checksumWritten_perStateStep (b : Bool) (e τ : Nat) (s : State) :
    ChecksumWritten s (perStateStep b e (State.atBit b τ s)) := by
  obtain ⟨hstart, hbyte, hcommit, herr⟩ := isIn_atBit_of_checksum b τ s
  obtain ⟨h, -⟩ | ⟨h, -⟩ | ⟨h, -⟩ | ⟨h, -⟩ | ⟨h, -⟩ | ⟨h, -⟩ | ⟨h, -⟩ | ⟨h, -⟩ | ⟨h, -⟩ | ⟨h, -⟩ | ⟨h, -⟩ | ⟨h, -⟩ |
    ⟨h, -⟩ | ⟨h, -⟩ | ⟨h, -, -, hsum⟩ | ⟨h, -, -, hsum⟩ | ⟨h, -⟩ | ⟨h, -⟩ :=
      perStateStep_cases b e (State.atBit b τ s)
  on_goal 16 =>
    rw [h]
    constructor <;> simp [State.emitted, -State.atBit_ev, hstart, hbyte, hcommit]
    exact hsum
  on_goal 15 =>
    rw [h]
    constructor <;> simp [State.emitted, -State.atBit_ev, hstart, hbyte, herr, apply_ite (Event.isIn _)]
    exact hsum
  all_goals
    rw [h]
    constructor <;> simp [State.emitted, -State.atBit_ev, hstart, hbyte, hcommit, herr]

theorem postBitCheck_checksum (b : Bool) (s : State) :
    (postBitCheck b s).rx.checksum = s.rx.checksum ∧ (postBitCheck b s).rx.tempByte = s.rx.tempByte := by
  obtain ⟨h, -⟩ | ⟨h, -⟩ | ⟨h, -⟩ | ⟨h, -⟩ := postBitCheck_rx_cases b s <;> rw [h] <;> exact ⟨rfl, rfl⟩

/-- Settles O44: an edge without a bit keeps the checksum; of a bit only the per-state step writes it. -/
theorem checksumIsWrittenOnlyAtStartAndByte : Obligations.ChecksumIsWrittenOnlyAtStartAndByte := by
  unfold Obligations.ChecksumIsWrittenOnlyAtStartAndByte
  intro s t d τ h
  obtain ⟨-, rfl | rfl | rfl | ⟨b, e, -, rfl⟩⟩ := exec_edge_cases h
  iterate 3 simp [State.emitted]
  obtain ⟨hstart, hbyte, hkept, hcommit, herr⟩ := checksumWritten_perStateStep b e τ s
  obtain ⟨hsum, htemp⟩ := postBitCheck_checksum b (perStateStep b e (State.atBit b τ s))
  have hstart' : Event.start ≠ .preamble := by decide
  have hbyte' : Event.byte ≠ .preamble := by decide
  have hcommit' : Event.commit ≠ .preamble := by decide
  have herr' : Event.csumErr ≠ .preamble := by decide
  simp only [State.emitted, hsum, htemp, postBitCheck_isIn hstart', postBitCheck_isIn hbyte',
    postBitCheck_isIn hcommit', postBitCheck_isIn herr']
  exact ⟨hstart, hbyte, hkept, hcommit, herr⟩

end Sys2Proof.Machine

/-! How far apart two commits are (70_reset_and_hazards.md R141): a lower bound on the bits still missing to the next
commit, which no transaction lowers by more than the bits it classifies. -/

namespace Sys2Proof.Machine

open Sys2Proof

/-- At least so many bits must still be classified until a packet can be committed: the preamble's missing ones, the
start bit, the rest of a byte and the end bit. -/
def bitsToCommit (r : Receiver) : Nat :=
  match r.state with
  | .waitPreamble => max (11 - r.preambleBitCount.toNat) 1 + 10
  | .waitStartBit => 10
  | .waitStartBitFull => 10
  | .waitData => 9 - r.bitCount.toNat
  | .waitEndBit => 1

theorem bitsToCommit_waitPreamble {r : Receiver} (h : r.state = .waitPreamble) :
    bitsToCommit r = max (11 - r.preambleBitCount.toNat) 1 + 10 := by simp only [bitsToCommit, h]

theorem bitsToCommit_waitStartBit {r : Receiver} (h : r.state = .waitStartBit) : bitsToCommit r = 10 := by
  simp only [bitsToCommit, h]

theorem bitsToCommit_waitStartBitFull {r : Receiver} (h : r.state = .waitStartBitFull) : bitsToCommit r = 10 := by
  simp only [bitsToCommit, h]

theorem bitsToCommit_waitData {r : Receiver} (h : r.state = .waitData) : bitsToCommit r = 9 - r.bitCount.toNat := by
  simp only [bitsToCommit, h]

theorem bitsToCommit_waitEndBit {r : Receiver} (h : r.state = .waitEndBit) : bitsToCommit r = 1 := by
  simp only [bitsToCommit, h]

theorem bitsToCommit_le_ten {r : Receiver} (h : r.state ≠ .waitPreamble) : bitsToCommit r ≤ 10 := by
  cases hs : r.state with
  | waitPreamble => exact absurd hs h
  | waitStartBit => rw [bitsToCommit_waitStartBit hs]
  | waitStartBitFull => rw [bitsToCommit_waitStartBitFull hs]
  | waitData => rw [bitsToCommit_waitData hs]; omega
  | waitEndBit => rw [bitsToCommit_waitEndBit hs]; decide

/-- While hunting, the preamble is missing at least its last one. -/
theorem eleven_le_bitsToCommit {r : Receiver} (h : r.state = .waitPreamble) : 11 ≤ bitsToCommit r := by
  rw [bitsToCommit_waitPreamble h]
  omega

/-- A receiver that hunts with no one counted is farthest from a commit. -/
theorem bitsToCommit_le_of_fresh {r : Receiver} (h : r.state = .waitPreamble) (hones : r.preambleBitCount = 0)
    (r' : Receiver) : bitsToCommit r' ≤ bitsToCommit r := by
  have hmax : bitsToCommit r = 21 := by
    rw [bitsToCommit_waitPreamble h, hones]
    rfl
  by_cases hs : r'.state = .waitPreamble
  · rw [hmax, bitsToCommit_waitPreamble hs]
    omega
  · have := bitsToCommit_le_ten hs
    omega

/-- Outside WAIT_PREAMBLE the count of ones is not part of the bound. -/
theorem bitsToCommit_countBit {r : Receiver} (h : r.state ≠ .waitPreamble) (b : Bool) :
    bitsToCommit (countBit b r) = bitsToCommit r := by
  have hstate : (countBit b r).state = r.state := rfl
  unfold bitsToCommit
  rw [hstate]
  cases hs : r.state with
  | waitPreamble => exact absurd hs h
  | waitStartBit => rfl
  | waitStartBitFull => rfl
  | waitData => rfl
  | waitEndBit => rfl

/-- The post-bit check brings a commit nearer only by counting a one while hunting. -/
theorem bitsToCommit_postBitCheck (b : Bool) (s : State) :
    min 10 (bitsToCommit s.rx) ≤ bitsToCommit (postBitCheck b s).rx := by
  obtain ⟨h, -⟩ | ⟨h, -⟩ | ⟨h, -⟩ | ⟨h, -⟩ := postBitCheck_rx_cases b s <;> rw [h]
  · exact min_le_right _ _
  · by_cases hs : s.rx.state = .waitPreamble
    · have := eleven_le_bitsToCommit (r := countBit b s.rx) hs
      omega
    · rw [bitsToCommit_countBit hs]
      exact min_le_right _ _
  · exact min_le_left _ _
  · exact min_le_left _ _

theorem bitsToCommit_dataStep {s : State} (hs : s.rx.state = .waitData) (b : Bool) :
    bitsToCommit s.rx ≤ 1 + bitsToCommit (dataStep b s).rx := by
  have hle : bitsToCommit s.rx ≤ 10 := bitsToCommit_le_ten (by simp [hs])
  by_cases hlast : s.rx.bitCount + 1 = 8
  · by_cases hfull : s.rx.working.size.toNat = Config.maxLen
    · rw [dataStep_full hlast hfull]
      have := eleven_le_bitsToCommit (r := goPreamble s.cfg (shiftIn b s.rx)) rfl
      exact hle.trans (by simp only [dropOversized_rx]; omega)
    · have hseven : s.rx.bitCount = 7 := by rw [← add_left_inj 1, hlast]; rfl
      rw [dataStep_byte hlast hfull, bitsToCommit_waitData hs, bitsToCommit_waitEndBit rfl, hseven]
      decide
  · rw [dataStep_of_bitCount_ne hlast, bitsToCommit_waitData hs, bitsToCommit_waitData (by exact hs)]
    have hsucc : (s.rx.bitCount + 1).toNat ≤ s.rx.bitCount.toNat + 1 := by
      rw [BitVec.toNat_add]
      exact Nat.mod_le _ _
    simp only [shiftIn_bitCount]
    omega

/-- Outside WAIT_PREAMBLE the per-state step of one bit brings a commit at most one bit nearer. -/
theorem bitsToCommit_perStateStep {s : State} (h : s.rx.state ≠ .waitPreamble) (b : Bool) (e : Nat) :
    bitsToCommit s.rx ≤ 1 + bitsToCommit (perStateStep b e s).rx := by
  have hopen (flip : Bool) : bitsToCommit (openPacket flip s.cfg s.rx) = 9 := rfl
  cases hs : s.rx.state with
  | waitPreamble => exact absurd hs h
  | waitStartBit =>
    rw [perStateStep_waitStartBit hs, bitsToCommit_waitStartBit hs]
    obtain ⟨half, bit1, bit2, hrx⟩ | ⟨bit2, hrx⟩ | ⟨rfl, flip, hrx⟩ := halfBitStep_rx_cases b e s <;> rw [hrx]
    · rw [bitsToCommit_waitStartBit (by exact hs)]
      decide
    · have := eleven_le_bitsToCommit (r := huntReset s.cfg { s.rx with bit2 := bit2 }) rfl
      omega
    · rw [hopen]
  | waitStartBitFull =>
    rw [perStateStep_waitStartBitFull hs, bitsToCommit_waitStartBitFull hs]
    cases b with
    | true => rw [show fullStartStep true s = s from rfl, bitsToCommit_waitStartBitFull hs]; decide
    | false => rw [show fullStartStep false s = acceptStart false s from rfl, acceptStart_rx, hopen]
  | waitData =>
    rw [perStateStep_waitData hs]
    exact bitsToCommit_dataStep hs b
  | waitEndBit =>
    rw [bitsToCommit_waitEndBit hs]
    exact Nat.le_add_right _ _

theorem bitsToCommit_classifiedBit (b : Bool) (e : Nat) (s : State) :
    bitsToCommit s.rx ≤ 1 + bitsToCommit (postBitCheck b (perStateStep b e s)).rx := by
  by_cases hs : s.rx.state = .waitPreamble
  · rw [perStateStep_waitPreamble hs, bitsToCommit_waitPreamble hs]
    obtain ⟨-, hsync⟩ | ⟨h, -, hfew⟩ | ⟨h, -, -, hmany, -⟩ | ⟨h, -, -, hmany, -⟩ := postBitCheck_rx_cases b s
    · rw [hs] at hsync
      cases hsync
    · rw [h, bitsToCommit_waitPreamble (by exact hs)]
      cases b with
      | false =>
        have : (countBit false s.rx).preambleBitCount.toNat = 0 := rfl
        omega
      | true =>
        have := countBit_true_toNat s.rx
        omega
    · rw [h, bitsToCommit_waitStartBit rfl]
      omega
    · rw [h, bitsToCommit_waitStartBitFull rfl]
      omega
  · have hle := bitsToCommit_le_ten hs
    have hstep := bitsToCommit_perStateStep hs b e
    have hpost := bitsToCommit_postBitCheck b (perStateStep b e s)
    omega

/-! ### Runs -/

theorem classifiedBit_isIn_bit (b : Bool) (e τ : Nat) (s : State) :
    Event.isIn .bit (postBitCheck b (perStateStep b e (State.atBit b τ s))).out.ev = true := by
  rw [postBitCheck_isIn (by decide), perStateStep_isIn rfl]
  cases b <;> simp

/-- No transaction brings a commit nearer by more than the bit it classifies. -/
theorem bitsToCommit_exec {i : Instr} {s t : State} (h : exec i s = .next t) :
    bitsToCommit s.rx ≤ (Event.isIn .bit t.out.ev).toNat + bitsToCommit t.rx := by
  obtain ⟨-, rfl⟩ | ⟨-, rfl⟩ | ⟨-, rfl⟩ | ⟨d, τ, rfl⟩ := exec_cases h
  · exact Nat.le_add_left _ _
  · exact Nat.le_add_left _ _
  · exact (bitsToCommit_le_of_fresh rfl rfl _).trans (Nat.le_add_left _ _)
  · obtain ⟨-, rfl | rfl | rfl | ⟨b, e, -, rfl⟩⟩ := exec_edge_cases h
    · exact Nat.le_add_left _ _
    · exact Nat.le_add_left _ _
    · exact (bitsToCommit_le_of_fresh rfl rfl _).trans (Nat.le_add_left _ _)
    · rw [classifiedBit_isIn_bit]
      exact bitsToCommit_classifiedBit b e (State.atBit b τ s)

/-- A transaction that commits is an edge with a bit, in WAIT_END_BIT. -/
theorem exec_of_commit {i : Instr} {s t : State} (h : exec i s = .next t) (hc : t.emitted .commit) :
    s.rx.state = .waitEndBit ∧ t.emitted .bit := by
  obtain ⟨hno, -⟩ | ⟨⟨d, τ, rfl⟩, -⟩ | ⟨-, hno, -⟩ := handoffIsWrittenWholeByCommit i s t h
  · rw [State.emitted, hno] at hc; cases hc
  · obtain ⟨rfl, hstate, -⟩ := exec_edge_of_commit h hc
    refine ⟨hstate, ?_⟩
    rw [State.emitted, postBitCheck_isIn (by decide)]
    simp [apply_ite (Event.isIn .bit)]
  · rw [State.emitted, hno] at hc; cases hc

/-- A run that ends with a commit classifies at least the bits that were missing at its start. -/
theorem bitsToCommit_le_of_run {n : Nat} {i : Instr} {is : List Instr} {s t : State} (h : CountedRun n (i :: is) s t)
    (hc : t.emitted .commit) : bitsToCommit s.rx ≤ n := by
  induction is generalizing n i s with
  | nil =>
    obtain ⟨s', m, he, rfl, rfl, rfl⟩ := h
    obtain ⟨hstate, hbit⟩ := exec_of_commit he hc
    rw [bitsToCommit_waitEndBit hstate, hbit]
    decide
  | cons j js ih =>
    obtain ⟨s', m, he, rfl, hrun⟩ := h
    have hstep := bitsToCommit_exec he
    have hrest := ih hrun
    omega

/-- After a commit the block hunts, with at most nine ones counted. -/
theorem twelve_le_bitsToCommit_of_commit {s u : State} {d : Bool} {τ : Nat} (hlegal : s.Legal)
    (h : exec (edgeInstr d τ) s = .next u) (hc : u.emitted .commit) : 12 ≤ bitsToCommit u.rx := by
  obtain ⟨hu, hstate, -⟩ := exec_edge_of_commit h hc
  obtain ⟨-, -, hle⟩ := noPreambleInsideAPacket s u d τ hlegal (.inr hstate) h
  have hones : s.rx.preambleBitCount.toNat ≤ 8 := preambleBitCount_le_of_inPacket hlegal (.inr hstate)
  have hunt : u.rx.state = .waitPreamble := by
    rw [hu, postBitCheck_one (by simp) (by simpa using hones.trans (by decide))]
    simp
  rw [bitsToCommit_waitPreamble hunt]
  omega

/-- Settles O57: at least twelve bits are missing after a commit, and a run classifies what is missing. -/
theorem commitsAreTwelveBitsApart : Obligations.CommitsAreTwelveBitsApart := by
  unfold Obligations.CommitsAreTwelveBitsApart
  intro s u t d τ n i is hlegal he hc hrun hc'
  exact (twelve_le_bitsToCommit_of_commit hlegal he hc).trans (bitsToCommit_le_of_run hrun hc')

end Sys2Proof.Machine

/-! Half-bit synchronisation on an alternating line (41_edge_synchronizer.md R89): each substate fixes the direction of
the edge to come. -/

namespace Sys2Proof.Machine

open Sys2Proof

/-- The direction of the next edge of an alternating line that entered synchronisation on the canonical direction. -/
def nextDirection (r : Receiver) : Bool :=
  match r.halfBit with
  | .h0 => !r.edgePolarity
  | .h1 => r.edgePolarity
  | .h3 => !r.edgePolarity
  | .h4 => r.edgePolarity

/-- The events of a bit that is not the start bit. -/
theorem no_start_of_bit (ev : BitVec 16) (h : ev = 0x0008 ∨ ev = 0x0018 ∨ ev = 0x0038) :
    ¬ Event.isIn .start ev = true := by
  obtain rfl | rfl | rfl := h <;> decide

/-- A half-bit of an alternating line: it leads to the next substate, fails the synchronisation, or is the start bit,
after which the polarity is the direction of this edge. -/
theorem halfBit_on_alternating_line {s s' : State} {b : Bool} {τ : Nat} (hstate : s.rx.state = .waitStartBit)
    (hbit : s.CarriesBit (nextDirection s.rx) τ b) (he : exec (edgeInstr (nextDirection s.rx) τ) s = .next s') :
    (s'.rx.state = .waitStartBit ∧ nextDirection s'.rx = !nextDirection s.rx ∧ ¬ s'.emitted .start) ∨
    (s'.rx.state = .waitPreamble ∧ s'.rx.preambleBitCount = 1 ∧ ¬ s'.emitted .start) ∨
    (s'.rx.state = .waitData ∧ s'.rx.bitCount = 0 ∧ s'.rx.preambleBitCount = 0 ∧
      s'.rx.edgePolarity = nextDirection s.rx) := by
  cases hh : s.rx.halfBit with
  | h0 =>
    obtain ⟨hone, hzero⟩ := firstHalfBitOfAPair s _ τ b hstate hh hbit
    left
    cases b with
    | true =>
      rw [hone rfl] at he
      cases he
      exact ⟨hstate, by simp [nextDirection, hh], no_start_of_bit 0x0018 (by decide)⟩
    | false =>
      rw [hzero rfl] at he
      cases he
      exact ⟨hstate, by simp [nextDirection, hh], no_start_of_bit 0x0008 (by decide)⟩
  | h1 =>
    obtain ⟨hpair, hfail, hzero⟩ := secondHalfBitAfterAOne s _ τ b hstate hh hbit
    cases b with
    | true =>
      by_cases hdiff : ((s.elapsedAt τ : Int) - (s.rx.bit1 : Int)).natAbs ≤ s.cfg.maxBitDiff
      · rw [hpair rfl hdiff] at he
        cases he
        exact .inl ⟨hstate, by simp [nextDirection, hh], no_start_of_bit 0x0018 (by decide)⟩
      · rw [hfail rfl (Nat.lt_of_not_le hdiff)] at he
        cases he
        exact .inr (.inl ⟨rfl, rfl, no_start_of_bit 0x0038 (by decide)⟩)
    | false =>
      rw [hzero rfl] at he
      cases he
      exact .inl ⟨hstate, by simp [nextDirection, hh], no_start_of_bit 0x0008 (by decide)⟩
  | h3 =>
    cases b with
    | true =>
      rw [oneAfterAZeroHalfBitFails s _ τ hstate (.inl hh) hbit] at he
      cases he
      exact .inr (.inl ⟨rfl, rfl, no_start_of_bit 0x0038 (by decide)⟩)
    | false =>
      rw [startBitOpensAPacket s _ τ hstate hbit true (.inl ⟨rfl, hh⟩)] at he
      cases he
      exact .inr (.inr ⟨rfl, rfl, rfl, by simp [nextDirection, hh]⟩)
  | h4 =>
    cases b with
    | true =>
      rw [oneAfterAZeroHalfBitFails s _ τ hstate (.inr hh) hbit] at he
      cases he
      exact .inr (.inl ⟨rfl, rfl, no_start_of_bit 0x0038 (by decide)⟩)
    | false =>
      rw [startBitOpensAPacket s _ τ hstate hbit false (.inr ⟨rfl, hh⟩)] at he
      cases he
      exact .inr (.inr ⟨rfl, rfl, rfl, by simp [nextDirection, hh]⟩)

/-- The receiver left synchronisation a moment ago: another bit neither starts a packet nor changes the polarity. -/
def FarFromStart (r : Receiver) : Prop :=
  (r.state = .waitPreamble ∧ r.preambleBitCount = 1) ∨
  (r.state = .waitData ∧ r.bitCount = 0 ∧ r.preambleBitCount = 0)

theorem bit_far_from_start {s s' : State} {d b : Bool} {τ : Nat} (h : FarFromStart s.rx) (hbit : s.CarriesBit d τ b)
    (he : exec (edgeInstr d τ) s = .next s') :
    s'.rx.state ≠ .waitStartBit ∧ s'.rx.edgePolarity = s.rx.edgePolarity ∧ ¬ s'.emitted .start := by
  obtain ⟨hstate, hones⟩ | ⟨hstate, hcount, hones⟩ := h
  · obtain ⟨hzero, hone⟩ := preambleBitsAreCounted s d τ b hstate hbit
    cases b with
    | false =>
      rw [hzero rfl] at he
      cases he
      exact ⟨by simp [hstate], rfl, no_start_of_bit 0x0008 (by decide)⟩
    | true =>
      rw [hone rfl (by simp [hones])] at he
      cases he
      exact ⟨by simp [hstate], rfl, no_start_of_bit 0x0018 (by decide)⟩
  · obtain ⟨hmid, -, -⟩ := dataBitIsShiftedIn s d τ b hstate hbit (by simp [hones])
    rw [hmid (by simp [hcount])] at he
    cases he
    refine ⟨by simp [hstate], rfl, no_start_of_bit (if b then 0x0018 else 0x0008) ?_⟩
    cases b <;> decide

/-- Outside WAIT_START_BIT a bit arrives on an edge of the canonical direction only. -/
theorem accepts_of_carriesBit {s : State} {d b : Bool} {τ : Nat} (h : s.CarriesBit d τ b)
    (hstate : s.rx.state ≠ .waitStartBit) : s.rx.edgePolarity = d := by
  obtain ⟨-, -, haccepts, -⟩ := h
  exact haccepts.resolve_left hstate

/-- On an alternating line every second edge is then filtered, so the line starts no packet any more. -/
theorem alternatingFed_far_from_start {d : Bool} {bits : List Bool} {s t : State} (h : FarFromStart s.rx)
    (hfed : AlternatingFed d bits s t) (hne : bits ≠ []) : ¬ t.emitted .start := by
  obtain _ | ⟨b, _ | ⟨b', bits⟩⟩ := bits
  · exact absurd rfl hne
  · obtain ⟨τ, s', hbit, he, rfl⟩ := hfed
    obtain ⟨-, -, hno⟩ := bit_far_from_start h hbit he
    exact hno
  · obtain ⟨τ, s', hbit, he, τ', s'', hbit', -, -⟩ := hfed
    obtain ⟨hsync, hpol, -⟩ := bit_far_from_start h hbit he
    have hsync' : s.rx.state ≠ .waitStartBit := by
      obtain ⟨hstate, -⟩ | ⟨hstate, -⟩ := h <;> simp [hstate]
    have haccepts : s.rx.edgePolarity = d := accepts_of_carriesBit hbit hsync'
    have haccepts' : s'.rx.edgePolarity = !d := accepts_of_carriesBit hbit' hsync
    rw [hpol, haccepts] at haccepts'
    simp at haccepts'

/-- From every substate: if the last edge accepts the start bit, the polarity is that edge's direction. -/
theorem polarity_of_start {bits : List Bool} {s t : State} (hstate : s.rx.state = .waitStartBit)
    (hfed : AlternatingFed (nextDirection s.rx) bits s t) (hne : bits ≠ []) (hstart : t.emitted .start) :
    t.rx.edgePolarity = (nextDirection s.rx ^^ (bits.length % 2 == 0)) := by
  induction bits generalizing s with
  | nil => exact absurd rfl hne
  | cons b bits ih =>
    obtain ⟨τ, s', hbit, he, hrest⟩ := hfed
    obtain ⟨hstate', hdir, hno⟩ | ⟨hstate', hones, hno⟩ | ⟨hstate', hcount, hones, hpol⟩ :=
      halfBit_on_alternating_line hstate hbit he
    · by_cases hlast : bits = []
      · subst hlast
        cases hrest
        exact absurd hstart hno
      · rw [← hdir] at hrest
        rw [ih hstate' hrest hlast, hdir]
        obtain hmod | hmod := Nat.mod_two_eq_zero_or_one bits.length <;> simp [Nat.add_mod, hmod]
    · by_cases hlast : bits = []
      · subst hlast
        cases hrest
        exact absurd hstart hno
      · exact absurd hstart (alternatingFed_far_from_start (.inl ⟨hstate', hones⟩) hrest hlast)
    · by_cases hlast : bits = []
      · subst hlast
        cases hrest
        simp [hpol]
      · exact absurd hstart (alternatingFed_far_from_start (.inr ⟨hstate', hcount, hones⟩) hrest hlast)

/-- Settles O26: in H0 the next direction is opposite to the polarity, and the last of `n` alternating edges has it
exactly if `n` is odd. -/
theorem polarityMatchesTheClosingEdge : Obligations.PolarityMatchesTheClosingEdge := by
  unfold Obligations.PolarityMatchesTheClosingEdge
  intro s t bits hstate hhalf hfed hne hstart
  have hdir : nextDirection s.rx = !s.rx.edgePolarity := by simp only [nextDirection, hhalf]
  rw [← hdir] at hfed
  rw [polarity_of_start hstate hfed hne hstart, hdir]
  obtain hmod | hmod := Nat.mod_two_eq_zero_or_one bits.length <;> simp [hmod]

end Sys2Proof.Machine

/-! A packet on the wire (20_memory.md R35, 42_packet_assembler.md R93, R94): eight data bits, the bit after them, and
from these the whole packet, with IDLEs, POLLs, filtered edges and glitches before any bit. -/

namespace Sys2Proof.Machine

open Sys2Proof

/-! ### Bits shifted into a byte -/

/-- Data bits shifted into `tempByte`, one after the other. -/
def shiftBits (x : Byte) (bits : List Bool) : Byte :=
  bits.foldl (fun x b => (x <<< 1) ||| (if b then 1 else 0)) x

theorem byteBits_eq (b : Byte) : byteBits b =
    [b.getLsbD 7, b.getLsbD 6, b.getLsbD 5, b.getLsbD 4, b.getLsbD 3, b.getLsbD 2, b.getLsbD 1, b.getLsbD 0] := rfl

theorem getLsbD_shiftBit (x : Byte) (b : Bool) (i : Nat) :
    ((x <<< 1) ||| (if b then 1 else 0) : Byte).getLsbD i =
      if i = 0 then b else decide (i < 8) && x.getLsbD (i - 1) := by
  cases b <;> by_cases hi : i = 0 <;> simp [hi]

/-- Eight bits most significant first are the byte, whatever stood there before. -/
theorem shiftBits_byteBits (x b : Byte) : shiftBits x (byteBits b) = b := by
  apply BitVec.eq_of_getLsbD_eq
  intro i hi
  simp only [byteBits_eq, shiftBits, List.foldl_cons, List.foldl_nil, getLsbD_shiftBit]
  interval_cases i <;> rfl

/-! ### The data bits of a byte -/

/-- Between two data bits of one byte: `bits` have arrived since the state `s`, with `polls` POLLs and `glitches`
glitches. -/
structure MidByte (bits : List Bool) (polls glitches : Nat) (s t : State) : Prop where
  cfg : t.cfg = s.cfg
  state : t.rx.state = .waitData
  bitCount : t.rx.bitCount.toNat = s.rx.bitCount.toNat + bits.length
  ones : t.rx.preambleBitCount.toNat ≤ s.rx.preambleBitCount.toNat + bits.length
  tempByte : t.rx.tempByte = shiftBits s.rx.tempByte bits
  working : t.rx.working = s.rx.working
  checksum : t.rx.checksum = s.rx.checksum
  edgePolarity : t.rx.edgePolarity = s.rx.edgePolarity
  box : t.box = s.box.polled polls
  diag : t.diag = s.diag.glitched s.cfg glitches

theorem MidByte.of_untouched {p g : Nat} {s u : State} (hstate : s.rx.state = .waitData) (h : Untouched p g s u) :
    MidByte [] p g s u := by
  obtain ⟨hcfg, hrx, hbox, hdiag, -⟩ := h
  exact ⟨hcfg, hrx ▸ hstate, by simp [hrx], by simp [hrx], by rw [hrx]; rfl, by rw [hrx], by rw [hrx], by rw [hrx],
    hbox, hdiag⟩

theorem MidByte.trans {xs ys : List Bool} {p g p' g' : Nat} {s u t : State} (h : MidByte xs p g s u)
    (h' : MidByte ys p' g' u t) : MidByte (xs ++ ys) (p + p') (g + g') s t where
  cfg := h'.cfg.trans h.cfg
  state := h'.state
  bitCount := by rw [h'.bitCount, h.bitCount, List.length_append, Nat.add_assoc]
  ones := by
    have h₁ := h.ones
    have h₂ := h'.ones
    rw [List.length_append]
    omega
  tempByte := by rw [h'.tempByte, h.tempByte, shiftBits, shiftBits, shiftBits, List.foldl_append]
  working := h'.working.trans h.working
  checksum := h'.checksum.trans h.checksum
  edgePolarity := h'.edgePolarity.trans h.edgePolarity
  box := by rw [h'.box, h.box, Mailbox.polled_polled]
  diag := by rw [h'.diag, h.diag, h.cfg, Diag.glitched_glitched]

theorem preambleBitCount_succ_le (n : Byte) : (n + 1).toNat ≤ n.toNat + 1 := by
  rw [BitVec.toNat_add]
  exact Nat.mod_le _ _

/-- One data bit that is not the last of its byte. -/
theorem midByte_of_bit {s t : State} {d b : Bool} {τ : Nat} (hstate : s.rx.state = .waitData)
    (hcount : s.rx.bitCount.toNat < 7) (hones : s.rx.preambleBitCount.toNat ≤ 9) (hbit : s.CarriesBit d τ b)
    (he : exec (edgeInstr d τ) s = .next t) : MidByte [b] 0 0 s t := by
  have hsucc : (s.rx.bitCount + 1).toNat = s.rx.bitCount.toNat + 1 := bitCount_succ_toNat (by omega)
  have hmid : s.rx.bitCount + 1 ≠ 8 := fun h8 => by
    rw [h8] at hsucc
    simp at hsucc
    omega
  rw [(dataBitIsShiftedIn s d τ b hstate hbit hones).1 hmid] at he
  cases he
  refine ⟨rfl, hstate, hsucc, ?_, rfl, rfl, rfl, rfl, (Mailbox.polled_zero _).symm, (Diag.glitched_zero _ _).symm⟩
  cases b with
  | false => exact Nat.zero_le _
  | true => exact preambleBitCount_succ_le _

theorem midByte_of_fed {bits : List Bool} {p g : Nat} {s t : State} (hstate : s.rx.state = .waitData)
    (hcount : s.rx.bitCount.toNat + bits.length ≤ 7)
    (hones : s.rx.preambleBitCount.toNat ≤ s.rx.bitCount.toNat) (h : BitsFed bits p g s t) :
    MidByte bits p g s t := by
  induction bits generalizing p g s with
  | nil =>
    obtain ⟨rfl, rfl, rfl⟩ := bitsFed_nil h
    exact MidByte.of_untouched hstate (Untouched.refl _)
  | cons b bits ih =>
    obtain ⟨p₁, g₁, p₂, g₂, u, d, τ, v, hu, hbit, he, hrest, rfl, rfl⟩ := bitsFed_cons h
    rw [List.length_cons] at hcount
    have hfirst := MidByte.of_untouched hstate hu
    have hone : MidByte [b] 0 0 u v := by
      refine midByte_of_bit hfirst.state ?_ ?_ hbit he <;> rw [hu.rx] <;> omega
    have hv := hfirst.trans hone
    have hlen := hv.bitCount
    have hle : v.rx.preambleBitCount.toNat ≤ v.rx.bitCount.toNat := by
      have := hv.ones
      simp at this hlen
      omega
    refine hv.trans (ih hv.state ?_ hle hrest)
    simp at hlen
    omega

/-! ### A whole byte -/

/-- A byte can begin: `k` bytes are in the working message, and no bit and no one is counted. -/
structure AtByte (k : Nat) (s : State) : Prop where
  state : s.rx.state = .waitData
  bitCount : s.rx.bitCount = 0
  ones : s.rx.preambleBitCount = 0
  size : s.rx.working.size.toNat = k

/-- The byte `b` has arrived since the state `s`, and the bit after it is expected. -/
structure ByteFed (b : Byte) (polls glitches : Nat) (s t : State) : Prop where
  cfg : t.cfg = s.cfg
  state : t.rx.state = .waitEndBit
  bitCount : t.rx.bitCount = 8
  ones : t.rx.preambleBitCount.toNat ≤ 8
  working : ∀ h : s.rx.working.size.toNat < Config.maxLen, t.rx.working =
    { s.rx.working with
      data := s.rx.working.data.set s.rx.working.size.toNat b h, size := s.rx.working.size + 1 }
  checksum : t.rx.checksum = s.rx.checksum ^^^ b
  edgePolarity : t.rx.edgePolarity = s.rx.edgePolarity
  box : t.box = s.box.polled polls
  diag : t.diag = s.diag.glitched s.cfg glitches

theorem ByteFed.untouched {b : Byte} {p g p' g' : Nat} {s t u : State} (h : ByteFed b p g s t)
    (h' : Untouched p' g' t u) : ByteFed b (p + p') (g + g') s u := by
  obtain ⟨hcfg, hrx, hbox, hdiag, -⟩ := h'
  constructor
  · exact hcfg.trans h.cfg
  · rw [hrx]; exact h.state
  · rw [hrx]; exact h.bitCount
  · rw [hrx]; exact h.ones
  · rw [hrx]; exact h.working
  · rw [hrx]; exact h.checksum
  · rw [hrx]; exact h.edgePolarity
  · rw [hbox, h.box, Mailbox.polled_polled]
  · rw [hdiag, h.diag, h.cfg, Diag.glitched_glitched]

theorem isIn_byte_lastBit (b : Bool) : Event.isIn .byte (if b then 0x0118 else 0x0108) = true := by
  cases b <;> decide

/-- The last bit of a byte that has a place. -/
theorem byteFed_of_last_bit {xs : List Bool} {x : Byte} {p g k : Nat} {s u t : State} {d b : Bool} {τ : Nat}
    (hs : AtByte k s) (hk : k < Config.maxLen) (h : MidByte xs p g s u) (hlen : xs.length = 7)
    (hx : shiftBits s.rx.tempByte (xs ++ [b]) = x) (hbit : u.CarriesBit d τ b)
    (he : exec (edgeInstr d τ) u = .next t) : ByteFed x p g s t ∧ t.emitted .byte := by
  have hroom : u.rx.working.size.toNat < Config.maxLen := by rwa [h.working, hs.size]
  have hcount : u.rx.bitCount = 7 := by
    apply BitVec.eq_of_toNat_eq
    rw [h.bitCount, hs.bitCount, hlen]
    rfl
  have hones : u.rx.preambleBitCount.toNat ≤ 7 := by
    have := h.ones
    rwa [hs.ones, hlen] at this
  have htemp : (u.rx.tempByte <<< 1) ||| (if b then 1 else 0) = x := by
    rw [← hx, h.tempByte, shiftBits, shiftBits, List.foldl_append]
    rfl
  obtain ⟨-, hlast, -⟩ := dataBitIsShiftedIn u d τ b h.state hbit (by omega)
  rw [hlast (by rw [hcount]; rfl) hroom] at he
  cases he
  refine ⟨⟨h.cfg, rfl, by simp [hcount], ?_, fun hroom' => ?_, ?_, h.edgePolarity, h.box, h.diag⟩, ?_⟩
  · cases b with
    | false => exact Nat.zero_le _
    | true => exact (preambleBitCount_succ_le _).trans (Nat.succ_le_succ hones)
  · simp only [htemp, h.working]
  · simp only [htemp, h.checksum]
  · exact isIn_byte_lastBit b

theorem byteFed_of_fed {b : Byte} {p g k : Nat} {s t : State} (hs : AtByte k s) (hk : k < Config.maxLen)
    (h : BitsFed (byteBits b) p g s t) : ByteFed b p g s t ∧ t.emitted .byte := by
  have hsplit : byteBits b = [b.getLsbD 7, b.getLsbD 6, b.getLsbD 5, b.getLsbD 4, b.getLsbD 3, b.getLsbD 2,
      b.getLsbD 1] ++ [b.getLsbD 0] := rfl
  have hbyte := shiftBits_byteBits s.rx.tempByte b
  rw [hsplit] at h hbyte
  obtain ⟨p₁, g₁, p₂, g₂, u, hseven, hlast, rfl, rfl⟩ := bitsFed_append h
  obtain ⟨p₃, g₃, p₄, g₄, v, d, τ, t', hv, hbit, he, hnil, rfl, rfl⟩ := bitsFed_cons hlast
  obtain ⟨rfl, rfl, rfl⟩ := bitsFed_nil hnil
  have hcount : s.rx.bitCount.toNat + 7 ≤ 7 := by rw [hs.bitCount]; decide
  have hones : s.rx.preambleBitCount.toNat ≤ s.rx.bitCount.toNat := by rw [hs.ones]; exact Nat.zero_le _
  have hmid := midByte_of_fed hs.state (by exact hcount) hones hseven
  have hmid' : MidByte _ (p₁ + p₃) (g₁ + g₃) s v := hmid.trans (MidByte.of_untouched hmid.state hv)
  exact byteFed_of_last_bit hs hk hmid' rfl hbyte hbit he

/-- Settles O29: seven bits in the middle of the byte and its last one. -/
theorem eightBitsMakeAByteMsbFirst : Obligations.EightBitsMakeAByteMsbFirst := by
  unfold Obligations.EightBitsMakeAByteMsbFirst
  intro s t b hroom p g hstate hcount hones h
  obtain ⟨hfed, hbyte⟩ := byteFed_of_fed (b := b) ⟨hstate, hcount, hones, rfl⟩ hroom h
  exact ⟨hfed.state, hfed.bitCount, hfed.working hroom, hfed.checksum, hbyte, hfed.box, hfed.diag⟩

/-! ### The bit after a byte -/

/-- A byte and the edge of the bit after it. -/
theorem byteFed_then_bit {b : Byte} {x : Bool} {rest : List Bool} {p g k : Nat} {s t : State} (hs : AtByte k s)
    (hk : k < Config.maxLen) (h : BitsFed (byteBits b ++ x :: rest) p g s t) :
    ∃ p₁ g₁ p₂ g₂ u d τ v, ByteFed b p₁ g₁ s u ∧ u.CarriesBit d τ x ∧ exec (edgeInstr d τ) u = .next v ∧
      BitsFed rest p₂ g₂ v t ∧ p = p₁ + p₂ ∧ g = g₁ + g₂ := by
  obtain ⟨p₁, g₁, p₂, g₂, w, hbyte, hrest, rfl, rfl⟩ := bitsFed_append h
  obtain ⟨p₃, g₃, p₄, g₄, u, d, τ, v, hu, hbit, he, hrest', rfl, rfl⟩ := bitsFed_cons hrest
  exact ⟨p₁ + p₃, g₁ + g₃, p₄, g₄, u, d, τ, v, (byteFed_of_fed hs hk hbyte).1.untouched hu, hbit, he, hrest', by omega,
    by omega⟩

/-- The byte `b` and its end bit 0 have arrived, with room for another byte. -/
structure ByteContinued (b : Byte) (k polls glitches : Nat) (s t : State) : Prop where
  cfg : t.cfg = s.cfg
  next : AtByte (k + 1) t
  working : ∀ h : s.rx.working.size.toNat < Config.maxLen, t.rx.working =
    { s.rx.working with
      data := s.rx.working.data.set s.rx.working.size.toNat b h, size := s.rx.working.size + 1 }
  checksum : t.rx.checksum = s.rx.checksum ^^^ b
  edgePolarity : t.rx.edgePolarity = s.rx.edgePolarity
  box : t.box = s.box.polled polls
  diag : t.diag = s.diag.glitched s.cfg glitches

theorem ByteFed.size {b : Byte} {p g k : Nat} {s u : State} (h : ByteFed b p g s u) (hs : AtByte k s)
    (hk : k < Config.maxLen) : u.rx.working.size.toNat = k + 1 := by
  have hroom : s.rx.working.size.toNat < Config.maxLen := hs.size.trans_lt hk
  rw [h.working hroom]
  exact (size_succ_toNat hroom).trans (by rw [hs.size])

theorem byteContinued_of_fed {b : Byte} {rest : List Bool} {p g k : Nat} {s t : State} (hs : AtByte k s)
    (hk : k + 1 < Config.maxLen) (h : BitsFed (byteBits b ++ false :: rest) p g s t) :
    ∃ p₁ g₁ p₂ g₂ v, ByteContinued b k p₁ g₁ s v ∧ BitsFed rest p₂ g₂ v t ∧ p = p₁ + p₂ ∧ g = g₁ + g₂ := by
  have hk' : k < Config.maxLen := Nat.lt_of_succ_lt hk
  obtain ⟨p₁, g₁, p₂, g₂, u, d, τ, v, hu, hbit, he, hrest, hp, hg⟩ := byteFed_then_bit hs hk' h
  have hsize := hu.size hs hk'
  have hne : u.rx.working.size.toNat ≠ Config.maxLen := by rw [hsize]; exact hk.ne
  obtain ⟨-, -, -, hcontinue⟩ :=
    endBitEndsOrContinuesThePacket u d τ false hu.state hbit (hu.ones.trans (by decide))
  rw [hcontinue rfl hne] at he
  cases he
  refine ⟨p₁, g₁, p₂, g₂, _, ?_, hrest, hp, hg⟩
  exact ⟨hu.cfg, ⟨rfl, rfl, rfl, hsize⟩, hu.working, hu.checksum, hu.edgePolarity, hu.box, hu.diag⟩

/-! ### Oversized packets -/

/-- A zero after the last byte that has a place drops the packet. -/
theorem oversized_of_last_byte {b : Byte} {p g k : Nat} {s t : State} (hs : AtByte k s) (hk : k + 1 = Config.maxLen)
    (h : BitsFed (byteBits b ++ [false]) p g s t) :
    t.rx.state = .waitPreamble ∧ t.rx.bitCount = 0 ∧ t.emitted .overflow ∧ t.box = s.box.polled p ∧
      t.diag = { s.diag.glitched s.cfg g with overflowCnt := countUp s.cfg s.diag.overflowCnt } := by
  have hk' : k < Config.maxLen := by omega
  obtain ⟨p₁, g₁, p₂, g₂, u, d, τ, v, hu, hbit, he, hnil, rfl, rfl⟩ := byteFed_then_bit hs hk' h
  obtain ⟨rfl, rfl, rfl⟩ := bitsFed_nil hnil
  have hfull : u.rx.working.size.toNat = Config.maxLen := (hu.size hs hk').trans hk
  obtain ⟨-, -, hdrop, -⟩ :=
    endBitEndsOrContinuesThePacket u d τ false hu.state hbit (hu.ones.trans (by decide))
  rw [hdrop rfl hfull] at he
  cases he
  refine ⟨rfl, rfl, (by decide : Event.isIn .overflow 0x0208#16 = true), hu.box, ?_⟩
  simp only [hu.diag, hu.cfg, Diag.glitched_overflowCnt]
  rfl

theorem oversized_of_fed {bytes : List Byte} {p g k : Nat} {s t : State} (hs : AtByte k s) (hne : bytes ≠ [])
    (hlen : k + bytes.length = Config.maxLen)
    (h : BitsFed (bytes.flatMap fun b => byteBits b ++ [false]) p g s t) :
    t.rx.state = .waitPreamble ∧ t.rx.bitCount = 0 ∧ t.emitted .overflow ∧ t.box = s.box.polled p ∧
      t.diag = { s.diag.glitched s.cfg g with overflowCnt := countUp s.cfg s.diag.overflowCnt } := by
  induction bytes generalizing p g k s with
  | nil => exact absurd rfl hne
  | cons b bytes ih =>
    rw [List.length_cons] at hlen
    cases bytes with
    | nil =>
      rw [List.flatMap_cons, List.flatMap_nil, List.append_nil] at h
      exact oversized_of_last_byte hs hlen h
    | cons c rest =>
      rw [List.flatMap_cons, List.append_assoc] at h
      rw [List.length_cons] at hlen
      obtain ⟨p₁, g₁, p₂, g₂, v, hv, hrest, rfl, rfl⟩ := byteContinued_of_fed hs (by omega) h
      obtain ⟨hstate, hcount, hover, hbox, hdiag⟩ := ih hv.next (by simp) (by simp; omega) hrest
      refine ⟨hstate, hcount, hover, ?_, ?_⟩
      · rw [hbox, hv.box, Mailbox.polled_polled]
      · rw [hdiag, hv.diag, hv.cfg, Diag.glitched_glitched, Diag.glitched_overflowCnt]

/-- Settles O32: five bytes continue the packet and the sixth finds no room after it. -/
theorem oversizedPacketIsDropped : Obligations.OversizedPacketIsDropped := by
  unfold Obligations.OversizedPacketIsDropped
  intro s t bytes p g hlen hstate hcount hones hsize h
  have hs : AtByte 0 s := ⟨hstate, hcount, hones, by rw [hsize]; rfl⟩
  have hne : bytes ≠ [] := by rintro rfl; cases hlen
  exact oversized_of_fed hs hne (by rw [hlen, Nat.zero_add]) h

/-! ### Whole packets -/

theorem xorBytes_singleton (b : Byte) : xorBytes [b] = b := by simp [xorBytes]

theorem xorBytes_append (xs ys : List Byte) : xorBytes (xs ++ ys) = xorBytes xs ^^^ xorBytes ys := by
  have hassoc := List.foldl_assoc (op := fun x y : Byte => x ^^^ y) (l := ys) (a₁ := xorBytes xs) (a₂ := 0)
  simpa [xorBytes] using hassoc

theorem xorBytes_cons (b : Byte) (bs : List Byte) : xorBytes (b :: bs) = b ^^^ xorBytes bs := by
  rw [← List.singleton_append, xorBytes_append, xorBytes_singleton]

/-- The bytes stored up to and with the one just written. -/
theorem take_set_succ (d : Vector Byte Config.maxLen) {k : Nat} (h : k < Config.maxLen) (b : Byte) :
    (d.set k b h).toList.take (k + 1) = d.toList.take k ++ [b] := by
  rw [Vector.toList_set, List.take_succ_eq_append_getElem (by simpa using h), List.getElem_set_self,
    List.take_set_of_le le_rfl]

/-- The working message with these bytes appended has been committed. -/
structure Delivered (bytes : List Byte) (s t : State) : Prop where
  commit : t.emitted .commit
  dataReady : t.box.dataReady = true
  size : t.box.handoff.size.toNat = s.rx.working.size.toNat + bytes.length
  preambleBits : t.box.handoff.preambleBits = s.rx.working.preambleBits
  data : t.box.handoff.data.toList.take (s.rx.working.size.toNat + bytes.length) =
    s.rx.working.data.toList.take s.rx.working.size.toNat ++ bytes

/-- What a run of whole bytes up to the last end bit has done. -/
structure PacketFed (bytes : List Byte) (polls : Nat) (s t : State) : Prop where
  state : t.rx.state = .waitPreamble
  edgePolarity : t.rx.edgePolarity = s.rx.edgePolarity
  valid : s.rx.checksum ^^^ xorBytes bytes = 0 → Delivered bytes s t
  invalid : s.rx.checksum ^^^ xorBytes bytes ≠ 0 → t.emitted .csumErr ∧ t.box = s.box.polled polls

theorem isIn_commit_endBit (dataReady : Bool) : Event.isIn .commit (if dataReady then 0x1818 else 0x0818) = true := by
  cases dataReady <;> decide

/-- The last byte of a packet and its end bit 1. -/
theorem packetFed_of_last_byte {b : Byte} {p g k : Nat} {s t : State} (hs : AtByte k s) (hk : k < Config.maxLen)
    (h : BitsFed (byteBits b ++ [true]) p g s t) : PacketFed [b] p s t := by
  obtain ⟨p₁, g₁, p₂, g₂, u, d, τ, v, hu, hbit, he, hnil, rfl, rfl⟩ := byteFed_then_bit hs hk h
  obtain ⟨rfl, rfl, rfl⟩ := bitsFed_nil hnil
  have hroom : s.rx.working.size.toNat < Config.maxLen := hs.size.trans_lt hk
  have hsum : u.rx.checksum = s.rx.checksum ^^^ xorBytes [b] := by
    rw [hu.checksum, xorBytes_singleton]
  obtain ⟨hcommit, hreject, -, -⟩ :=
    endBitEndsOrContinuesThePacket u d τ true hu.state hbit (hu.ones.trans (by decide))
  by_cases hzero : s.rx.checksum ^^^ xorBytes [b] = 0
  · rw [hcommit rfl (hsum.trans hzero)] at he
    cases he
    refine ⟨rfl, hu.edgePolarity, fun _ => ⟨?_, rfl, ?_, ?_, ?_⟩, fun h => absurd hzero h⟩
    · exact isIn_commit_endBit u.box.dataReady
    · exact (hu.size hs hk).trans (by rw [hs.size]; rfl)
    · simp only [hu.working hroom]
    · simp only [hu.working hroom]
      exact take_set_succ _ hroom b
  · rw [hreject rfl (by rwa [hsum])] at he
    cases he
    exact ⟨rfl, hu.edgePolarity, fun h => absurd h hzero,
      fun _ => ⟨(by decide : Event.isIn .csumErr 0x0418#16 = true), hu.box⟩⟩

/-- A byte with end bit 0, and the packet that its state goes on with. -/
theorem packetFed_cons {b : Byte} {bytes : List Byte} {k p₁ g₁ p₂ : Nat} {s v t : State} (hs : AtByte k s)
    (hk : k < Config.maxLen) (hv : ByteContinued b k p₁ g₁ s v) (h : PacketFed bytes p₂ v t) :
    PacketFed (b :: bytes) (p₁ + p₂) s t := by
  have hroom : s.rx.working.size.toNat < Config.maxLen := hs.size.trans_lt hk
  have hsize : v.rx.working.size.toNat = s.rx.working.size.toNat + 1 := by rw [hv.next.size, hs.size]
  have hlen : v.rx.working.size.toNat + bytes.length = s.rx.working.size.toNat + (b :: bytes).length := by
    rw [hsize, List.length_cons]; omega
  have hsum : v.rx.checksum ^^^ xorBytes bytes = s.rx.checksum ^^^ xorBytes (b :: bytes) := by
    rw [hv.checksum, xorBytes_cons, BitVec.xor_assoc]
  obtain ⟨hstate, hpol, hvalid, hinvalid⟩ := h
  refine ⟨hstate, hpol.trans hv.edgePolarity, fun hzero => ?_, fun hne => ?_⟩
  · obtain ⟨hcommit, hready, hsize', hpre, hdata⟩ := hvalid (hsum.trans hzero)
    refine ⟨hcommit, hready, hsize'.trans hlen, ?_, ?_⟩
    · rw [hpre, hv.working hroom]
    · rw [← hlen, hdata, hsize, hv.working hroom, take_set_succ, List.append_assoc]
      rfl
  · obtain ⟨herr, hbox⟩ := hinvalid (by rwa [hsum])
    exact ⟨herr, by rw [hbox, hv.box, Mailbox.polled_polled]⟩

theorem packetFed_of_fed {bytes : List Byte} {p g k : Nat} {s t : State} (hs : AtByte k s) (hne : bytes ≠ [])
    (hlen : k + bytes.length ≤ Config.maxLen) (h : BitsFed (bytesBits bytes) p g s t) : PacketFed bytes p s t := by
  induction bytes generalizing p g k s with
  | nil => exact absurd rfl hne
  | cons b bytes ih =>
    rw [List.length_cons] at hlen
    cases bytes with
    | nil => exact packetFed_of_last_byte hs (by omega) h
    | cons c rest =>
      rw [List.length_cons] at hlen
      obtain ⟨p₁, g₁, p₂, g₂, v, hv, hrest, rfl, rfl⟩ := byteContinued_of_fed hs (by omega) h
      exact packetFed_cons hs (by omega) hv (ih hv.next (by simp) (by simp; omega) hrest)

/-- Settles O30: a packet is fed from an empty working message with checksum 0. -/
theorem packetIsDeliveredExactlyWhenItsXorIsZero : Obligations.PacketIsDeliveredExactlyWhenItsXorIsZero := by
  unfold Obligations.PacketIsDeliveredExactlyWhenItsXorIsZero
  intro s t bytes p g hpos hlen hstate hcount hones hsize hsum h
  have hs : AtByte 0 s := ⟨hstate, hcount, hones, by rw [hsize]; rfl⟩
  obtain ⟨hstate', -, hvalid, hinvalid⟩ := packetFed_of_fed hs (List.ne_nil_of_length_pos hpos) (by omega) h
  simp only [hsum, BitVec.ofNat_eq_ofNat, BitVec.zero_xor] at hvalid hinvalid
  refine ⟨hstate', fun hzero => ?_, hinvalid⟩
  obtain ⟨hcommit, hready, hsize', hpre, hdata⟩ := hvalid hzero
  simp only [hs.size, Nat.zero_add, List.take_zero, List.nil_append] at hsize' hdata
  exact ⟨hcommit, hready, hsize', hpre, hdata⟩

end Sys2Proof.Machine

/-! The whole receiver against a packet stream (30_encoding.md R59): the preamble, the start bit through the full-bit
wait or through half-bit synchronisation, and the packet. -/

namespace Sys2Proof.Machine

open Sys2Proof

/-! ### The preamble -/

/-- What the bits before a packet leave alone. -/
structure Kept (s t : State) : Prop where
  cfg : t.cfg = s.cfg
  checksum : t.rx.checksum = s.rx.checksum
  edgePolarity : t.rx.edgePolarity = s.rx.edgePolarity

theorem Kept.refl (s : State) : Kept s s := ⟨rfl, rfl, rfl⟩

theorem Kept.trans {s u t : State} (h : Kept s u) (h' : Kept u t) : Kept s t :=
  ⟨h'.cfg.trans h.cfg, h'.checksum.trans h.checksum, h'.edgePolarity.trans h.edgePolarity⟩

theorem Kept.of_untouched {p g : Nat} {s u : State} (h : Untouched p g s u) : Kept s u :=
  ⟨h.cfg, by rw [h.rx], by rw [h.rx]⟩

/-- `n` ones while hunting, when they do not yet complete the preamble. -/
theorem ones_while_hunting {n p g : Nat} {s t : State} (hstate : s.rx.state = .waitPreamble)
    (hle : s.rx.preambleBitCount.toNat + n ≤ 10) (h : BitsFed (List.replicate n true) p g s t) :
    Kept s t ∧ t.rx.state = .waitPreamble ∧ t.rx.preambleBitCount.toNat = s.rx.preambleBitCount.toNat + n := by
  induction n generalizing p g s with
  | zero =>
    obtain ⟨-, -, rfl⟩ := bitsFed_nil h
    exact ⟨Kept.refl _, hstate, rfl⟩
  | succ n ih =>
    rw [List.replicate_succ] at h
    obtain ⟨p₁, g₁, p₂, g₂, u, d, τ, v, hu, hbit, he, hrest, -, -⟩ := bitsFed_cons h
    rw [(preambleBitsAreCounted u d τ true (hu.rx ▸ hstate) hbit).2 rfl (by rw [hu.rx]; omega)] at he
    have hsucc : (u.rx.preambleBitCount + 1).toNat = s.rx.preambleBitCount.toNat + 1 := by
      rw [hu.rx, ← satSucc_of_lt (by omega), satSucc_toNat]
      omega
    cases he
    obtain ⟨hkept, hstate', hones⟩ := ih (hu.rx ▸ hstate) (by simp only [hsucc]; omega) hrest
    refine ⟨(Kept.of_untouched hu).trans ⟨hkept.cfg, hkept.checksum, hkept.edgePolarity⟩, hstate', ?_⟩
    rw [hones]
    simp only [hsucc]
    omega

/-- After ten ones a further one completes the preamble. -/
theorem preamble_completed {n p g : Nat} {bs : List Bool} {s t : State} (hstate : s.rx.state = .waitPreamble)
    (hones : s.rx.preambleBitCount = 0) (h : BitsFed (List.replicate (11 + n) true ++ bs) p g s t) :
    ∃ u v d τ p' g', Kept s u ∧ u.rx.state = .waitPreamble ∧ u.rx.preambleBitCount.toNat = 10 ∧
      u.CarriesBit d τ true ∧ exec (edgeInstr d τ) u = .next v ∧ BitsFed (List.replicate n true ++ bs) p' g' v t := by
  have hsplit : List.replicate (11 + n) true ++ bs =
      List.replicate 10 true ++ true :: (List.replicate n true ++ bs) := by
    rw [show 11 + n = 10 + (n + 1) by omega, List.replicate_add, List.replicate_succ (n := n), List.append_assoc,
      List.cons_append]
  rw [hsplit] at h
  obtain ⟨p₁, g₁, p₂, g₂, w, hten, hrest, -, -⟩ := bitsFed_append h
  obtain ⟨p₃, g₃, p₄, g₄, u, d, τ, v, hu, hbit, he, hrest', -, -⟩ := bitsFed_cons hrest
  obtain ⟨hkept, hstate', hones'⟩ := ones_while_hunting hstate (by rw [hones]; decide) hten
  refine ⟨u, v, d, τ, p₄, g₄, hkept.trans (Kept.of_untouched hu), hu.rx ▸ hstate', ?_, hbit, he, hrest'⟩
  rw [hu.rx, hones', hones]
  rfl

/-! ### The full-bit wait -/

/-- Further ones in the full-bit wait are counted up to 255. -/
theorem ones_in_full_wait {n p g : Nat} {s t : State} (hstate : s.rx.state = .waitStartBitFull)
    (hones : 10 ≤ s.rx.preambleBitCount.toNat) (hno : s.cfg.syncAlways = false) (hsum : s.rx.checksum = 0)
    (h : BitsFed (List.replicate n true) p g s t) :
    Kept s t ∧ t.rx.state = .waitStartBitFull ∧
      t.rx.preambleBitCount.toNat = min (s.rx.preambleBitCount.toNat + n) 255 := by
  induction n generalizing p g s with
  | zero =>
    obtain ⟨-, -, rfl⟩ := bitsFed_nil h
    exact ⟨Kept.refl _, hstate, by omega⟩
  | succ n ih =>
    rw [List.replicate_succ] at h
    obtain ⟨p₁, g₁, p₂, g₂, u, d, τ, v, hu, hbit, he, hrest, -, -⟩ := bitsFed_cons h
    rw [(fullBitWaitForTheStartBit u d τ true (hu.rx ▸ hstate) hbit).2 rfl (by rwa [hu.rx]) (by rwa [hu.cfg])
      (by rwa [hu.rx])] at he
    have hsucc : (BitVec.ofNat 8 (min (u.rx.preambleBitCount.toNat + 1) 255)).toNat =
        min (s.rx.preambleBitCount.toNat + 1) 255 := by rw [hu.rx]; exact satSucc_toNat _
    cases he
    obtain ⟨hkept, hstate', hones'⟩ := ih (hu.rx ▸ hstate) (by simp only [hsucc]; omega) (by exact hu.cfg ▸ hno)
      (by exact hu.rx ▸ hsum) hrest
    refine ⟨(Kept.of_untouched hu).trans ⟨hkept.cfg, hkept.checksum, hkept.edgePolarity⟩, hstate', ?_⟩
    rw [hones']
    simp only [hsucc]
    omega

/-- A start bit has been accepted: a packet of no byte yet, with the preamble's count kept. -/
structure PacketOpened (s : State) (ones : Nat) (polarity : Bool) : Prop where
  atByte : AtByte 0 s
  checksum : s.rx.checksum = 0
  preambleBits : s.rx.working.preambleBits.toNat = ones
  edgePolarity : s.rx.edgePolarity = polarity

/-- Preamble and start bit through the full-bit wait. -/
theorem packetOpened_by_full_wait {n p g : Nat} {bs : List Bool} {s t : State} (hstate : s.rx.state = .waitPreamble)
    (hones : s.rx.preambleBitCount = 0) (hno : s.cfg.syncAlways = false) (hsum : s.rx.checksum = 0)
    (h : BitsFed (List.replicate (11 + n) true ++ false :: bs) p g s t) :
    ∃ v p' g', PacketOpened v (min (11 + n) 255) s.rx.edgePolarity ∧ BitsFed bs p' g' v t := by
  obtain ⟨u, v, d, τ, p₁, g₁, hu, hstate', hten, hbit, he, hrest⟩ := preamble_completed hstate hones h
  have hno' : u.cfg.syncAlways = false := by rwa [hu.cfg]
  have hsum' : u.rx.checksum = 0 := by rwa [hu.checksum]
  rw [(preambleEntersAStartBitState u d τ hstate' hbit hten.ge).2 hno' hsum'] at he
  have heleven : v.rx.preambleBitCount.toNat = 11 := by
    cases he
    rw [hten]
    rfl
  have hv : Kept u v := by cases he; exact ⟨rfl, rfl, rfl⟩
  have hfull : v.rx.state = .waitStartBitFull := by cases he; rfl
  obtain ⟨p₂, g₂, p₃, g₃, w, hmore, hstart, -, -⟩ := bitsFed_append hrest
  obtain ⟨hw, hfull', hcount⟩ :=
    ones_in_full_wait hfull (by omega) (by rwa [hv.cfg]) (by rwa [hv.checksum]) hmore
  obtain ⟨p₄, g₄, p₅, g₅, x, d', τ', y, hx, hbit', he', hrest', -, -⟩ := bitsFed_cons hstart
  rw [(fullBitWaitForTheStartBit x d' τ' false (hx.rx ▸ hfull') hbit').1 rfl] at he'
  cases he'
  refine ⟨_, p₅, g₅, ⟨⟨rfl, rfl, rfl, rfl⟩, rfl, ?_, ?_⟩, hrest'⟩
  · rw [← heleven, ← hcount, ← hx.rx]
  · exact (((hu.trans hv).trans hw).trans (Kept.of_untouched hx)).edgePolarity

/-! ### Half-bit synchronisation -/

/-- Between two pairs of half-bits of a synchronisation that eleven ones have entered. -/
structure InSync (s : State) (polarity : Bool) : Prop where
  state : s.rx.state = .waitStartBit
  halfBit : s.rx.halfBit = .h0
  ones : s.rx.preambleBitCount = 11
  edgePolarity : s.rx.edgePolarity = polarity

theorem inSync_of_untouched {p g : Nat} {s u : State} {polarity : Bool} (hs : InSync s polarity)
    (h : Untouched p g s u) : InSync u polarity := by
  obtain ⟨hstate, hhalf, hones, hpol⟩ := hs
  exact ⟨h.rx ▸ hstate, h.rx ▸ hhalf, h.rx ▸ hones, h.rx ▸ hpol⟩

theorem inSync_of_eleven_ones {p g : Nat} {s t : State} (hstate : s.rx.state = .waitPreamble)
    (hones : s.rx.preambleBitCount = 0) (hwhy : s.cfg.syncAlways = true ∨ s.rx.checksum ≠ 0)
    (h : BitsFed (List.replicate 11 true) p g s t) : InSync t s.rx.edgePolarity := by
  have h' : BitsFed (List.replicate (11 + 0) true ++ []) p g s t := by rwa [List.append_nil]
  obtain ⟨u, v, d, τ, p₁, g₁, hu, hstate', hten, hbit, he, hrest⟩ := preamble_completed hstate hones h'
  obtain ⟨-, -, rfl⟩ := bitsFed_nil hrest
  rw [(preambleEntersAStartBitState u d τ hstate' hbit hten.ge).1 (by rwa [hu.cfg, hu.checksum])] at he
  cases he
  exact ⟨rfl, rfl, by simp only [hten]; rfl, hu.edgePolarity⟩

/-- A pair of one half-bits within `MAX_BITDIFF` leads back between two pairs. -/
theorem inSync_of_pair {p g p' g' : Nat} {s u v : State} {polarity : Bool} (hs : InSync s polarity)
    (h : BitsFed [true] p g s u) (h' : BitsFed [true] p' g' u v)
    (hdiff : ((v.rx.bit2 : Int) - (v.rx.bit1 : Int)).natAbs ≤ s.cfg.maxBitDiff) : InSync v polarity := by
  obtain ⟨p₁, g₁, p₂, g₂, w, d, τ, w', hw, hbit, he, hnil, -, -⟩ := bitsFed_cons h
  obtain ⟨-, -, rfl⟩ := bitsFed_nil hnil
  obtain ⟨p₃, g₃, p₄, g₄, x, d', τ', x', hx, hbit', he', hnil', -, -⟩ := bitsFed_cons h'
  obtain ⟨-, -, rfl⟩ := bitsFed_nil hnil'
  have hsync := inSync_of_untouched hs hw
  rw [(firstHalfBitOfAPair w d τ true hsync.state hsync.halfBit hbit).1 rfl] at he
  have hhalf : x.rx.halfBit = .h1 := by rw [hx.rx]; cases he; rfl
  have hstate : x.rx.state = .waitStartBit := by rw [hx.rx]; cases he; exact hsync.state
  have hones : x.rx.preambleBitCount = 11 := by rw [hx.rx]; cases he; exact hsync.ones
  have hpol : x.rx.edgePolarity = polarity := by rw [hx.rx]; cases he; exact hsync.edgePolarity
  have hcfg : x.cfg = s.cfg := by rw [hx.cfg]; cases he; exact hw.cfg
  obtain ⟨hpair, hfail, -⟩ := secondHalfBitAfterAOne x d' τ' true hstate hhalf hbit'
  by_cases hle : ((x.elapsedAt τ' : Int) - (x.rx.bit1 : Int)).natAbs ≤ x.cfg.maxBitDiff
  · rw [hpair rfl hle] at he'
    cases he'
    exact ⟨hstate, rfl, hones, hpol⟩
  · rw [hfail rfl (Nat.lt_of_not_le hle)] at he'
    cases he'
    exact absurd hdiff (hcfg ▸ hle)

theorem inSync_of_pairs {k : Nat} {s t : State} {polarity : Bool} (hs : InSync s polarity) (h : PairsFed k s t) :
    InSync t polarity := by
  induction k generalizing s with
  | zero => cases h; exact hs
  | succ k ih =>
    obtain ⟨p, g, u, p', g', v, hfirst, hsecond, hdiff, hrest⟩ := h
    exact ih (inSync_of_pair hs hfirst hsecond hdiff) hrest

/-- The start bit in phase: two zero half-bits. -/
theorem packetOpened_in_phase {bs : List Bool} {p g : Nat} {s t : State} {polarity : Bool} (hs : InSync s polarity)
    (h : BitsFed (false :: false :: bs) p g s t) :
    ∃ v p' g', PacketOpened v 11 polarity ∧ BitsFed bs p' g' v t := by
  obtain ⟨p₁, g₁, p₂, g₂, u, d, τ, u', hu, hbit, he, hrest, -, -⟩ := bitsFed_cons h
  obtain ⟨p₃, g₃, p₄, g₄, w, d', τ', w', hw, hbit', he', hrest', -, -⟩ := bitsFed_cons hrest
  have hsync := inSync_of_untouched hs hu
  rw [(firstHalfBitOfAPair u d τ false hsync.state hsync.halfBit hbit).2 rfl] at he
  cases he
  have hhalf : w.rx.halfBit = .h4 := by rw [hw.rx]
  have hstate : w.rx.state = .waitStartBit := by rw [hw.rx]; exact hsync.state
  rw [startBitOpensAPacket w d' τ' hstate hbit' false (.inr ⟨rfl, hhalf⟩)] at he'
  cases he'
  refine ⟨_, p₄, g₄, ⟨⟨rfl, rfl, rfl, rfl⟩, rfl, ?_, ?_⟩, hrest'⟩
  · simp only [hw.rx, hsync.ones]
    rfl
  · simp only [hw.rx]
    exact hsync.edgePolarity

/-- The start bit out of phase: a one half-bit before its two zero half-bits toggles the polarity. -/
theorem packetOpened_out_of_phase {bs : List Bool} {p g : Nat} {s t : State} {polarity : Bool}
    (hs : InSync s polarity) (h : BitsFed (true :: false :: false :: bs) p g s t) :
    ∃ v p' g', PacketOpened v 11 (!polarity) ∧ BitsFed bs p' g' v t := by
  obtain ⟨p₁, g₁, p₂, g₂, u, d, τ, u', hu, hbit, he, hrest, -, -⟩ := bitsFed_cons h
  obtain ⟨p₃, g₃, p₄, g₄, w, d', τ', w', hw, hbit', he', hrest', -, -⟩ := bitsFed_cons hrest
  obtain ⟨p₅, g₅, p₆, g₆, x, d'', τ'', x', hx, hbit'', he'', hrest'', -, -⟩ := bitsFed_cons hrest'
  have hsync := inSync_of_untouched hs hu
  rw [(firstHalfBitOfAPair u d τ true hsync.state hsync.halfBit hbit).1 rfl] at he
  cases he
  have hhalf : w.rx.halfBit = .h1 := by rw [hw.rx]
  have hstate : w.rx.state = .waitStartBit := by rw [hw.rx]; exact hsync.state
  obtain ⟨-, -, hzero⟩ := secondHalfBitAfterAOne w d' τ' false hstate hhalf hbit'
  rw [hzero rfl] at he'
  cases he'
  have hhalf' : x.rx.halfBit = .h3 := by rw [hx.rx]
  have hstate' : x.rx.state = .waitStartBit := by rw [hx.rx]; exact hstate
  rw [startBitOpensAPacket x d'' τ'' hstate' hbit'' true (.inl ⟨rfl, hhalf'⟩)] at he''
  cases he''
  refine ⟨_, p₆, g₆, ⟨⟨rfl, rfl, rfl, rfl⟩, rfl, ?_, ?_⟩, hrest''⟩
  · simp only [hx.rx, hw.rx, hsync.ones]
    rfl
  · simp only [hx.rx, hw.rx, if_true]
    exact congrArg (!·) hsync.edgePolarity

/-! ### The stream -/

/-- A legal packet after its start bit is delivered. -/
theorem delivered_after_start {bytes : List Byte} {ones p g : Nat} {polarity : Bool} {s t : State}
    (hs : PacketOpened s ones polarity) (hpos : 1 ≤ bytes.length) (hlen : bytes.length ≤ Config.maxLen)
    (hxor : xorBytes bytes = 0) (h : BitsFed (bytesBits bytes) p g s t) :
    t.rx.state = .waitPreamble ∧ t.emitted .commit ∧ t.box.dataReady = true ∧
      t.box.handoff.size.toNat = bytes.length ∧ t.box.handoff.data.toList.take bytes.length = bytes ∧
      t.box.handoff.preambleBits.toNat = ones ∧ t.rx.edgePolarity = polarity := by
  obtain ⟨hstate, hpol, hvalid, -⟩ :=
    packetFed_of_fed hs.atByte (List.ne_nil_of_length_pos hpos) (by omega) h
  obtain ⟨hcommit, hready, hsize, hpre, hdata⟩ := hvalid (by rw [hs.checksum, hxor]; rfl)
  simp only [hs.atByte.size, Nat.zero_add, List.take_zero, List.nil_append] at hsize hdata
  exact ⟨hstate, hcommit, hready, hsize, hdata, by rw [hpre, hs.preambleBits], hpol.trans hs.edgePolarity⟩

/-- Settles O31: both paths open the packet, which is then delivered. -/
theorem packetStreamRoundTrip : Obligations.PacketStreamRoundTrip := by
  unfold Obligations.PacketStreamRoundTrip
  intro s t bytes hpos hlen hxor hstate hones
  refine ⟨fun n p g hno hsum hn h => ?_, fun u v k p g p' g' outOfPhase hwhy hpreamble hpairs h => ?_⟩
  · obtain ⟨m, rfl⟩ := Nat.exists_eq_add_of_le hn
    obtain ⟨w, p', g', hw, hrest⟩ := packetOpened_by_full_wait hstate hones hno hsum h
    exact delivered_after_start hw hpos hlen hxor hrest
  · have hsync : InSync v s.rx.edgePolarity :=
      inSync_of_pairs (inSync_of_eleven_ones hstate hones hwhy hpreamble) hpairs
    obtain ⟨w, p'', g'', hw, hrest⟩ :
        ∃ w p'' g'', PacketOpened w 11 (s.rx.edgePolarity ^^ outOfPhase) ∧ BitsFed (bytesBits bytes) p'' g'' w t := by
      cases outOfPhase with
      | false => simpa using packetOpened_in_phase hsync h
      | true => simpa using packetOpened_out_of_phase hsync h
    obtain ⟨hstate', hcommit, hready, hsize, hdata, hpre, hpol⟩ := delivered_after_start hw hpos hlen hxor hrest
    exact ⟨hstate', hcommit, hready, hsize, hdata, BitVec.eq_of_toNat_eq hpre, hpol⟩

end Sys2Proof.Machine

/-! Listings (30_encoding.md R57–R60): the expansion of WAVE and PACKETC, and the printer against the assembler. -/

namespace Sys2Proof.Machine

open Sys2Proof

/-! ### PACKETC -/

theorem withChecksum_eq (bytes : List Byte) : withChecksum bytes = bytes ++ [xorBytes bytes] := rfl

/-- Settles O60: the byte appended is the XOR of the others, and the list is then not empty, as PACKET needs. -/
theorem packetCStreamsHaveXorZero : Obligations.PacketCStreamsHaveXorZero := by
  unfold Obligations.PacketCStreamsHaveXorZero
  refine ⟨fun bytes => ⟨?_, ?_, ?_⟩, fun tw r p t0 n bytes => ?_⟩
  · rw [withChecksum_eq, xorBytes_append, xorBytes_singleton]
    exact BitVec.xor_self
  · rw [withChecksum_eq, List.length_append, List.length_singleton]
  · rw [withChecksum_eq, List.take_left]
  · have hne : (withChecksum bytes).isEmpty = false := by simp [withChecksum_eq]
    simp only [assembleStmt, hne]
    rfl

/-! ### WAVE -/

/-- The time of the boundary edge of bit `k` (30_encoding.md R58). -/
def waveTime (tw h1 h0 t0 : Nat) (bits : List Bool) (k : Nat) : Nat :=
  (t0 + ((bits.take k).map fun c => 2 * (if c then h1 else h0)).sum) % 2 ^ tw

theorem waveTime_zero {tw t0 : Nat} (h : t0 < 2 ^ tw) (h1 h0 : Nat) (bits : List Bool) :
    waveTime tw h1 h0 t0 bits 0 = t0 := by
  simp [waveTime, Nat.mod_eq_of_lt h]

/-- The stream after its first bit starts where that bit ends. -/
theorem waveTime_succ (tw h1 h0 t0 : Nat) (c : Bool) (bits : List Bool) (k : Nat) :
    waveTime tw h1 h0 t0 (c :: bits) (k + 1) =
      waveTime tw h1 h0 ((t0 + 2 * (if c then h1 else h0)) % 2 ^ tw) bits k := by
  simp [waveTime, Nat.add_assoc]

theorem waveEdges_cons (tw : Nat) (p : Bool) (h1 h0 t : Nat) (c : Bool) (bits : List Bool) :
    waveEdges tw p h1 h0 t (c :: bits) =
      (edgeInstr p t :: edgeInstr (!p) ((t + (if c then h1 else h0)) % 2 ^ tw) ::
          (waveEdges tw p h1 h0 ((t + 2 * (if c then h1 else h0)) % 2 ^ tw) bits).1,
        (waveEdges tw p h1 h0 ((t + 2 * (if c then h1 else h0)) % 2 ^ tw) bits).2) := rfl

theorem waveEdges_length (tw : Nat) (p : Bool) (h1 h0 t : Nat) (bits : List Bool) :
    (waveEdges tw p h1 h0 t bits).1.length = 2 * bits.length := by
  induction bits generalizing t with
  | nil => rfl
  | cons c bits ih =>
    rw [waveEdges_cons, List.length_cons, List.length_cons, ih, List.length_cons]
    omega

theorem waveEdges_end {tw t : Nat} (h : t < 2 ^ tw) (p : Bool) (h1 h0 : Nat) (bits : List Bool) :
    (waveEdges tw p h1 h0 t bits).2 = waveTime tw h1 h0 t bits bits.length := by
  induction bits generalizing t with
  | nil => exact (waveTime_zero h h1 h0 []).symm
  | cons c bits ih =>
    rw [waveEdges_cons, List.length_cons, waveTime_succ]
    exact ih (Nat.mod_lt _ (by positivity))

theorem waveEdges_getElem? {tw t : Nat} (h : t < 2 ^ tw) (p : Bool) (h1 h0 : Nat) {bits : List Bool} {k : Nat}
    {c : Bool} (hk : bits[k]? = some c) :
    (waveEdges tw p h1 h0 t bits).1[2 * k]? = some (edgeInstr p (waveTime tw h1 h0 t bits k)) ∧
    (waveEdges tw p h1 h0 t bits).1[2 * k + 1]? =
      some (edgeInstr (!p) ((waveTime tw h1 h0 t bits k + (if c then h1 else h0)) % 2 ^ tw)) := by
  induction bits generalizing t k with
  | nil => cases hk
  | cons x bits ih =>
    rw [waveEdges_cons]
    cases k with
    | zero =>
      cases hk
      rw [waveTime_zero h]
      exact ⟨rfl, rfl⟩
    | succ k =>
      rw [waveTime_succ]
      exact ih (Nat.mod_lt _ (by positivity)) (by simpa using hk)

/-- Settles O58: the three inductions over the bits. -/
theorem waveExpandsEveryBit : Obligations.WaveExpandsEveryBit := by
  unfold Obligations.WaveExpandsEveryBit
  intro tw p h1 h0 t0 bits ht
  exact ⟨waveEdges_length .., waveEdges_end ht .., fun k c hk => waveEdges_getElem? ht p h1 h0 hk⟩

/-! ### Decimal numbers -/

theorem digitValue_digitChar {v : Nat} (h : v < 10) : digitValue 10 (digitChar v) = some v := by
  revert v
  decide

theorem digitsValue_append (base acc : Nat) (xs ys : List Char) :
    digitsValue base acc (xs ++ ys) = (digitsValue base acc xs).bind fun a => digitsValue base a ys := by
  induction xs generalizing acc with
  | nil => rfl
  | cons x xs ih =>
    rw [List.cons_append, digitsValue, digitsValue]
    cases digitValue base x with
    | none => rfl
    | some v => exact ih _

theorem digitsValue_singleton {v : Nat} (h : v < 10) (acc : Nat) :
    digitsValue 10 acc [digitChar v] = some (acc * 10 + v) := by
  simp only [digitsValue, digitValue_digitChar h]

/-- With enough digits the printed number reads back. -/
theorem digitsValue_decDigits {fuel n : Nat} (h : n < 10 ^ (fuel + 1)) :
    digitsValue 10 0 (decDigits fuel n) = some n := by
  induction fuel generalizing n with
  | zero =>
    have hn : n < 10 := h
    rw [decDigits, Nat.mod_eq_of_lt hn, digitsValue_singleton hn, Nat.zero_mul, Nat.zero_add]
  | succ fuel ih =>
    rw [decDigits]
    split
    · next hn => rw [digitsValue_singleton hn, Nat.zero_mul, Nat.zero_add]
    · have hdiv : n / 10 < 10 ^ (fuel + 1) := Nat.div_lt_of_lt_mul (by rwa [← pow_succ'])
      rw [digitsValue_append, ih hdiv, Option.bind_some, digitsValue_singleton (Nat.mod_lt _ (by decide)),
        Nat.div_add_mod']

theorem decDigits_ne_nil (fuel n : Nat) : decDigits fuel n ≠ [] := by
  cases fuel with
  | zero => simp [decDigits]
  | succ fuel => rw [decDigits]; split <;> simp

theorem decDigits_digit {fuel n : Nat} {c : Char} (h : c ∈ decDigits fuel n) : ∃ v < 10, c = digitChar v := by
  induction fuel generalizing n with
  | zero =>
    rw [decDigits, List.mem_singleton] at h
    exact ⟨n % 10, Nat.mod_lt _ (by decide), h⟩
  | succ fuel ih =>
    rw [decDigits] at h
    split at h
    · next hn => exact ⟨n, hn, List.mem_singleton.1 h⟩
    · obtain h | h := List.mem_append.1 h
      · exact ih h
      · exact ⟨n % 10, Nat.mod_lt _ (by decide), List.mem_singleton.1 h⟩

/-! ### Words of a listing line -/

/-- A character of a mnemonic or a decimal number: it neither ends a line, a label or an operand, nor is it blank. -/
def isWordChar (c : Char) : Bool := c != '\n' && c != ';' && c != ':' && c != ',' && !isBlank c

/-- A text of such characters, not empty. -/
structure IsWord (w : List Char) : Prop where
  ne_nil : w ≠ []
  chars : ∀ c ∈ w, isWordChar c = true

theorem isWord_decDigits (fuel n : Nat) : IsWord (decDigits fuel n) := by
  have hdigit : ∀ v < 10, isWordChar (digitChar v) = true := by decide
  refine ⟨decDigits_ne_nil fuel n, fun c hc => ?_⟩
  obtain ⟨v, hv, rfl⟩ := decDigits_digit hc
  exact hdigit v hv

theorem IsWord.reverse {w : List Char} (h : IsWord w) : IsWord w.reverse :=
  ⟨by simpa using h.ne_nil, fun c hc => h.chars c (List.mem_reverse.1 hc)⟩

theorem IsWord.not_blank {w : List Char} (h : IsWord w) {c : Char} (hc : c ∈ w) : isBlank c = false := by
  have := h.chars c hc
  simp [isWordChar] at this
  exact this.2

theorem IsWord.not_mem {w : List Char} (h : IsWord w) {c : Char} (hc : isWordChar c = false) : c ∉ w := fun hmem => by
  rw [h.chars c hmem] at hc
  cases hc

theorem IsWord.dropWhile_blank {w : List Char} (h : IsWord w) (rest : List Char) :
    (w ++ rest).dropWhile isBlank = w ++ rest := by
  cases w with
  | nil => exact absurd rfl h.ne_nil
  | cons c w => simp [h.not_blank (List.mem_cons_self ..)]

theorem IsWord.trimText {w : List Char} (h : IsWord w) : trimText w = w := by
  have hfront := h.dropWhile_blank []
  have hback := h.reverse.dropWhile_blank []
  rw [List.append_nil] at hfront hback
  rw [Machine.trimText, hfront, hback, List.reverse_reverse]

theorem IsWord.trimText_blank {w : List Char} (h : IsWord w) : Machine.trimText (' ' :: w) = w := h.trimText

/-- Two words and a blank between them are trimmed already. -/
theorem trimText_two_words {m w : List Char} (hm : IsWord m) (hw : IsWord w) :
    trimText (m ++ ' ' :: w) = m ++ ' ' :: w := by
  have hrev : (m ++ ' ' :: w).reverse = w.reverse ++ ' ' :: m.reverse := by simp
  rw [trimText, hm.dropWhile_blank, hrev, hw.reverse.dropWhile_blank, ← hrev, List.reverse_reverse]

theorem splitChar_of_not_mem {c : Char} {s : List Char} (h : c ∉ s) : splitChar c s = [s] := by
  induction s with
  | nil => rfl
  | cons x s ih =>
    obtain ⟨hx, hs⟩ := not_or.1 (List.mem_cons.not.1 h)
    simp only [splitChar, ih hs, if_neg (Ne.symm hx)]

theorem not_mem_two_words {m w : List Char} (hm : IsWord m) (hw : IsWord w) {c : Char} (hc : isWordChar c = false)
    (hblank : c ≠ ' ') : c ∉ m ++ ' ' :: w := by
  simp [hm.not_mem hc, hw.not_mem hc, hblank]

/-! ### A line of two words -/

theorem splitArgs_blank_word {w : List Char} (h : IsWord w) : splitArgs (' ' :: w) = [w] := by
  have hcomma : ',' ∉ ' ' :: w := by simp [h.not_mem (c := ',') rfl]
  rw [splitArgs, h.trimText_blank, if_neg h.ne_nil, splitChar_of_not_mem hcomma, List.map_singleton, h.trimText_blank]

/-- A line that is a mnemonic and one operand is that operation. -/
theorem parseStmt_two_words {m w : List Char} (hm : IsWord m) (hw : IsWord w) :
    parseStmt (m ++ ' ' :: w) = parseOperation m [w] := by
  have hnot : ∀ c ∈ m, (!isBlank c) = true := fun c hc => by simp [hm.not_blank hc]
  have htake : (m ++ ' ' :: w).takeWhile (fun c => !isBlank c) = m := by
    rw [List.takeWhile_append_of_pos hnot]
    exact List.append_nil m
  have hdrop : (m ++ ' ' :: w).dropWhile (fun c => !isBlank c) = ' ' :: w := by
    rw [List.dropWhile_append_of_pos hnot]
    rfl
  simp only [parseStmt, trimText_two_words hm hw, htake, hdrop, splitArgs_blank_word hw]

theorem parseLine_two_words {m w : List Char} (hm : IsWord m) (hw : IsWord w) {s : Stmt}
    (h : parseOperation m [w] = some s) : parseLine (m ++ ' ' :: w) = .ok (some s) := by
  have hcode : (m ++ ' ' :: w).takeWhile (· != ';') = m ++ ' ' :: w := by
    rw [List.takeWhile_eq_self_iff]
    intro c hc
    simpa using fun hcc : c = ';' => not_mem_two_words hm hw (c := ';') rfl (by decide) (hcc ▸ hc)
  have hcolon : (m ++ ' ' :: w).contains ':' = false := by
    simpa using not_mem_two_words hm hw (c := ':') rfl (by decide)
  have hne : m ++ ' ' :: w ≠ [] := by simp
  simp only [parseLine, hcode, hcolon, Bool.false_eq_true, if_false, trimText_two_words hm hw, if_neg hne,
    parseStmt_two_words hm hw, h]

theorem assembleText_two_words {m w : List Char} (hm : IsWord m) (hw : IsWord w) {s : Stmt} {tw : Nat} {i : Instr}
    (hparse : parseOperation m [w] = some s) (hasm : assemble tw none [s] = .ok [i]) :
    assembleText tw (m ++ ' ' :: w) = .ok [encode tw i] := by
  have hline : '\n' ∉ m ++ ' ' :: w := not_mem_two_words hm hw rfl (by decide)
  simp only [assembleText, splitChar_of_not_mem hline, parseLines, parseLine_two_words hm hw hparse, hasm,
    List.map_singleton]

/-! ### Printed edges -/

/-- A printed time is read as that number: it is no `$`, and its second character is no `x`. -/
theorem parseNumber_decDigits {fuel n : Nat} (h : n < 10 ^ (fuel + 1)) :
    parseNumber (decDigits fuel n) = some n := by
  have hx : 'x' ∉ decDigits fuel n := fun hmem => by
    have hno : ∀ v < 10, 'x' ≠ digitChar v := by decide
    obtain ⟨v, hv, hc⟩ := decDigits_digit hmem
    exact hno v hv hc
  rw [← digitsValue_decDigits h]
  unfold parseNumber
  split
  · next hnil => exact absurd hnil (decDigits_ne_nil fuel n)
  · next hcons => simp [hcons] at hx
  · next hcons => simp [hcons] at hx
  · rfl

theorem parseOperand_printTime {tw t : Nat} (h : t < 2 ^ tw) : parseOperand (printTime tw t) = some (.num t) := by
  have hlt : t < 10 ^ (tw + 1) :=
    h.trans ((Nat.pow_lt_pow_right (by decide) (Nat.lt_succ_self tw)).trans_le (Nat.pow_le_pow_left (by decide) _))
  have hdollar : printTime tw t ≠ ['$'] := fun heq => by
    have hno : ∀ v < 10, '$' ≠ digitChar v := by decide
    obtain ⟨v, hv, hc⟩ := decDigits_digit (fuel := tw) (n := t) (c := '$') (by
      rw [← printTime, heq]
      exact List.mem_singleton_self _)
    exact hno v hv hc
  rw [parseOperand, if_neg hdollar, printTime, parseNumber_decDigits hlt]
  rfl

theorem parseOperation_edge (rising : Bool) {w : List Char} {o : Operand} (h : parseOperand w = some o) :
    parseOperation (if rising then textEdgeR else textEdgeF) [w] = some (.edge rising o) := by
  cases rising <;>
    simp [parseOperation, textIdle, textPoll, textReset, textEdgeR, textEdgeF, h]

theorem printInstr_edgeInstr (tw : Nat) (rising : Bool) (t : Nat) :
    printInstr tw (edgeInstr rising t) = (if rising then textEdgeR else textEdgeF) ++ ' ' :: printTime tw t := by
  cases rising <;> rfl

theorem isWord_textEdge (rising : Bool) : IsWord (if rising then textEdgeR else textEdgeF) := by
  cases rising <;> exact ⟨by decide, List.all_eq_true.1 (by decide)⟩

theorem assembleText_printed_edge {tw t : Nat} (h : t < 2 ^ tw) (rising : Bool) :
    assembleText tw (printInstr tw (edgeInstr rising t)) = .ok [encode tw (edgeInstr rising t)] := by
  rw [printInstr_edgeInstr]
  refine assembleText_two_words (isWord_textEdge rising) (isWord_decDigits tw t)
    (parseOperation_edge rising (parseOperand_printTime h)) ?_
  simp only [assemble, assembleStmt, operandValue, if_pos h]
  rfl

/-- Settles O59: the three mnemonics without operand evaluate, and an edge is a line of two words. -/
theorem printedTransactionsReassemble : Obligations.PrintedTransactionsReassemble := by
  unfold Obligations.PrintedTransactionsReassemble
  intro tw i _ hwf
  cases i with
  | idle => rfl
  | edgeF t => exact assembleText_printed_edge (by simpa [Instr.wf] using hwf) false
  | edgeR t => exact assembleText_printed_edge (by simpa [Instr.wf] using hwf) true
  | poll => rfl
  | reset => rfl

end Sys2Proof.Machine
